-- ==== Sys2Proof/Word.lean ====
section
/-! DEFINITION. The words of the block: limbs and port data, command words, port indices, bus bytes. -/

namespace Sys2Proof

/-- A word of port data or one limb (R8: every port register is W bits wide, W = 32 or 64).
One container of 64 bits serves both widths.
At W = 32 the upper half is zero in every state that `Machine.State.Inv` admits (log entry 2). -/
abbrev Word := BitVec 64

/-- A command word (R80: every command is one word of 32 bits). -/
abbrev CmdWord := BitVec 32

/-- A word index of the host port (R60: 17-bit word indices). -/
abbrev PortIndex := BitVec 17

/-- One byte lane of a byte-addressed host bus (R62). -/
abbrev Byte := BitVec 8

end Sys2Proof
end

