-- ==== Sys2Proof/Config.lean ====
section
/-! DEFINITION. The implementation parameters of the block (R8, R9, R10, R68) and the free values the spec leaves open (R206, R40). -/

namespace Sys2Proof

/-- `LIMB_BITS`, written W in every rule: 32 or 64 (R8). -/
inductive LimbWidth where
  | w32
  | w64
deriving DecidableEq, Repr

/-- W as a number of bits. -/
def LimbWidth.bits : LimbWidth → Nat
  | .w32 => 32
  | .w64 => 64

/-- The parameters a model takes: W (R8), MAX_LIMBS (R9) and the platform's BASE_ADDR (R68).
One value is fixed for the life of a block: no step changes it. -/
structure Params where
  limbWidth : LimbWidth
  maxLimbs  : Nat
  baseAddr  : Nat
deriving DecidableEq, Repr

/-- W bytes: the size of one port access on a byte-addressed bus (R63). -/
def Params.wordBytes (p : Params) : Nat := p.limbWidth.bits / 8

/-- `CAP_BITS = W * MAX_LIMBS` (R9). -/
def Params.capBits (p : Params) : Nat := p.limbWidth.bits * p.maxLimbs

/-- What the spec asks of the parameters: `2 <= MAX_LIMBS <= 4096` (R9), and BASE_ADDR a multiple of
`2**17 * (W/8)` (R65). -/
abbrev Params.Legal (p : Params) : Prop :=
  2 ≤ p.maxLimbs ∧ p.maxLimbs ≤ 4096 ∧ p.baseAddr % (2 ^ 17 * p.wordBytes) = 0

/-- The internal scratch of the units, as R40 lists it, with the step counters of R22: one for the division engine's quotient limbs,
one for GCD's common factors of two and one for the exponent bits.
Its numbers are the working values of the reference algorithms (R153, R161, R163, R165, R169), no port address reaches it, and
nothing reads it. -/
structure Scratch where
  /-- Normalized dividend of the division engine. -/
  divU      : Nat
  /-- Normalized divisor of the division engine. -/
  divV      : Nat
  /-- Partial remainder of the division engine. -/
  divRem    : Nat
  /-- Step counter of the division engine: the index j of the quotient limb (R22, R153 step 3). -/
  divIndex  : Nat
  /-- First shifted working value of binary GCD. -/
  gcdX      : Nat
  /-- Second shifted working value of binary GCD. -/
  gcdY      : Nat
  /-- Step counter of binary GCD: its factor-of-two count g (R22, R161). -/
  gcdG      : Nat
  /-- The Montgomery constant rho. -/
  rho       : Nat
  /-- `R**2 mod m`. -/
  rSquared  : Nat
  /-- The accumulator in Montgomery form. -/
  montAcc   : Nat
  /-- Step counter of square-and-multiply: its exponent bit index (R22, R169). -/
  bitIndex  : Nat
deriving DecidableEq, Repr, Inhabited

namespace Config

/-- The spec's defaults: W = 64 (R8) and MAX_LIMBS = 64 (R9).
BASE_ADDR is OPEN in the spec; 0 is the model's value here (DESIGN CHOICE, log entry 3). -/
def params : Params := ⟨.w64, 64, 0⟩

/-- The number of big-number registers, fixed (R10: NREG = 16). -/
def nreg : Nat := 16

/-- The version number in ID, fixed (R10, R31). -/
def version : Nat := 1

/-- FREE VALUE (log entry 5): what a host read of LEN, LIMB, RES or FLAGS returns while BUSY = 1 (R206).
The argument is the number of the draw. -/
opaque freeRead : Nat → Word

/-- FREE VALUE (log entry 6): the scratch the engine works with once a command is accepted (R40).
The argument is the number of the draw. -/
opaque freeScratch : Nat → Scratch

end Config

end Sys2Proof
end

