-- ==== Sys2Proof/Syntax.lean ====
section
/-! DEFINITION. The commands of the block, one constructor per row of the opcode map (R85), their opcodes and formats (R84),
and the fields of a command word (R81). -/

namespace Sys2Proof

/-- A register field: an unsigned 4-bit index naming B0 to B15; all 16 values name a register (R82). -/
abbrev Reg := Fin 16

/-- The 24 commands (R85).
Operand order is the assembler's (R84): destination first, then sources, then the modulus.
Scalar operands come from ARG and are no part of the command (R83). -/
inductive Instr where
  | nop
  | mov (d a : Reg)
  | clamp (d : Reg)
  | grow (d : Reg)
  | bitlen (a : Reg)
  | bytelen (a : Reg)
  | getbit (a : Reg)
  | setbit (d : Reg) (v : Bool)
  | cmp (a b : Reg)
  | shl (d a : Reg)
  | shr (d a : Reg)
  | addw (d a : Reg)
  | subw (d a : Reg)
  | mulw (d a : Reg)
  | add (d a b : Reg)
  | sub (d a b : Reg)
  | mul (d a b : Reg)
  | div (d a b : Reg)
  | rem (d a b : Reg)
  | gcd (d a b : Reg)
  | mrho (m : Reg)
  | montmul (d x y m : Reg)
  | pow (d b e : Reg)
  | powmod (d b e m : Reg)
deriving DecidableEq, Repr

/-- The opcode names of the map (R85), without operands. -/
inductive Opcode where
  | nop | mov | clamp | grow | bitlen | bytelen | getbit | setbit | cmp | shl | shr | addw | subw | mulw
  | add | sub | mul | div | rem | gcd | mrho | montmul | pow | powmod
deriving DecidableEq, Repr

/-- The nine operand formats (R84). -/
inductive Format where
  | f0 | fd | fs | fds | fss | fdss | fdssm | fm | fdv
deriving DecidableEq, Repr

/-- The fields of a command word (R81): OPC 31:26, RD 25:22, RS1 21:18, RS2 17:14, RS3 13:10, RSV 9:1, V 0. -/
structure Fields where
  opc : Fin 64
  rd  : Fin 16
  rs1 : Fin 16
  rs2 : Fin 16
  rs3 : Fin 16
  rsv : Fin 512
  v   : Bool
deriving DecidableEq, Repr

/-- The opcode of a command. -/
def Instr.opcode : Instr → Opcode
  | .nop => .nop
  | .mov _ _ => .mov
  | .clamp _ => .clamp
  | .grow _ => .grow
  | .bitlen _ => .bitlen
  | .bytelen _ => .bytelen
  | .getbit _ => .getbit
  | .setbit _ _ => .setbit
  | .cmp _ _ => .cmp
  | .shl _ _ => .shl
  | .shr _ _ => .shr
  | .addw _ _ => .addw
  | .subw _ _ => .subw
  | .mulw _ _ => .mulw
  | .add _ _ _ => .add
  | .sub _ _ _ => .sub
  | .mul _ _ _ => .mul
  | .div _ _ _ => .div
  | .rem _ _ _ => .rem
  | .gcd _ _ _ => .gcd
  | .mrho _ => .mrho
  | .montmul _ _ _ _ => .montmul
  | .pow _ _ _ => .pow
  | .powmod _ _ _ _ => .powmod

/-- The register a command writes, where it writes one (R26: never more than one; R29 lists the writers). -/
def Instr.dest? : Instr → Option Reg
  | .nop => none
  | .mov d _ => some d
  | .clamp d => some d
  | .grow d => some d
  | .bitlen _ => none
  | .bytelen _ => none
  | .getbit _ => none
  | .setbit d _ => some d
  | .cmp _ _ => none
  | .shl d _ => some d
  | .shr d _ => some d
  | .addw d _ => some d
  | .subw d _ => some d
  | .mulw d _ => some d
  | .add d _ _ => some d
  | .sub d _ _ => some d
  | .mul d _ _ => some d
  | .div d _ _ => some d
  | .rem d _ _ => some d
  | .gcd d _ _ => some d
  | .mrho _ => none
  | .montmul d _ _ _ => some d
  | .pow d _ _ => some d
  | .powmod d _ _ _ => some d

end Sys2Proof
end

