-- ==== Sys2Proof/WellFormed.lean ====
section
/-! DEFINITION. When a command word is legal: an opcode of the map, and every field outside its format zero (R84, R86).
A term of Instr has no illegal form: every operand is typed by its field (R82: no register index is illegal). -/

namespace Sys2Proof

/-- Does the format use RD? (R84) -/
def Format.usesRd : Format → Bool
  | .fd | .fds | .fdss | .fdssm | .fdv => true
  | .f0 | .fs | .fss | .fm => false

/-- Does the format use RS1? (R84) -/
def Format.usesRs1 : Format → Bool
  | .fs | .fds | .fss | .fdss | .fdssm => true
  | .f0 | .fd | .fm | .fdv => false

/-- Does the format use RS2? (R84) -/
def Format.usesRs2 : Format → Bool
  | .fss | .fdss | .fdssm => true
  | .f0 | .fd | .fs | .fds | .fm | .fdv => false

/-- Does the format use RS3? (R84) -/
def Format.usesRs3 : Format → Bool
  | .fdssm | .fm => true
  | .f0 | .fd | .fs | .fds | .fss | .fdss | .fdv => false

/-- Does the format use V? (R84: only FDV) -/
def Format.usesV : Format → Bool
  | .fdv => true
  | .f0 | .fd | .fs | .fds | .fss | .fdss | .fdssm | .fm => false

/-- A field outside the format must be zero, and so must RSV, and V except in FDV (R84, R86 item 3). -/
def Format.admits (fmt : Format) (f : Fields) : Bool :=
  (fmt.usesRd || f.rd == 0) && (fmt.usesRs1 || f.rs1 == 0) && (fmt.usesRs2 || f.rs2 == 0)
    && (fmt.usesRs3 || f.rs3 == 0) && f.rsv == 0 && (fmt.usesV || !f.v)

/-- The format of each opcode (R85). -/
def Opcode.format : Opcode → Format
  | .nop => .f0
  | .mov => .fds
  | .clamp => .fd
  | .grow => .fd
  | .bitlen => .fs
  | .bytelen => .fs
  | .getbit => .fs
  | .setbit => .fdv
  | .cmp => .fss
  | .shl => .fds
  | .shr => .fds
  | .addw => .fds
  | .subw => .fds
  | .mulw => .fds
  | .add => .fdss
  | .sub => .fdss
  | .mul => .fdss
  | .div => .fdss
  | .rem => .fdss
  | .gcd => .fdss
  | .mrho => .fm
  | .montmul => .fdssm
  | .pow => .fdss
  | .powmod => .fdssm

/-- The numbers of the opcode map (R85); every other value of OPC is reserved (R86 item 2). -/
def Opcode.code : Opcode → Fin 64
  | .nop => 0x00
  | .mov => 0x01
  | .clamp => 0x02
  | .grow => 0x03
  | .bitlen => 0x04
  | .bytelen => 0x05
  | .getbit => 0x06
  | .setbit => 0x07
  | .cmp => 0x08
  | .shl => 0x09
  | .shr => 0x0A
  | .addw => 0x0B
  | .subw => 0x0C
  | .mulw => 0x0D
  | .add => 0x10
  | .sub => 0x11
  | .mul => 0x12
  | .div => 0x18
  | .rem => 0x19
  | .gcd => 0x20
  | .mrho => 0x21
  | .montmul => 0x22
  | .pow => 0x23
  | .powmod => 0x24

/-- Every opcode, in the order of the map (R85). -/
def Opcode.all : List Opcode :=
  [.nop, .mov, .clamp, .grow, .bitlen, .bytelen, .getbit, .setbit, .cmp, .shl, .shr, .addw, .subw, .mulw]
    ++ [.add, .sub, .mul, .div, .rem, .gcd, .mrho, .montmul, .pow, .powmod]

/-- The fields of a legal command word: the opcode is in the map and its format admits the fields (R86 items 2 and 3). -/
def Fields.wellFormed (f : Fields) : Bool :=
  Opcode.all.any fun op => op.code == f.opc && op.format.admits f

/-- Registers named by a command, in operand order. -/
def Instr.registers : Instr → List Reg
  | .nop => []
  | .mov d a => [d, a]
  | .clamp d => [d]
  | .grow d => [d]
  | .bitlen a => [a]
  | .bytelen a => [a]
  | .getbit a => [a]
  | .setbit d _ => [d]
  | .cmp a b => [a, b]
  | .shl d a => [d, a]
  | .shr d a => [d, a]
  | .addw d a => [d, a]
  | .subw d a => [d, a]
  | .mulw d a => [d, a]
  | .add d a b => [d, a, b]
  | .sub d a b => [d, a, b]
  | .mul d a b => [d, a, b]
  | .div d a b => [d, a, b]
  | .rem d a b => [d, a, b]
  | .gcd d a b => [d, a, b]
  | .mrho m => [m]
  | .montmul d x y m => [d, x, y, m]
  | .pow d b e => [d, b, e]
  | .powmod d b e m => [d, b, e, m]

/-- A command is well formed when each register it names is one of the NREG registers (R10, R82).
The operand type makes it true of every term; `Fields.wellFormed` is the check that can fail. -/
def Instr.wellFormed (i : Instr) : Bool :=
  i.registers.all fun r => decide (r.val < Config.nreg)

end Sys2Proof
end

