-- ==== Sys2Proof/Decode.lean ====
section
/-! DEFINITION. The decoder: from a command word to a command, or none where the word is illegal (R80 to R87).
After it the encoder, from the same tables. -/

namespace Sys2Proof

/-- The fields of a word, by the bit positions of R81. -/
def Fields.ofWord (w : CmdWord) : Fields where
  opc := Fin.ofNat 64 (w.toNat / 2 ^ 26)
  rd  := Fin.ofNat 16 (w.toNat / 2 ^ 22)
  rs1 := Fin.ofNat 16 (w.toNat / 2 ^ 18)
  rs2 := Fin.ofNat 16 (w.toNat / 2 ^ 14)
  rs3 := Fin.ofNat 16 (w.toNat / 2 ^ 10)
  rsv := Fin.ofNat 512 (w.toNat / 2)
  v   := w.toNat % 2 == 1

/-- The opcode a value of OPC names, none where it is reserved (R85, R86 item 2). -/
def Opcode.ofCode (c : Fin 64) : Option Opcode := Opcode.all.find? fun op => op.code == c

/-- The command an opcode makes of the fields of its format (R84, R85). -/
def Opcode.assemble (op : Opcode) (f : Fields) : Instr :=
  match op with
  | .nop => .nop
  | .mov => .mov f.rd f.rs1
  | .clamp => .clamp f.rd
  | .grow => .grow f.rd
  | .bitlen => .bitlen f.rs1
  | .bytelen => .bytelen f.rs1
  | .getbit => .getbit f.rs1
  | .setbit => .setbit f.rd f.v
  | .cmp => .cmp f.rs1 f.rs2
  | .shl => .shl f.rd f.rs1
  | .shr => .shr f.rd f.rs1
  | .addw => .addw f.rd f.rs1
  | .subw => .subw f.rd f.rs1
  | .mulw => .mulw f.rd f.rs1
  | .add => .add f.rd f.rs1 f.rs2
  | .sub => .sub f.rd f.rs1 f.rs2
  | .mul => .mul f.rd f.rs1 f.rs2
  | .div => .div f.rd f.rs1 f.rs2
  | .rem => .rem f.rd f.rs1 f.rs2
  | .gcd => .gcd f.rd f.rs1 f.rs2
  | .mrho => .mrho f.rs3
  | .montmul => .montmul f.rd f.rs1 f.rs2 f.rs3
  | .pow => .pow f.rd f.rs1 f.rs2
  | .powmod => .powmod f.rd f.rs1 f.rs2 f.rs3

/-- Fields to command: a reserved opcode or a non-zero field outside the format is refused (R86 items 2 and 3). -/
def decodeFields (f : Fields) : Option Instr :=
  match Opcode.ofCode f.opc with
  | none => none
  | some op => if op.format.admits f then some (op.assemble f) else none

/-- The decoder of a 32-bit command word (R80). -/
def decode (w : CmdWord) : Option Instr := decodeFields (Fields.ofWord w)

/-- The decoder of the word in CMD: at W = 64 bits 63:32 must be zero (R80, R86 item 1); at W = 32 there are none. -/
def decodeCmd (lw : LimbWidth) (c : Word) : Option Instr :=
  match lw with
  | .w32 => decode (c.setWidth 32)
  | .w64 => if c.toNat < 2 ^ 32 then decode (c.setWidth 32) else none

/-- The host's entry to the decoder: one command word of `nbits` bits, written to CMD of the default block. -/
def decodeTableWord (nbits w : Nat) : Option Instr :=
  decodeCmd Config.params.limbWidth (BitVec.ofNat 64 (w % 2 ^ nbits))

/-- The fields of a command: its opcode, its operands in their fields, zero elsewhere (R81, R84, R85). -/
def Instr.fields (i : Instr) : Fields :=
  match i with
  | .nop => ⟨0x00, 0, 0, 0, 0, 0, false⟩
  | .mov d a => ⟨0x01, d, a, 0, 0, 0, false⟩
  | .clamp d => ⟨0x02, d, 0, 0, 0, 0, false⟩
  | .grow d => ⟨0x03, d, 0, 0, 0, 0, false⟩
  | .bitlen a => ⟨0x04, 0, a, 0, 0, 0, false⟩
  | .bytelen a => ⟨0x05, 0, a, 0, 0, 0, false⟩
  | .getbit a => ⟨0x06, 0, a, 0, 0, 0, false⟩
  | .setbit d v => ⟨0x07, d, 0, 0, 0, 0, v⟩
  | .cmp a b => ⟨0x08, 0, a, b, 0, 0, false⟩
  | .shl d a => ⟨0x09, d, a, 0, 0, 0, false⟩
  | .shr d a => ⟨0x0A, d, a, 0, 0, 0, false⟩
  | .addw d a => ⟨0x0B, d, a, 0, 0, 0, false⟩
  | .subw d a => ⟨0x0C, d, a, 0, 0, 0, false⟩
  | .mulw d a => ⟨0x0D, d, a, 0, 0, 0, false⟩
  | .add d a b => ⟨0x10, d, a, b, 0, 0, false⟩
  | .sub d a b => ⟨0x11, d, a, b, 0, 0, false⟩
  | .mul d a b => ⟨0x12, d, a, b, 0, 0, false⟩
  | .div d a b => ⟨0x18, d, a, b, 0, 0, false⟩
  | .rem d a b => ⟨0x19, d, a, b, 0, 0, false⟩
  | .gcd d a b => ⟨0x20, d, a, b, 0, 0, false⟩
  | .mrho m => ⟨0x21, 0, 0, 0, m, 0, false⟩
  | .montmul d x y m => ⟨0x22, d, x, y, m, 0, false⟩
  | .pow d b e => ⟨0x23, d, b, e, 0, 0, false⟩
  | .powmod d b e m => ⟨0x24, d, b, e, m, 0, false⟩

/-- `word = OPC<<26 | RD<<22 | RS1<<18 | RS2<<14 | RS3<<10 | V` (R81), with RSV in bits 9:1. -/
def Fields.toWord (f : Fields) : CmdWord :=
  BitVec.ofNat 32 (f.opc.val * 2 ^ 26 + f.rd.val * 2 ^ 22 + f.rs1.val * 2 ^ 18 + f.rs2.val * 2 ^ 14
    + f.rs3.val * 2 ^ 10 + f.rsv.val * 2 + f.v.toNat)

/-- The encoder: the one word of a command (R80, R81, R85). -/
def encode (i : Instr) : CmdWord := i.fields.toWord

/-- The decode mask of each format, as R84 lists it. -/
def Format.mask : Format → CmdWord
  | .f0 => 0xFFFFFFFF
  | .fd => 0xFC3FFFFF
  | .fs => 0xFFC3FFFF
  | .fds => 0xFC03FFFF
  | .fss => 0xFFC03FFF
  | .fdss => 0xFC003FFF
  | .fdssm => 0xFC0003FF
  | .fm => 0xFFFFC3FF
  | .fdv => 0xFC3FFFFE

/-- The match value of each row of the opcode map, as R85 lists it. -/
def Opcode.matchWord : Opcode → CmdWord
  | .nop => 0x00000000
  | .mov => 0x04000000
  | .clamp => 0x08000000
  | .grow => 0x0C000000
  | .bitlen => 0x10000000
  | .bytelen => 0x14000000
  | .getbit => 0x18000000
  | .setbit => 0x1C000000
  | .cmp => 0x20000000
  | .shl => 0x24000000
  | .shr => 0x28000000
  | .addw => 0x2C000000
  | .subw => 0x30000000
  | .mulw => 0x34000000
  | .add => 0x40000000
  | .sub => 0x44000000
  | .mul => 0x48000000
  | .div => 0x60000000
  | .rem => 0x64000000
  | .gcd => 0x80000000
  | .mrho => 0x84000000
  | .montmul => 0x88000000
  | .pow => 0x8C000000
  | .powmod => 0x90000000

end Sys2Proof
end

