-- ==== Sys2Proof/Machine/State.lean ====
section
/-! DEFINITION. The state of the block: all that 10_state.md gives it, the host accesses still to come, and the reset state. -/

namespace Sys2Proof.Machine

/-- The error codes of STATUS.ERR (R183).
Codes 9 to 15 are never produced, so they have no constructor. -/
inductive ErrCode where
  /-- 0 E_NONE: success. -/
  | none
  /-- 1 E_ILLEGAL: an illegal command word (R86). -/
  | illegal
  /-- 2 E_DIVZERO: a zero divisor or modulus. -/
  | divZero
  /-- 3 E_EVENMOD: an even Montgomery modulus. -/
  | evenMod
  /-- 4 E_OPERAND: a Montgomery operand not below the modulus. -/
  | operand
  /-- 5 E_SUBNEG: minuend below subtrahend. -/
  | subNeg
  /-- 6 E_RANGE: a bit position at or beyond W * LEN. -/
  | range
  /-- 7 E_CAPACITY: a result of more than MAX_LIMBS limbs. -/
  | capacity
  /-- 8 E_INTERNAL: reserved; a conforming block never produces it (R155). -/
  | internal
deriving DecidableEq, Repr

/-- A big-number register (R20): LEN, and LIMB[0 .. MAX_LIMBS-1] with limb 0 least significant. -/
structure BigReg where
  len   : Nat
  limbs : List Word
deriving DecidableEq, Repr

/-- What the outside does to the block, one event at a time (R3, R42, R70).
Port data is W bits wide: an event's word is cut to W bits where it enters (log entry 2). -/
inductive HostEvent where
  /-- A host read of the word at an index. -/
  | read (k : PortIndex)
  /-- A host write of the word at an index. -/
  | write (k : PortIndex) (v : Word)
  /-- A read of `size` bytes at a byte address of a byte-addressed host bus (R62). -/
  | busRead (addr size : Nat)
  /-- A write of bytes, lowest address first, at a byte address of a byte-addressed host bus (R62). -/
  | busWrite (addr : Nat) (bytes : List Byte)
  /-- The reset input is asserted (R200). -/
  | hardReset
  /-- The host makes no access: the command engine has this turn (R181, R185). -/
  | pause
deriving DecidableEq, Repr

/-- The state.
`inputs`, `rdata` and `draws` are the model's own fields (log entry 1); the rest is the spec's. -/
structure State where
  /-- LIMB_BITS, MAX_LIMBS and BASE_ADDR of this block; ID reads them (R8, R9, R31, R68). -/
  params  : Params
  /-- B0 to B15 (R20). -/
  regs    : Vector BigReg 16
  /-- CTRL.IE (R32). -/
  ie      : Bool
  /-- STATUS.BUSY, which is also the engine's phase (R33, R40). -/
  busy    : Bool
  /-- STATUS.DONE (R33). -/
  done    : Bool
  /-- STATUS.ERR (R33, R183). -/
  err     : ErrCode
  /-- STATUS.LOST (R33). -/
  lost    : Bool
  /-- STATUS.WERR (R33). -/
  werr    : Bool
  /-- CMD: the last accepted command word, all W bits as written (R34, R40). -/
  cmd     : Word
  /-- ARG (R35). -/
  arg     : Word
  /-- RES (R36). -/
  res     : Word
  /-- FLAGS.Z (R28). -/
  flagZ   : Bool
  /-- FLAGS.LT (R28). -/
  flagLT  : Bool
  /-- FLAGS.EQ (R28). -/
  flagEQ  : Bool
  /-- The units' internal scratch, none when discarded (R40); nothing reads it. -/
  scratch : Option Scratch
  /-- The host's accesses to come, in the order it issues them (R70). -/
  inputs  : List HostEvent
  /-- The word the host's last read returned, none before its first. -/
  rdata   : Option Word
  /-- How many free values have been drawn so far. -/
  draws   : Nat
deriving DecidableEq, Repr

/-- No case of the spec leaves the block stuck: every error is a completion with a code (R187, 93 "stuck: not used").
So no constructor: no step faults. -/
inductive Fault where
deriving DecidableEq, Repr

/-- Why the model has no transition. -/
inductive Refusal where
  /-- exec's arm of a command without a meaning; no arm of this model answers it. Safe. -/
  | notModelled (mnemonic : String)
  /-- A bus transaction that does not move exactly W bits, raised by a byte-bus event (R63: a model refuses it). Safe. -/
  | busWidth
  /-- A bus transaction at no byte address of a word index of the port, raised by a byte-bus event
  (R65: a model refuses it). Safe. -/
  | busAlignment
deriving DecidableEq, Repr

/-- A big-number register after reset: LEN 1, every limb 0 (R43). -/
def BigReg.zero (maxLimbs : Nat) : BigReg := ⟨1, List.replicate maxLimbs 0⟩

/-- The state after reset of a block with the given parameters (R43), with no host access to come. -/
def State.resetOf (p : Params) : State where
  params  := p
  regs    := Vector.replicate 16 (BigReg.zero p.maxLimbs)
  ie      := false
  busy    := false
  done    := false
  err     := .none
  lost    := false
  werr    := false
  cmd     := 0
  arg     := 0
  res     := 0
  flagZ   := false
  flagLT  := false
  flagEQ  := false
  scratch := none
  inputs  := []
  rdata   := none
  draws   := 0

/-- The machine right after reset, with the spec's default parameters (R8, R9, R43). -/
def State.reset : State := State.resetOf Config.params

end Sys2Proof.Machine
end

