-- ==== Sys2Proof/Machine/Operands.lean ====
section
/-! DEFINITION. Reading operands, and the functions on natural numbers the command rules are written with (R11 to R13, R21).
Each function is structural, so that the kernel can evaluate it; Sys2Proof/Laws/Operands.lean proves what the spec says of it. -/

namespace Sys2Proof.Machine

/-! ### Functions on naturals (R13) -/

/-- `bitlen(v)`: the least k with `v < 2**k` (R13). -/
def bitlen (v : Nat) : Nat := if v = 0 then 0 else Nat.log2 v + 1

/-- `clen(v) = max(1, ceil(bitlen(v) / W))`: the clamped limb count (R13). -/
def clen (w v : Nat) : Nat := max 1 ((bitlen v + w - 1) / w)

/-- `bit(v, p) = (v / 2**p) mod 2` (R13); a position above the bit length reads 0 without the power being formed. -/
def bitAt (v p : Nat) : Nat := if bitlen v ≤ p then 0 else v / 2 ^ p % 2

/-- The loop of the extended Euclid algorithm behind `modInv`: remainders r0, r1 and coefficients t0, t1 mod m. -/
def modInvLoop (m : Nat) : Nat → Nat → Nat → Nat → Nat → Nat
  | 0, _, _, t0, _ => t0
  | fuel + 1, r0, r1, t0, t1 =>
    if r1 = 0 then t0
    else modInvLoop m fuel r1 (r0 % r1) t1 ((t0 + (m - r0 / r1 * t1 % m)) % m)

/-- `inv(a, m)`: the x in `[0, m)` with `a * x mod m = 1`, when `gcd(a, m) = 1` (R13). -/
def modInv (a m : Nat) : Nat :=
  modInvLoop m (bitlen m + bitlen (a % m) + 1) m (a % m) 0 (1 % m)

/-- The loop behind `powMod`: one squaring for each bit of the exponent. -/
def powModLoop (m : Nat) : Nat → Nat → Nat → Nat
  | 0, _, _ => 1 % m
  | fuel + 1, b, e =>
    if e % 2 = 1 then b * powModLoop m fuel (b * b % m) (e / 2) % m
    else powModLoop m fuel (b * b % m) (e / 2)

/-- `(b ** e) mod m` with `0 ** 0 = 1` (R167), computed without forming `b ** e`. -/
def powMod (b e m : Nat) : Nat := powModLoop m (bitlen e) (b % m) e

/-- `v * 2**s` (R110); zero is answered without the power being formed. -/
def shiftUp (v s : Nat) : Nat := if v = 0 then 0 else v * 2 ^ s

/-- Does `v * 2**s` need at most `cap` bits? (R110, the capacity check) -/
def shiftUpFits (cap v s : Nat) : Bool := v == 0 || decide (bitlen v + s ≤ cap)

/-- `v / 2**s`, floor (R111); a count of at least the bit length gives 0 without the power being formed. -/
def shiftDown (v s : Nat) : Nat := if bitlen v ≤ s then 0 else v / 2 ^ s

/-- `b ** e` with `0 ** 0 = 1` (R166); bases 0 and 1 are answered for every exponent without the power being formed. -/
def natPow (b e : Nat) : Nat :=
  if e = 0 then 1 else if b ≤ 1 then b else b ^ e

/-- False only where `b ** e` surely needs more than `cap` bits, so that it is never formed there (R166). -/
def powMayFit (cap b e : Nat) : Bool := decide (b ≤ 1) || decide ((bitlen b - 1) * e < cap)

/-! ### Limbs and values (R21, R24) -/

/-- The number a limb sequence stands for, limb 0 least significant: the sum of R21. -/
def limbsValue (w : Nat) : List Word → Nat
  | [] => 0
  | l :: ls => l.toNat + 2 ^ w * limbsValue w ls

/-- `n` limbs of v: limb i is `(v / 2**(W*i)) mod 2**W` (R24). -/
def toLimbs (w : Nat) : Nat → Nat → List Word
  | 0, _ => []
  | n + 1, v => BitVec.ofNat 64 (v % 2 ^ w) :: toLimbs w n (v / 2 ^ w)

/-- The low W bits of a natural number, as a port word. -/
def wordOf (w v : Nat) : Word := BitVec.ofNat 64 (v % 2 ^ w)

/-! ### Operand forms (R82, R83, R35) -/

/-- W of this block (R8). -/
def State.W (s : State) : Nat := s.params.limbWidth.bits

/-- MAX_LIMBS of this block (R9). -/
def State.maxLimbs (s : State) : Nat := s.params.maxLimbs

/-- `LEN[r]` (R12). -/
def State.len (s : State) (r : Reg) : Nat := s.regs[r].len

/-- `LIMB[r][i]` (R12), for i < MAX_LIMBS. -/
def State.limb (s : State) (r : Reg) (i : Nat) : Word := s.regs[r].limbs.getD i 0

/-- `val(r)`: the sum of the limbs below LEN (R21). -/
def State.val (s : State) (r : Reg) : Nat := limbsValue s.W (s.regs[r].limbs.take s.regs[r].len)

/-- ARG as an operand: an unsigned integer in `[0, 2**W)` (R35, R83). -/
def State.scalar (s : State) : Nat := s.arg.toNat

/-- Does the value fit a big-number register: `clen(v) <= MAX_LIMBS` (R24)? -/
def State.fits (s : State) (v : Nat) : Bool := decide (clen s.W v ≤ s.maxLimbs)

end Sys2Proof.Machine
end

