-- ==== Sys2Proof/Machine/Flags.lean ====
section
/-! DEFINITION. The flags (R28 to R30) and how a command writes them. -/

namespace Sys2Proof.Machine

/-- `FLAGS.Z <- (v = 0)`, LT and EQ unchanged (R29). -/
def State.setZ (s : State) (v : Nat) : State := { s with flagZ := v == 0 }

/-- CMP's flags: `LT <- (a < b)`, `EQ <- (a = b)`, Z unchanged (R30). -/
def State.setCompare (s : State) (a b : Nat) : State :=
  { s with flagLT := decide (a < b), flagEQ := a == b }

/-- FLAGS as the port reads it: Z in bit 0, LT in bit 1, EQ in bit 2, reserved bits 0 (R28). -/
def State.flagsWord (s : State) : Word :=
  BitVec.ofNat 64 (s.flagZ.toNat + 2 * s.flagLT.toNat + 4 * s.flagEQ.toNat)

end Sys2Proof.Machine
end

