-- ==== Sys2Proof/Machine/Ops.lean ====
section
/-! DEFINITION. The operations the commands and the port share: result writes, completion and error completion (the block's
whole exception entry, R187), acceptance, and reset. -/

namespace Sys2Proof.Machine

/-! ### Register writes -/

/-- `B[r] <- b`; the other registers are untouched (R26). -/
def State.setReg (s : State) (r : Reg) (b : BigReg) : State := { s with regs := s.regs.set r b }

/-- `WriteB(r, v)`: LEN is `clen(v)`, every limb is written, those at or above LEN with zero (R24). -/
def State.writeB (s : State) (r : Reg) (v : Nat) : State :=
  s.setReg r ⟨clen s.W v, toLimbs s.W s.maxLimbs v⟩

/-- A result write with its flag: `WriteB(r, v)` and `Z <- (v = 0)` (R24, R29). -/
def State.writeResult (s : State) (r : Reg) (v : Nat) : State := (s.writeB r v).setZ v

/-- `RES <- v` (R36). -/
def State.setRes (s : State) (v : Nat) : State := { s with res := wordOf s.W v }

/-- GROW's register: limbs LEN .. n-1 zeroed and LEN raised to n; untouched where n is no more than LEN (R103). -/
def BigReg.grow (b : BigReg) (n : Nat) : BigReg :=
  if n > b.len then ⟨n, b.limbs.take b.len ++ List.replicate (n - b.len) 0 ++ b.limbs.drop n⟩ else b

/-! ### Completion (R181) and the error completion (R182, R187) -/

/-- The status a completion leaves: `ERR <- code; DONE <- 1; BUSY <- 0` (R181). -/
def State.complete (s : State) (code : ErrCode) : State :=
  { s with err := code, done := true, busy := false }

/-- Taking an error: the whole of the block's trap entry.
Only ERR, DONE and BUSY change; the failing word stays in CMD (R182, R187). -/
def State.raiseError (s : State) (code : ErrCode) : State := s.complete code

/-- The completion step of R181: a command's rule answers the state with its effects, or an error code.
Effects land only where there is no error. -/
def completion (s : State) (rule : Except ErrCode State) : Host.Outcome State Fault Refusal :=
  match rule with
  | .ok s' => .next (s'.complete .none)
  | .error code => .next (s.raiseError code)

/-- The common ending of a rule that writes `v` to Bd: E_CAPACITY where it does not fit, else the result write (R24, R183). -/
def State.writeOrCapacity (s : State) (d : Reg) (v : Nat) : Except ErrCode State :=
  if s.fits v then .ok (s.writeResult d v) else .error .capacity

/-- The host's acknowledgement of a completion, the nearest the block has to a return from an exception (R188):
DONE is cleared, and ERR keeps the code of the last completed command (R33). -/
def State.acknowledge (s : State) : State := { s with done := false }

/-! ### Acceptance (R180) -/

/-- The accept step: CMD takes the full word, BUSY rises, DONE and ERR are cleared (R180). -/
def State.accept (s : State) (c : Word) : State :=
  { s with cmd := c, busy := true, done := false, err := .none }

/-- The engine starts work on the accepted command: its scratch holds what the spec does not say,
a free value (R40, log entry 6). -/
def State.startEngine (s : State) : State :=
  { s with scratch := some (Config.freeScratch s.draws), draws := s.draws + 1 }

/-! ### Reset (R43, R200, R201) -/

/-- Hard or soft reset: every piece of state takes its reset value, and a command in flight is abandoned (R43, R200, R201).
What is not the block's stays: its parameters, the host's accesses to come, and what the host has read. -/
def State.toReset (s : State) : State :=
  { State.resetOf s.params with inputs := s.inputs, rdata := s.rdata, draws := s.draws }

end Sys2Proof.Machine
end

