-- ==== Sys2Proof/Machine/Division.lean ====
section
/-! DEFINITION. The commands of the long-division engine (42_division.md): DIV and REM. -/

namespace Sys2Proof.Machine

/-- DIV Bd, Ba, Bb: `val(a) / val(b)`, floor; E_DIVZERO for a zero divisor, checked first (R150, R152). -/
def execDiv (d a b : Reg) (s : State) : Host.Outcome State Fault Refusal :=
  completion s <|
    if s.val b = 0 then .error .divZero
    else .ok (s.writeResult d (s.val a / s.val b))

/-- REM Bd, Ba, Bb: `val(a) mod val(b)`; E_DIVZERO for a zero divisor, checked first (R151, R152). -/
def execRem (d a b : Reg) (s : State) : Host.Outcome State Fault Refusal :=
  completion s <|
    if s.val b = 0 then .error .divZero
    else .ok (s.writeResult d (s.val a % s.val b))

end Sys2Proof.Machine
end

