-- ==== Sys2Proof/Machine/Kernel.lean ====
section
/-! DEFINITION. The arithmetic kernel (41_kernel.md): the multi-word adder, the multi-word subtractor and the multiplier. -/

namespace Sys2Proof.Machine

/-- ADD Bd, Ba, Bb: `val(a) + val(b)`, E_CAPACITY where it does not fit (R140). -/
def execAdd (d a b : Reg) (s : State) : Host.Outcome State Fault Refusal :=
  completion s (s.writeOrCapacity d (s.val a + s.val b))

/-- SUB Bd, Ba, Bb: `val(a) - val(b)`, E_SUBNEG where the subtrahend is greater (R141). -/
def execSub (d a b : Reg) (s : State) : Host.Outcome State Fault Refusal :=
  completion s <|
    if s.val a < s.val b then .error .subNeg
    else .ok (s.writeResult d (s.val a - s.val b))

/-- MUL Bd, Ba, Bb: `val(a) * val(b)`, E_CAPACITY where the product does not fit (R142). -/
def execMul (d a b : Reg) (s : State) : Host.Outcome State Fault Refusal :=
  completion s (s.writeOrCapacity d (s.val a * s.val b))

end Sys2Proof.Machine
end

