-- ==== Sys2Proof/Machine/Magnitude.lean ====
section
/-! DEFINITION. The magnitude commands (40_magnitude.md): NOP, MOV, CLAMP, GROW, BITLEN, BYTELEN, GETBIT, SETBIT, CMP, SHL, SHR,
ADDW, SUBW, MULW. -/

namespace Sys2Proof.Machine

/-- NOP: skip; it still completes (R100). -/
def execNop (s : State) : Host.Outcome State Fault Refusal := completion s (.ok s)

/-- MOV Bd, Ba: `WriteB(d, val(a))` (R101). -/
def execMov (d a : Reg) (s : State) : Host.Outcome State Fault Refusal :=
  completion s (.ok (s.writeResult d (s.val a)))

/-- CLAMP Bd: `WriteB(d, val(d))` (R102). -/
def execClamp (d : Reg) (s : State) : Host.Outcome State Fault Refusal :=
  completion s (.ok (s.writeResult d (s.val d)))

/-- GROW Bd, n = ARG: E_CAPACITY above MAX_LIMBS, else LEN is raised to n with zero limbs; Z from the value (R103). -/
def execGrow (d : Reg) (s : State) : Host.Outcome State Fault Refusal :=
  completion s <|
    if s.scalar > s.maxLimbs then .error .capacity
    else
      let s' := s.setReg d (s.regs[d].grow s.scalar)
      .ok (s'.setZ (s'.val d))

/-- BITLEN Ba: `RES <- bitlen(val(a))` (R104). -/
def execBitlen (a : Reg) (s : State) : Host.Outcome State Fault Refusal :=
  completion s (.ok (s.setRes (bitlen (s.val a))))

/-- BYTELEN Ba: `RES <- max(1, ceil(bitlen(val(a)) / 8))` (R105). -/
def execBytelen (a : Reg) (s : State) : Host.Outcome State Fault Refusal :=
  completion s (.ok (s.setRes (max 1 ((bitlen (s.val a) + 7) / 8))))

/-- GETBIT Ba, p = ARG: E_RANGE at or beyond W * LEN, else `RES <- bit(val(a), p)` (R106). -/
def execGetbit (a : Reg) (s : State) : Host.Outcome State Fault Refusal :=
  completion s <|
    if s.scalar ≥ s.W * s.len a then .error .range
    else .ok (s.setRes (bitAt (s.val a) s.scalar))

/-- SETBIT Bd, V, p = ARG: E_RANGE at or beyond W * LEN, else bit p is set or cleared and the result clamped (R107). -/
def execSetbit (d : Reg) (v : Bool) (s : State) : Host.Outcome State Fault Refusal :=
  completion s <|
    if s.scalar ≥ s.W * s.len d then .error .range
    else if v then .ok (s.writeResult d (s.val d + (1 - bitAt (s.val d) s.scalar) * 2 ^ s.scalar))
    else .ok (s.writeResult d (s.val d - bitAt (s.val d) s.scalar * 2 ^ s.scalar))

/-- CMP Ba, Bb: LT and EQ from the values, Z unchanged (R108). -/
def execCmp (a b : Reg) (s : State) : Host.Outcome State Fault Refusal :=
  completion s (.ok (s.setCompare (s.val a) (s.val b)))

/-- SHL Bd, Ba, s = ARG: `val(a) * 2**s`, E_CAPACITY where it does not fit (R110). -/
def execShl (d a : Reg) (s : State) : Host.Outcome State Fault Refusal :=
  completion s <|
    if shiftUpFits s.params.capBits (s.val a) s.scalar then .ok (s.writeResult d (shiftUp (s.val a) s.scalar))
    else .error .capacity

/-- SHR Bd, Ba, s = ARG: `val(a) / 2**s`, floor (R111). -/
def execShr (d a : Reg) (s : State) : Host.Outcome State Fault Refusal :=
  completion s (.ok (s.writeResult d (shiftDown (s.val a) s.scalar)))

/-- ADDW Bd, Ba: `val(a) + ARG`, E_CAPACITY where it does not fit (R112). -/
def execAddw (d a : Reg) (s : State) : Host.Outcome State Fault Refusal :=
  completion s (s.writeOrCapacity d (s.val a + s.scalar))

/-- SUBW Bd, Ba: `val(a) - ARG`, E_SUBNEG where ARG is greater (R113). -/
def execSubw (d a : Reg) (s : State) : Host.Outcome State Fault Refusal :=
  completion s <|
    if s.val a < s.scalar then .error .subNeg
    else .ok (s.writeResult d (s.val a - s.scalar))

/-- MULW Bd, Ba: `p = val(a) * ARG` to Bd and the carry limb `p / 2**(W*clen(val(a)))` to RES; E_CAPACITY where p does not fit,
and then neither is written (R114). -/
def execMulw (d a : Reg) (s : State) : Host.Outcome State Fault Refusal :=
  completion s <|
    let p := s.val a * s.scalar
    if s.fits p then .ok ((s.writeResult d p).setRes (p / 2 ^ (s.W * clen s.W (s.val a))))
    else .error .capacity

end Sys2Proof.Machine
end

