-- ==== Sys2Proof/Machine/Modular.lean ====
section
/-! DEFINITION. The modular and number-theoretic commands (43_modular.md): GCD, MRHO, MONTMUL, POW, POWMOD. -/

namespace Sys2Proof.Machine

/-- `rho = -m^-1 mod 2**W`, from the low limb of an odd modulus (R162). -/
def rhoOf (w m : Nat) : Nat := (2 ^ w - modInv (m % 2 ^ w) (2 ^ w)) % 2 ^ w

/-- The Montgomery radix of a modulus, `R = 2**(W*n)` with `n = clen(m)` (R163). -/
def montRadix (w m : Nat) : Nat := 2 ^ (w * clen w m)

/-- `x * y * R**-1 mod m` (R164). -/
def montMul (w x y m : Nat) : Nat := x * y * modInv (montRadix w m % m) m % m

/-- GCD Bd, Ba, Bb: the greatest common divisor, with `gcd(x, 0) = x` and `gcd(0, 0) = 0` (R160). -/
def execGcd (d a b : Reg) (s : State) : Host.Outcome State Fault Refusal :=
  completion s (.ok (s.writeResult d (Nat.gcd (s.val a) (s.val b))))

/-- MRHO Bm: E_EVENMOD for an even modulus, else `RES <- rho` (R162). -/
def execMrho (m : Reg) (s : State) : Host.Outcome State Fault Refusal :=
  completion s <|
    if s.val m % 2 = 0 then .error .evenMod
    else .ok (s.setRes (rhoOf s.W (s.val m)))

/-- MONTMUL Bd, Bx, By, Bm: E_EVENMOD first, then E_OPERAND, else the fully reduced Montgomery product (R164). -/
def execMontmul (d x y m : Reg) (s : State) : Host.Outcome State Fault Refusal :=
  completion s <|
    if s.val m % 2 = 0 then .error .evenMod
    else if s.val x ≥ s.val m ∨ s.val y ≥ s.val m then .error .operand
    else .ok (s.writeResult d (montMul s.W (s.val x) (s.val y) (s.val m)))

/-- POW Bd, Bb, Be: `val(b) ** val(e)` with `0 ** 0 = 1`; E_CAPACITY decided by the final result (R166). -/
def execPow (d b e : Reg) (s : State) : Host.Outcome State Fault Refusal :=
  completion s <|
    if powMayFit s.params.capBits (s.val b) (s.val e) then s.writeOrCapacity d (natPow (s.val b) (s.val e))
    else .error .capacity

/-- POWMOD Bd, Bb, Be, Bm: `(val(b) ** val(e)) mod val(m)`; E_DIVZERO for a zero modulus, never E_EVENMOD (R167, R170). -/
def execPowmod (d b e m : Reg) (s : State) : Host.Outcome State Fault Refusal :=
  completion s <|
    if s.val m = 0 then .error .divZero
    else .ok (s.writeResult d (powMod (s.val b) (s.val e) (s.val m)))

end Sys2Proof.Machine
end

