-- ==== Sys2Proof/Machine/Dispatch.lean ====
section
/-! DEFINITION. One arm per command: the completion step of that command (R181). -/

namespace Sys2Proof.Machine

def exec (i : Instr) (s : State) : Host.Outcome State Fault Refusal :=
  match i with
  | .nop => Sys2Proof.Machine.execNop s
  | .mov d a => Sys2Proof.Machine.execMov d a s
  | .clamp d => Sys2Proof.Machine.execClamp d s
  | .grow d => Sys2Proof.Machine.execGrow d s
  | .bitlen a => Sys2Proof.Machine.execBitlen a s
  | .bytelen a => Sys2Proof.Machine.execBytelen a s
  | .getbit a => Sys2Proof.Machine.execGetbit a s
  | .setbit d v => Sys2Proof.Machine.execSetbit d v s
  | .cmp a b => Sys2Proof.Machine.execCmp a b s
  | .shl d a => Sys2Proof.Machine.execShl d a s
  | .shr d a => Sys2Proof.Machine.execShr d a s
  | .addw d a => Sys2Proof.Machine.execAddw d a s
  | .subw d a => Sys2Proof.Machine.execSubw d a s
  | .mulw d a => Sys2Proof.Machine.execMulw d a s
  | .add d a b => Sys2Proof.Machine.execAdd d a b s
  | .sub d a b => Sys2Proof.Machine.execSub d a b s
  | .mul d a b => Sys2Proof.Machine.execMul d a b s
  | .div d a b => Sys2Proof.Machine.execDiv d a b s
  | .rem d a b => Sys2Proof.Machine.execRem d a b s
  | .gcd d a b => Sys2Proof.Machine.execGcd d a b s
  | .mrho m => Sys2Proof.Machine.execMrho m s
  | .montmul d x y m => Sys2Proof.Machine.execMontmul d x y m s
  | .pow d b e => Sys2Proof.Machine.execPow d b e s
  | .powmod d b e m => Sys2Proof.Machine.execPowmod d b e m s

end Sys2Proof.Machine
end

