-- ==== Sys2Proof/Machine/Port.lean ====
section
/-! DEFINITION. The host port (10_state.md R31 to R39, R41; 20_memory.md): its address map, its reads and writes, the byte lanes of
a byte-addressed bus, and the IRQ output. -/

namespace Sys2Proof.Machine

/-- What a word index names (R39). -/
inductive PortReg where
  | id
  | ctrl
  | status
  | cmd
  | arg
  | res
  | flags
  | len (r : Reg)
  | limb (r : Reg) (i : Nat)
  | reserved
deriving DecidableEq, Repr

/-- The port address map (R39), for a block of the given MAX_LIMBS. -/
def portReg (maxLimbs : Nat) (k : PortIndex) : PortReg :=
  let n := k.toNat
  if 0x10000 ≤ n then
    if n % 0x1000 < maxLimbs then .limb (Fin.ofNat 16 ((n - 0x10000) / 0x1000)) (n % 0x1000) else .reserved
  else if 0x10 ≤ n ∧ n ≤ 0x1F then .len (Fin.ofNat 16 (n - 0x10))
  else if n = 0 then .id
  else if n = 1 then .ctrl
  else if n = 2 then .status
  else if n = 3 then .cmd
  else if n = 4 then .arg
  else if n = 5 then .res
  else if n = 6 then .flags
  else .reserved

/-- The word index of a register of the map (R31 to R38); for `reserved`, the first reserved index. -/
def PortReg.index : PortReg → PortIndex
  | .id => 0x00000
  | .ctrl => 0x00001
  | .status => 0x00002
  | .cmd => 0x00003
  | .arg => 0x00004
  | .res => 0x00005
  | .flags => 0x00006
  | .len r => BitVec.ofNat 17 (0x00010 + r.val)
  | .limb r i => BitVec.ofNat 17 (0x10000 + r.val * 0x1000 + i)
  | .reserved => 0x00007

/-! ### Register views -/

/-- ID: VERSION in 7:0, LIMBW in 15:8, MAXL in 31:16 (R31). -/
def State.idWord (s : State) : Word :=
  BitVec.ofNat 64 (Config.version + 2 ^ 8 * s.W + 2 ^ 16 * s.maxLimbs)

/-- CTRL: IE in bit 0; SRST and the reserved bits read 0 (R32). -/
def State.ctrlWord (s : State) : Word := BitVec.ofNat 64 s.ie.toNat

/-- The number of an error code (R183). -/
def ErrCode.code : ErrCode → Nat
  | .none => 0
  | .illegal => 1
  | .divZero => 2
  | .evenMod => 3
  | .operand => 4
  | .subNeg => 5
  | .range => 6
  | .capacity => 7
  | .internal => 8

/-- STATUS: BUSY in bit 0, DONE in bit 1, ERR in 7:4, LOST in bit 8, WERR in bit 9, reserved bits 0 (R33). -/
def State.statusWord (s : State) : Word :=
  BitVec.ofNat 64 (s.busy.toNat + 2 * s.done.toNat + 2 ^ 4 * s.err.code + 2 ^ 8 * s.lost.toNat + 2 ^ 9 * s.werr.toNat)

/-- The IRQ output: `IRQ = CTRL.IE and STATUS.DONE` (R41, R186). -/
def State.irq (s : State) : Bool := s.ie && s.done

/-! ### Reads -/

/-- The value of a register as the port reads it; a reserved index reads 0 (R31 to R39). -/
def State.readReg (s : State) : PortReg → Word
  | .id => s.idWord
  | .ctrl => s.ctrlWord
  | .status => s.statusWord
  | .cmd => s.cmd
  | .arg => s.arg
  | .res => s.res
  | .flags => s.flagsWord
  | .len r => BitVec.ofNat 64 (s.len r)
  | .limb r i => s.limb r i
  | .reserved => 0

/-- The registers whose read returns any value while BUSY = 1: LEN, LIMB, RES and FLAGS (R206). -/
def PortReg.anyWhileBusy : PortReg → Bool
  | .len _ | .limb _ _ | .res | .flags => true
  | .id | .ctrl | .status | .cmd | .arg | .reserved => false

/-- A host read: no side effect on the block (R67); the word returned is exact but for R206's free value while BUSY = 1. -/
def portRead (k : PortIndex) (s : State) : State :=
  let t := portReg s.maxLimbs k
  if s.busy && t.anyWhileBusy then
    { s with rdata := some (wordOf s.W (Config.freeRead s.draws).toNat), draws := s.draws + 1 }
  else { s with rdata := some (s.readReg t) }

/-! ### Writes -/

/-- A CTRL write: SRST = 1 is a soft reset and the rest of the write is discarded; else IE is stored (R32, R201). -/
def State.writeCtrl (s : State) (v : Word) : State :=
  if v.getLsbD 1 then s.toReset else { s with ie := v.getLsbD 0 }

/-- A STATUS write: writing 1 clears DONE, LOST or WERR; writing 0, and every other bit, changes nothing (R33). -/
def State.writeStatus (s : State) (v : Word) : State :=
  let s' := if v.getLsbD 1 then s.acknowledge else s
  { s' with lost := s.lost && !v.getLsbD 8, werr := s.werr && !v.getLsbD 9 }

/-- A CMD write: accepted while BUSY = 0; dropped while BUSY = 1, and LOST records it (R34, R180). -/
def State.writeCmd (s : State) (v : Word) : State :=
  if s.busy then { s with lost := true } else (s.accept v).startEngine

/-- A write that is dropped and recorded in WERR (R33, R35, R37, R38). -/
def State.dropWrite (s : State) : State := { s with werr := true }

/-- An ARG write, dropped while BUSY = 1 (R35). -/
def State.writeArg (s : State) (v : Word) : State :=
  if s.busy then s.dropWrite else { s with arg := v }

/-- A LEN write: dropped while BUSY = 1 or where the value is 0 or above MAX_LIMBS; no limb changes (R37). -/
def State.writeLen (s : State) (r : Reg) (v : Word) : State :=
  if s.busy then s.dropWrite
  else if v.toNat = 0 ∨ v.toNat > s.maxLimbs then s.dropWrite
  else s.setReg r { s.regs[r] with len := v.toNat }

/-- A LIMB write, dropped while BUSY = 1 (R38). -/
def State.writeLimb (s : State) (r : Reg) (i : Nat) (v : Word) : State :=
  if s.busy then s.dropWrite
  else s.setReg r { s.regs[r] with limbs := s.regs[r].limbs.set i v }

/-- A host write of a word: read-only and reserved indices ignore it (R28, R31, R36, R39). -/
def portWrite (k : PortIndex) (v : Word) (s : State) : State :=
  let v := wordOf s.W v.toNat
  match portReg s.maxLimbs k with
  | .id => s
  | .ctrl => s.writeCtrl v
  | .status => s.writeStatus v
  | .cmd => s.writeCmd v
  | .arg => s.writeArg v
  | .res => s
  | .flags => s
  | .len r => s.writeLen r v
  | .limb r i => s.writeLimb r i v
  | .reserved => s

/-! ### A byte-addressed host bus (R62, R63, R65) -/

/-- The word index a bus transaction reaches: word index k is at byte address `BASE_ADDR + k * (W/8)` (R62).
A size other than W/8 bytes is refused (R63), and so is an address of no index (R65). -/
def busIndex (p : Params) (addr size : Nat) : Except Refusal PortIndex :=
  if size ≠ p.wordBytes then .error .busWidth
  else if addr < p.baseAddr ∨ (addr - p.baseAddr) % p.wordBytes ≠ 0 ∨ 2 ^ 17 * p.wordBytes ≤ addr - p.baseAddr then
    .error .busAlignment
  else .ok (BitVec.ofNat 17 ((addr - p.baseAddr) / p.wordBytes))

/-- The byte lanes of a word, lowest address first: byte j holds bits `8j+7 : 8j` (R62). -/
def lanes (n : Nat) (v : Word) : List Byte := (List.range n).map fun j => v.extractLsb' (8 * j) 8

/-- The number the byte lanes carry, lowest address first (R62). -/
def lanesValue : List Byte → Nat
  | [] => 0
  | b :: bs => b.toNat + 2 ^ 8 * lanesValue bs

/-- The bytes the host's last read returned, lowest address first (R62). -/
def State.readLanes (s : State) : Option (List Byte) := s.rdata.map (lanes s.params.wordBytes)

/-- A read of `size` bytes on the byte bus. -/
def busRead (addr size : Nat) (s : State) : Host.Outcome State Fault Refusal :=
  match busIndex s.params addr size with
  | .ok k => .next (portRead k s)
  | .error r => .refused r

/-- A write of bytes on the byte bus. -/
def busWrite (addr : Nat) (bytes : List Byte) (s : State) : Host.Outcome State Fault Refusal :=
  match busIndex s.params addr bytes.length with
  | .ok k => .next (portWrite k (BitVec.ofNat 64 (lanesValue bytes)) s)
  | .error r => .refused r

end Sys2Proof.Machine
end

