-- ==== Sys2Proof/Machine/Engine.lean ====
section
/-! DEFINITION. The command engine's step and one turn of the host (R181, R185, R70). -/

namespace Sys2Proof.Machine

/-- The registers whose values a command reads (the Operands line of its rule): its sources, and the destination of CLAMP, GROW and
SETBIT. -/
def sourcesOf : Instr → List Reg
  | .nop => []
  | .mov _ a => [a]
  | .clamp d => [d]
  | .grow d => [d]
  | .bitlen a => [a]
  | .bytelen a => [a]
  | .getbit a => [a]
  | .setbit d _ => [d]
  | .cmp a b => [a, b]
  | .shl _ a => [a]
  | .shr _ a => [a]
  | .addw _ a => [a]
  | .subw _ a => [a]
  | .mulw _ a => [a]
  | .add _ a b => [a, b]
  | .sub _ a b => [a, b]
  | .mul _ a b => [a, b]
  | .div _ a b => [a, b]
  | .rem _ a b => [a, b]
  | .gcd _ a b => [a, b]
  | .mrho m => [m]
  | .montmul _ x y m => [x, y, m]
  | .pow _ b e => [b, e]
  | .powmod _ b e m => [b, e, m]

/-- The command the engine holds while BUSY = 1, none for an illegal word (R40). -/
def State.inFlight (s : State) : Option Instr :=
  if s.busy then decodeCmd s.params.limbWidth s.cmd else none

/-- The operand values the engine holds while BUSY = 1: the values of the sources, and ARG (R40).
They stand in the registers from accept to completion, so they are stored once (R27, log entry 7). -/
def State.operandValues (s : State) : Option (List Nat × Nat) :=
  s.inFlight.map fun i => ((sourcesOf i).map s.val, s.scalar)

/-- The engine's only step, the completion: while BUSY = 1 the word in CMD is decoded and its rule applied, an illegal word
completing with E_ILLEGAL; while BUSY = 0 the engine has no step and writes no state (R181, R86). -/
def engineTurn (s : State) : Host.Outcome State Fault Refusal :=
  if s.busy then
    match decodeCmd s.params.limbWidth s.cmd with
    | some i => exec i s
    | none => completion s (.error .illegal)
  else .next s

/-- One event: a host access, the reset input, or a turn the host leaves to the engine (R3, R70, R200). -/
def turn (e : HostEvent) (s : State) : Host.Outcome State Fault Refusal :=
  match e with
  | .read k => .next (portRead k s)
  | .write k v => .next (portWrite k v s)
  | .busRead addr size => busRead addr size s
  | .busWrite addr bytes => busWrite addr bytes s
  | .hardReset => .next s.toReset
  | .pause => engineTurn s

end Sys2Proof.Machine
end

