-- ==== Sys2Proof/Machine/Step.lean ====
section
/-! DEFINITION. One step of the block: the next event of the host, or, where there is none, the engine's turn. -/

namespace Sys2Proof.Machine

/-- Accesses take effect one at a time, in the order the host issues them; a `pause` among them is where the engine's
completion falls (R70, R181, R185), and once the host has nothing more to do the engine completes (R210). -/
def step (s : State) : Host.Outcome State Fault Refusal :=
  match s.inputs with
  | [] => engineTurn s
  | e :: rest => turn e { s with inputs := rest }

/-- The state in which a command word of `nbits` bits has just been accepted and the host leaves the next turn to the engine,
so that the next step runs exactly that word (log entry 4). -/
def State.withFetchWord (s : State) (nbits w : Nat) : State :=
  { s.accept (BitVec.ofNat 64 (w % 2 ^ nbits)) with inputs := [] }

end Sys2Proof.Machine
end

