-- ==== Sys2Proof/Machine/HostNotation.lean ====
section
/-! DEFINITION. The assembler text of a command (R88), the host-program statements (R89) and the pseudo-instructions (R90), as the
port accesses they stand for. -/

namespace Sys2Proof.Machine

/-- The mnemonic of each opcode (R85). -/
def mnemonicText : Opcode → String
  | .nop => "NOP"
  | .mov => "MOV"
  | .clamp => "CLAMP"
  | .grow => "GROW"
  | .bitlen => "BITLEN"
  | .bytelen => "BYTELEN"
  | .getbit => "GETBIT"
  | .setbit => "SETBIT"
  | .cmp => "CMP"
  | .shl => "SHL"
  | .shr => "SHR"
  | .addw => "ADDW"
  | .subw => "SUBW"
  | .mulw => "MULW"
  | .add => "ADD"
  | .sub => "SUB"
  | .mul => "MUL"
  | .div => "DIV"
  | .rem => "REM"
  | .gcd => "GCD"
  | .mrho => "MRHO"
  | .montmul => "MONTMUL"
  | .pow => "POW"
  | .powmod => "POWMOD"

/-- Registers are written B0 to B15 (R88). -/
def regText (r : Reg) : String := "B" ++ toString r.val

/-- The operands of a command as its format lists them, V last (R84, R88). -/
def operandTexts (i : Instr) : List String :=
  i.registers.map regText ++
    match i with
    | .setbit _ v => [if v then "1" else "0"]
    | _ => []

/-- The assembler text of a command: the mnemonic, then its operands separated by commas (R88). -/
def asmText (i : Instr) : String :=
  mnemonicText i.opcode ++
    match operandTexts i with
    | [] => ""
    | t :: ts => " " ++ ts.foldl (fun acc x => acc ++ ", " ++ x) t

/-- The statements of the host-program notation (R89). -/
inductive HostStmt where
  | wr (t : PortReg) (v : Word)
  | rd (t : PortReg)
  | cmd (i : Instr)
  | wait
deriving DecidableEq, Repr

/-- The accesses a statement stands for (R89).
`wait` is the engine's turn and the STATUS read that finds BUSY = 0; earlier polls change nothing but the data read (log entry 10). -/
def HostStmt.events : HostStmt → List HostEvent
  | .wr t v => [.write t.index v]
  | .rd t => [.read t.index]
  | .cmd i => [.write PortReg.cmd.index ((encode i).setWidth 64)]
  | .wait => [.pause, .read PortReg.status.index]

/-- The pseudo-instructions (R90). -/
inductive Pseudo where
  | sqr (d a : Reg)
  | zero (d : Reg)
  | mod (d a m : Reg)
  | inc (d : Reg)
  | dec (d : Reg)
  | shli (d a : Reg) (n : Word)
  | shri (d a : Reg) (n : Word)
  | modmul (d a b m : Reg)
deriving DecidableEq, Repr

/-- Their expansions (R90). -/
def Pseudo.expand : Pseudo → List HostStmt
  | .sqr d a => [.cmd (.mul d a a)]
  | .zero d => [.cmd (.sub d d d)]
  | .mod d a m => [.cmd (.rem d a m)]
  | .inc d => [.wr .arg 1, .cmd (.addw d d)]
  | .dec d => [.wr .arg 1, .cmd (.subw d d)]
  | .shli d a n => [.wr .arg n, .cmd (.shl d a)]
  | .shri d a n => [.wr .arg n, .cmd (.shr d a)]
  | .modmul d a b m => [.cmd (.mul d a b), .wait, .cmd (.rem d d m)]

/-- The accesses of a host program, in order (R89, R70). -/
def programEvents (p : List HostStmt) : List HostEvent := p.flatMap HostStmt.events

end Sys2Proof.Machine
end

