-- ==== Sys2Proof/Machine/Units.lean ====
section
/-! DEFINITION. The units of the block with the reference algorithms of the spec and their scratch (R109, R143, R153, R161, R163,
R165, R169). None of them is architectural (R40): a command's result is the value its rule gives, and the obligations say that
each unit computes that value. -/

namespace Sys2Proof.Machine

/-- Limb k of a number, `x[k]` in base B (R153). -/
def limbAt (B x k : Nat) : Nat := x / B ^ k % B

/-! ### Comparison (R109) -/

/-- Limbs k-1 down to 0, most significant first. -/
def compareDown (B a b : Nat) : Nat → Ordering
  | 0 => .eq
  | k + 1 =>
    if limbAt B a k < limbAt B b k then .lt
    else if limbAt B b k < limbAt B a k then .gt
    else compareDown B a b k

/-- "compare clamped lengths first, then limbs from most to least significant" (R109). -/
def compareUnit (w a b : Nat) : Ordering :=
  if clen w a < clen w b then .lt
  else if clen w b < clen w a then .gt
  else compareDown (2 ^ w) a b (clen w a)

/-! ### Adder and subtractor (R140, R141; ripple form, log entry 9) -/

/-- A carry through the limbs of one operand, the other having no more. -/
def carryThrough (B : Nat) : List Nat → Nat → List Nat
  | [], c => [c]
  | y :: ys, c => (y + c) % B :: carryThrough B ys ((y + c) / B)

/-- The multi-word adder: a carry through every limb, and the carry out of the top limb a new limb (R140). -/
def addUnit (B : Nat) : List Nat → List Nat → Nat → List Nat
  | [], ys, c => carryThrough B ys c
  | x :: xs, [], c => (x + c) % B :: addUnit B xs [] ((x + c) / B)
  | x :: xs, y :: ys, c => (x + y + c) % B :: addUnit B xs ys ((x + y + c) / B)

/-- The limbs of the subtrahend above the minuend's: all of them are borrowed. -/
def borrowThrough (B : Nat) : List Nat → Nat → List Nat × Nat
  | [], c => ([], c)
  | y :: ys, c =>
    let r := borrowThrough B ys (if y + c = 0 then 0 else 1)
    ((B - (y + c)) % B :: r.1, r.2)

/-- The multi-word subtractor: a borrow through every limb; the last component is the borrow out of the top limb, which is
the E_SUBNEG case (R141). -/
def subUnit (B : Nat) : List Nat → List Nat → Nat → List Nat × Nat
  | [], ys, c => borrowThrough B ys c
  | x :: xs, [], c =>
    let r := subUnit B xs [] (if x < c then 1 else 0)
    ((x + B - c) % B :: r.1, r.2)
  | x :: xs, y :: ys, c =>
    let r := subUnit B xs ys (if x < y + c then 1 else 0)
    ((x + B - (y + c)) % B :: r.1, r.2)

/-! ### Multiplier (R143) -/

/-- The inner loop over j: one limb `a` of the multiplicand against the limbs of b, into the accumulator from position i on. -/
def mulRow (B a : Nat) : List Nat → List Nat → Nat → List Nat
  | [], _, carry => [carry]
  | b :: bs, acc, carry =>
    (acc.headD 0 + a * b + carry) % B :: mulRow B a bs acc.tail ((acc.headD 0 + a * b + carry) / B)

/-- The outer loop over i: each row settles one limb of the accumulator. -/
def mulLoop (B : Nat) : List Nat → List Nat → List Nat → List Nat
  | [], _, acc => acc
  | a :: as, bs, acc =>
    let row := mulRow B a bs acc 0
    row.headD 0 :: mulLoop B as bs row.tail

/-- The schoolbook multiplier: `La + Lb` accumulator limbs, before clamping (R143, R144). -/
def mulUnit (B : Nat) (as bs : List Nat) : List Nat := mulLoop B as bs (List.replicate bs.length 0)

/-- The number a list of limbs stands for in base B, limb 0 first. -/
def natValue (B : Nat) : List Nat → Nat
  | [] => 0
  | x :: xs => x + B * natValue B xs

/-! ### Normalized long division (R153 to R155) -/

/-- The normalization shift `s = d mod W` (R153 step 1, R154). -/
def normShift (w v : Nat) : Nat := (w - bitlen v % w) % w

/-- The estimate-correction loop: `while qhat * d > t: qhat <- qhat - 1`, capped (R155).
No value once the cap is exceeded: the internal-error signal. -/
def correctEstimate (d t : Nat) : Nat → Nat → Option Nat
  | 0, q => if q * d > t then none else some q
  | cap + 1, q => if q * d > t then correctEstimate d t cap (q - 1) else some q

/-- The estimate of one quotient limb, corrected (R153 step 3): at most 2 corrections (R155). -/
def estimate (B n v u j : Nat) : Option Nat :=
  let q := min ((limbAt B u (j + n) * B + limbAt B u (j + n - 1)) / limbAt B v (n - 1)) (B - 1)
  if 2 ≤ n then
    correctEstimate (limbAt B v (n - 1) * B + limbAt B v (n - 2))
      (limbAt B u (j + n) * B ^ 2 + limbAt B u (j + n - 1) * B + limbAt B u (j + n - 2)) 2 q
  else some q

/-- Multiply and subtract in the window, with the add-back compensation (R153 step 3):
the quotient limb and the new working remainder. -/
def divStep (B n v u j : Nat) : Option (Nat × Nat) :=
  (estimate B n v u j).map fun q =>
    let window := u / B ^ j % B ^ (n + 1)
    if window < q * v then (q - 1, u - window * B ^ j + (window + v - q * v) * B ^ j)
    else (q, u - window * B ^ j + (window - q * v) * B ^ j)

/-- Quotient limbs j-1 down to 0 (R153 step 3): the quotient so far and the working remainder are the loop's scratch. -/
def divLoop (B n v : Nat) : Nat → Nat → Nat → Option (Nat × Nat)
  | 0, q, u => some (q, u)
  | j + 1, q, u =>
    match divStep B n v u j with
    | none => none
    | some (qj, u') => divLoop B n v j (q + qj * B ^ j) u'

/-- The engine of DIV and REM: quotient and remainder of u by v > 0, or none for E_INTERNAL (R153, R155).
Step 2's subtraction runs at most once (R153), so its loop is one test. -/
def divUnit (w u v : Nat) : Option (Nat × Nat) :=
  let B := 2 ^ w
  let n := clen w v
  let s := normShift w v
  let v' := v * 2 ^ s
  let u' := u * 2 ^ s
  if u' < v' then some (0, u)
  else
    let m := clen w u' - n
    let top := if v' ≤ u' / B ^ m then 1 else 0
    (divLoop B n v' m (top * B ^ m) (u' - top * v' * B ^ m)).map fun r => (r.1, r.2 / 2 ^ s)

/-! ### Binary GCD (R161) -/

/-- `while x even: x <- x/2`, for x other than 0. -/
def stripTwos : Nat → Nat → Nat
  | 0, x => x
  | fuel + 1, x => if x ≠ 0 ∧ x % 2 = 0 then stripTwos fuel (x / 2) else x

/-- The common factors of two, counted in k (`g = 2**k`). -/
def commonTwos : Nat → Nat → Nat → Nat → Nat × Nat × Nat
  | 0, x, y, k => (x, y, k)
  | fuel + 1, x, y, k => if x % 2 = 0 ∧ y % 2 = 0 then commonTwos fuel (x / 2) (y / 2) (k + 1) else (x, y, k)

/-- The main loop: strip twos from each, subtract the smaller from the larger and halve the difference. -/
def gcdLoop : Nat → Nat → Nat → Nat
  | 0, x, y => if x ≠ 0 then x else y
  | fuel + 1, x, y =>
    if x = 0 then y
    else if y = 0 then x
    else
      let x' := stripTwos (bitlen x) x
      let y' := stripTwos (bitlen y) y
      if x' ≥ y' then gcdLoop fuel ((x' - y') / 2) y' else gcdLoop fuel x' ((y' - x') / 2)

/-- The binary GCD pipeline with the spec's two guards (R161). -/
def gcdUnit (x y : Nat) : Nat :=
  if x = 0 then y
  else if y = 0 then x
  else
    let c := commonTwos (bitlen x) x y 0
    gcdLoop (bitlen c.1 + bitlen c.2.1) c.1 c.2.1 * 2 ^ c.2.2

/-! ### rho by Newton iteration (R163) -/

/-- One step: `x <- x * (2 - m0 * x) mod 2**W`. -/
def newtonStep (w m0 x : Nat) : Nat := x * ((2 + 2 ^ w - m0 * x % 2 ^ w) % 2 ^ w) % 2 ^ w

/-- The iterate after k steps, from the seed `(3 * m0) XOR 2` (R163, G3). -/
def newtonIter (w m0 : Nat) : Nat → Nat
  | 0 => ((3 * m0) ^^^ 2) % 2 ^ w
  | k + 1 => newtonStep w m0 (newtonIter w m0 k)

/-- The rho unit: four steps at both widths (R163). -/
def rhoUnit (w m : Nat) : Nat := (2 ^ w - newtonIter w (m % 2 ^ w) 4) % 2 ^ w

/-! ### Montgomery multiplier (R165) -/

/-- One limb of y at a time: accumulate, absorb the correcting multiple of m, discard the zero limb. -/
def redcLoop (B rho m x : Nat) : Nat → Nat → Nat → Nat
  | 0, _, acc => acc
  | k + 1, y, acc =>
    let u := (acc % B + y % B * (x % B)) * rho % B
    redcLoop B rho m x k (y / B) ((acc + y % B * x + u * m) / B)

/-- REDC of x and y below an odd m, with the final conditional subtraction (R165). -/
def redcUnit (w m x y : Nat) : Nat :=
  let acc := redcLoop (2 ^ w) (rhoUnit w m) m x (clen w m) y 0
  if acc ≥ m then acc - m else acc

/-! ### Square and multiply (R168, R169) -/

/-- The exponent bits k-1 down to 0, over a given product: square, and multiply where the bit is 1. -/
def squareMultiply (prod : Nat → Nat → Nat) (b e : Nat) : Nat → Nat → Nat
  | 0, acc => acc
  | k + 1, acc =>
    let sq := prod acc acc
    squareMultiply prod b e k (if bitAt e k = 1 then prod sq b else sq)

/-- The plain path: reduce modulo m after each squaring and multiplication (R169). -/
def plainPath (b e m : Nat) : Nat :=
  squareMultiply (fun x y => x * y % m) (b % m) e (bitlen e) (1 % m)

/-- The Montgomery path for an odd m: into Montgomery form, square and multiply by REDC, and out by REDC against 1 (R169). -/
def montPath (w b e m : Nat) : Nat :=
  let R := montRadix w m
  let b1 := redcUnit w m (b % m) (R ^ 2 % m)
  redcUnit w m (squareMultiply (redcUnit w m) b1 e (bitlen e) (R % m)) 1

/-- The exponentiation controller: the Montgomery path when m is odd, the plain path when it is even (R168). -/
def powmodUnit (w b e m : Nat) : Nat := if m % 2 = 1 then montPath w b e m else plainPath b e m

/-- POW's algorithm: the plain path without the reductions (R169). -/
def powUnit (b e : Nat) : Nat := squareMultiply (fun x y => x * y) b e (bitlen e) 1

end Sys2Proof.Machine
end

