-- ==== Sys2Proof/Safety.lean ====
section
/-! DEFINITION. The states a run stays in (what the rules say of every state after the first reset), and the shapes of a command's
effect, in the terms the claims use. -/

namespace Sys2Proof.Machine

/-- A big-number register as R20 describes it: `1 <= LEN <= MAX_LIMBS`, and MAX_LIMBS limbs of W bits. -/
abbrev BigReg.Legal (p : Params) (b : BigReg) : Prop :=
  1 ≤ b.len ∧ b.len ≤ p.maxLimbs ∧ b.limbs.length = p.maxLimbs ∧ ∀ l ∈ b.limbs, l.toNat < 2 ^ p.limbWidth.bits

/-- A clamped register: `LEN[r] = clen(val(r))` (R23). -/
abbrev State.Clamped (s : State) (r : Reg) : Prop := s.len r = clen s.W (s.val r)

/-- The invariant of the block: legal parameters and registers, port words of W bits, status bits as the lifecycle leaves them
(DONE and ERR clear while BUSY, R180), `LT = 1 and EQ = 1` never (R30), and E_INTERNAL never (R155). -/
abbrev State.Inv (s : State) : Prop :=
  s.params.Legal
    ∧ (∀ r : Reg, BigReg.Legal s.params s.regs[r])
    ∧ s.cmd.toNat < 2 ^ s.W ∧ s.arg.toNat < 2 ^ s.W ∧ s.res.toNat < 2 ^ s.W ∧ (s.rdata.getD 0).toNat < 2 ^ s.W
    ∧ (s.busy = true → s.done = false ∧ s.err = .none)
    ∧ ¬(s.flagLT = true ∧ s.flagEQ = true)
    ∧ s.err ≠ .internal

/-! ### What a completion leaves (R15, R181, R182) -/

/-- A successful completion and its frame: ERR = 0, DONE = 1, BUSY = 0 (R181), and nothing changed that no command writes:
ARG, CMD, CTRL, LOST, WERR, the parameters, and the model's own fields (R15, R35, R74). -/
structure Succeeds (s t : State) : Prop where
  err     : t.err = .none
  done    : t.done = true
  busy    : t.busy = false
  params  : t.params = s.params
  ie      : t.ie = s.ie
  lost    : t.lost = s.lost
  werr    : t.werr = s.werr
  cmd     : t.cmd = s.cmd
  arg     : t.arg = s.arg
  scratch : t.scratch = s.scratch
  inputs  : t.inputs = s.inputs
  rdata   : t.rdata = s.rdata
  draws   : t.draws = s.draws

/-- An error completion: STATUS.ERR, DONE and BUSY change, and nothing else (R182). -/
def FailsWith (s t : State) (code : ErrCode) : Prop :=
  t = { s with err := code, done := true, busy := false }

/-- `WriteB(d, v)` landed: LEN, the value, every limb, and every other register untouched (R24, R26). -/
structure Holds (s t : State) (d : Reg) (v : Nat) : Prop where
  len    : t.len d = clen s.W v
  value  : t.val d = v
  limbs  : ∀ i, i < s.maxLimbs → (t.limb d i).toNat = v / 2 ^ (s.W * i) % 2 ^ s.W
  count  : t.regs[d].limbs.length = s.maxLimbs
  others : ∀ r : Reg, r ≠ d → t.regs[r] = s.regs[r]

/-- A command that writes v to Bd and Z, and nothing else (R29: LT and EQ unchanged; R36: RES unchanged). -/
structure WritesResult (s t : State) (d : Reg) (v : Nat) : Prop where
  succeeds : Succeeds s t
  dest     : Holds s t d v
  flagZ    : t.flagZ = decide (v = 0)
  flagLT   : t.flagLT = s.flagLT
  flagEQ   : t.flagEQ = s.flagEQ
  res      : t.res = s.res

/-- A command that writes v to RES, and nothing else (R29: the flags unchanged). -/
structure WritesRes (s t : State) (v : Nat) : Prop where
  succeeds : Succeeds s t
  regs     : t.regs = s.regs
  flagZ    : t.flagZ = s.flagZ
  flagLT   : t.flagLT = s.flagLT
  flagEQ   : t.flagEQ = s.flagEQ
  res      : t.res.toNat = v

/-- The command word as R81 writes it: `OPC<<26 | RD<<22 | RS1<<18 | RS2<<14 | RS3<<10 | V`. -/
def commandWord (opc : Nat) (rd rs1 rs2 rs3 : Reg) (v : Bool) : CmdWord :=
  BitVec.ofNat 32 opc <<< 26 ||| BitVec.ofNat 32 rd.val <<< 22 ||| BitVec.ofNat 32 rs1.val <<< 18
    ||| BitVec.ofNat 32 rs2.val <<< 14 ||| BitVec.ofNat 32 rs3.val <<< 10 ||| BitVec.ofNat 32 v.toNat

/-- The errors each command may report besides E_ILLEGAL (R183). -/
def errorsOf : Instr → List ErrCode
  | .nop => []
  | .mov _ _ => []
  | .clamp _ => []
  | .grow _ => [.capacity]
  | .bitlen _ => []
  | .bytelen _ => []
  | .getbit _ => [.range]
  | .setbit _ _ => [.range]
  | .cmp _ _ => []
  | .shl _ _ => [.capacity]
  | .shr _ _ => []
  | .addw _ _ => [.capacity]
  | .subw _ _ => [.subNeg]
  | .mulw _ _ => [.capacity]
  | .add _ _ _ => [.capacity]
  | .sub _ _ _ => [.subNeg]
  | .mul _ _ _ => [.capacity]
  | .div _ _ _ => [.divZero]
  | .rem _ _ _ => [.divZero]
  | .gcd _ _ _ => []
  | .mrho _ => [.evenMod]
  | .montmul _ _ _ _ => [.evenMod, .operand]
  | .pow _ _ _ => [.capacity]
  | .powmod _ _ _ _ => [.divZero]

/-- The commands that write RES (R36). -/
def writesRes : Instr → Bool
  | .bitlen _ | .bytelen _ | .getbit _ | .mulw _ _ | .mrho _ => true
  | .nop | .mov _ _ | .clamp _ | .grow _ | .setbit _ _ | .cmp _ _ | .shl _ _ | .shr _ _ | .addw _ _ | .subw _ _
  | .add _ _ _ | .sub _ _ _ | .mul _ _ _ | .div _ _ _ | .rem _ _ _ | .gcd _ _ _ | .montmul _ _ _ _ | .pow _ _ _
  | .powmod _ _ _ _ => false

/-- The events that reset the block (R200, R201): the reset input, and a write of CTRL (index 0x00001) with bit 1 set, at the port
or at its byte address, where bit 1 is in the byte of the lowest address (R62). -/
def resetsBlock (p : Params) : HostEvent → Bool
  | .write k v => k == 0x00001 && v.getLsbD 1
  | .busWrite addr bytes =>
    addr == p.baseAddr + 1 * p.wordBytes && bytes.length == p.wordBytes && (bytes.getD 0 0).getLsbD 1
  | .hardReset => true
  | .read _ | .busRead _ _ | .pause => false

/-- A byte-bus access of exactly W bits at the byte address of a word index (R62, R63, R65). -/
def busLegal (p : Params) (addr size : Nat) : Bool :=
  size == p.wordBytes && decide (p.baseAddr ≤ addr) && (addr - p.baseAddr) % p.wordBytes == 0
    && decide ((addr - p.baseAddr) / p.wordBytes < 2 ^ 17)

/-- The events that leave a command in flight: any port or legal byte-bus access that is no reset, and a turn left to the
engine. -/
def keepsCommand (p : Params) (e : HostEvent) : Bool :=
  !resetsBlock p e &&
    match e with
    | .busRead addr size => busLegal p addr size
    | .busWrite addr bytes => busLegal p addr bytes.length
    | .read _ | .write _ _ | .pause | .hardReset => true

/-- A host loading limbs into register r from position i on (R61 step 1). -/
def loadLimbs (r : Reg) : Nat → List Word → State → State
  | _, [], s => s
  | i, l :: ls, s => loadLimbs r (i + 1) ls (portWrite (PortReg.limb r i).index l s)

end Sys2Proof.Machine
end

