-- ==== Sys2Proof/Certificates/Slice0/Obligations.lean ====
section
/-! DEFINITION. The statements for the provers.
Every statement about a command is about every state that meets the invariant of Safety.lean, at both limb widths and every legal
MAX_LIMBS, and about every operand the encoding admits. -/

open Sys2Proof Sys2Proof.Machine

/-! ## Encoding -/

/-- Decode and encode agree, for the whole command set: decoding the word of a well-formed command gives it back, at the 32-bit
decoder and in CMD at both widths (R80 to R85). -/
def Obligations.DecodeEncodeRoundTrip : Prop :=
  ∀ i : Instr, i.wellFormed = true →
    decode (encode i) = some i ∧ ∀ lw : LimbWidth, decodeCmd lw ((encode i).setWidth 64) = some i

/-- No bit of a legal word is ignored: a word that decodes is the word of what it decodes to (R84, R86). -/
def Obligations.DecodedWordIsTheOnlyEncoding : Prop :=
  ∀ (w : CmdWord) (i : Instr), decode w = some i → encode i = w

/-- R85: a word decodes to a row of the map exactly when `word & mask = match`, with match = OPC << 26. -/
def Obligations.MaskAndMatchSelectTheRow : Prop :=
  ∀ (w : CmdWord) (op : Opcode),
    op.matchWord = BitVec.ofNat 32 op.code.val <<< 26
      ∧ ((w &&& op.format.mask = op.matchWord) ↔ ∃ i, decode w = some i ∧ i.opcode = op)

/-- R81: the command word by its formula, and every field of a word read back from the bit positions the rule gives. -/
def Obligations.CommandWordFormula : Prop :=
  ∀ (f : Fields),
    (f.rsv = 0 → f.toWord = commandWord f.opc.val f.rd f.rs1 f.rs2 f.rs3 f.v)
      ∧ Fields.ofWord f.toWord = f
      ∧ ∀ w : CmdWord,
          (Fields.ofWord w).opc.val = (w.extractLsb 31 26).toNat ∧ (Fields.ofWord w).rd.val = (w.extractLsb 25 22).toNat
          ∧ (Fields.ofWord w).rs1.val = (w.extractLsb 21 18).toNat ∧ (Fields.ofWord w).rs2.val = (w.extractLsb 17 14).toNat
          ∧ (Fields.ofWord w).rs3.val = (w.extractLsb 13 10).toNat ∧ (Fields.ofWord w).rsv.val = (w.extractLsb 9 1).toNat
          ∧ (Fields.ofWord w).v = w.getLsbD 0

/-- R86: a word with bits above 31 at W = 64, with a reserved opcode, or with a mask mismatch on an opcode of the map is illegal,
and no other word is; every word is accepted with ERR 0, and an illegal one completes with E_ILLEGAL and no other effect. -/
def Obligations.IllegalWordsCompleteWithEIllegal : Prop :=
  ∀ (s : State), s.Inv → ∀ c : Word, c.toNat < 2 ^ s.W →
    let w : CmdWord := c.setWidth 32
    let opc := (w.extractLsb 31 26).toNat
    let illegal : Prop :=
      (s.W = 64 ∧ c.extractLsb 63 32 ≠ 0)
        ∨ opc ∈ [0x0E, 0x0F] ∨ (0x13 ≤ opc ∧ opc ≤ 0x17) ∨ (0x1A ≤ opc ∧ opc ≤ 0x1F) ∨ (0x25 ≤ opc ∧ opc ≤ 0x3F)
        ∨ ∃ op : Opcode, op.code.val = opc ∧ w &&& op.format.mask ≠ op.matchWord
    (illegal ↔ decodeCmd s.params.limbWidth c = none)
      ∧ (s.busy = false →
          (portWrite PortReg.cmd.index c s).busy = true ∧ (portWrite PortReg.cmd.index c s).err = .none
            ∧ (portWrite PortReg.cmd.index c s).cmd = c)
      ∧ (s.busy = true → s.cmd = c → illegal → ∃ t, engineTurn s = .next t ∧ FailsWith s t .illegal)

/-- The decoder reads words of the spec's encoding vectors (95_test_vectors.md section 2) as the commands they stand for. -/
def Obligations.SpecWordsDecode : Prop :=
  decode 0x04840000 = some (.mov 2 1) ∧ decode 0x1C400001 = some (.setbit 1 true) ∧ decode 0x20048000 = some (.cmp 1 2)
    ∧ decode 0x40C48000 = some (.add 3 1 2) ∧ decode 0x60C48000 = some (.div 3 1 2)
    ∧ decode 0x84000C00 = some (.mrho 3) ∧ decode 0x93FB7000 = some (.powmod 15 14 13 12)
    ∧ decode 0x40C48002 = none ∧ decode 0x38000000 = none

/-! ## Lifecycle -/

/-- A step runs the decoded command: with a command in flight whose word decodes to i, and the turn the engine's (no host access
left, or a pause first), the step is exec of i; any other first event of the host is taken instead (R70, R181). -/
def Obligations.StepRunsTheDecodedCommand : Prop :=
  ∀ (s : State) (i : Instr), s.busy = true → decodeCmd s.params.limbWidth s.cmd = some i →
    (s.inputs = [] → step s = exec i s)
      ∧ (∀ rest, s.inputs = .pause :: rest → step s = exec i { s with inputs := rest })
      ∧ (∀ e rest, s.inputs = e :: rest → e ≠ .pause → step s = turn e { s with inputs := rest })

/-- R180: a CMD write while BUSY = 0 is accepted in that step, taking the full W-bit word, raising BUSY and clearing DONE and ERR;
while BUSY = 1 it changes nothing but LOST.
A read of CMD returns the full word of the last accepted command: the word just written in the one case, the one before in the
other (R34).
The engine's hidden scratch and the count of free values are the model's own and stand outside the rule. -/
def Obligations.CmdWriteIsAcceptedOrLost : Prop :=
  ∀ (s : State) (c : Word), c.toNat < 2 ^ s.W →
    let t := portWrite 0x00003 c s
    (s.busy = false →
        (∃ x n, t = { s with cmd := c, busy := true, done := false, err := .none, scratch := x, draws := n })
          ∧ (portRead 0x00003 t).rdata = some c)
      ∧ (s.busy = true → t = { s with lost := true } ∧ (portRead 0x00003 t).rdata = some s.cmd)
      ∧ (portRead 0x00003 s).rdata = some s.cmd

/-- Every command completes, with an error or without: exec always answers a next state with DONE = 1 and BUSY = 0 (R181). -/
def Obligations.EveryCommandCompletes : Prop :=
  ∀ (i : Instr) (s : State), ∃ t, exec i s = .next t ∧ t.done = true ∧ t.busy = false

/-- R182: an error completion changes STATUS.ERR, DONE and BUSY, and nothing else. -/
def Obligations.ErrorCompletionIsPrecise : Prop :=
  ∀ (s t : State), s.busy = true → engineTurn s = .next t → t.err ≠ .none → FailsWith s t t.err

/-- R183 for the commands: each may report only the errors listed against it, and E_INTERNAL is never produced. -/
def Obligations.ErrorsAreTheListedOnes : Prop :=
  ∀ (i : Instr) (s t : State), exec i s = .next t → (t.err = .none ∨ t.err ∈ errorsOf i) ∧ t.err ≠ .internal

/-- R26: a command writes only its destination register, and no command writes two big-number registers; and it leaves all else
that no command writes (R15). -/
def Obligations.OnlyTheDestinationRegisterChanges : Prop :=
  ∀ (i : Instr) (s t : State), exec i s = .next t →
    (∀ r : Reg, i.dest? ≠ some r → t.regs[r] = s.regs[r])
      ∧ t.params = s.params ∧ t.ie = s.ie ∧ t.lost = s.lost ∧ t.werr = s.werr ∧ t.cmd = s.cmd ∧ t.arg = s.arg
      ∧ t.inputs = s.inputs ∧ t.rdata = s.rdata

/-- R29 and R30: Z is the zero test of the value written by a command with a destination, LT and EQ change only by CMP, and an
error completion leaves all of FLAGS unchanged.
At the port, FLAGS (index 0x00006) reads Z in bit 0, LT in bit 1, EQ in bit 2 and 0 above while BUSY = 0, and host writes to it are
ignored (R28). -/
def Obligations.FlagsFollowTheirRules : Prop :=
  (∀ (i : Instr) (s t : State), s.Inv → exec i s = .next t →
    (t.err ≠ .none → t.flagZ = s.flagZ ∧ t.flagLT = s.flagLT ∧ t.flagEQ = s.flagEQ)
      ∧ (t.err = .none → ∀ d, i.dest? = some d → t.flagZ = decide (t.val d = 0))
      ∧ (i.dest? = none → t.flagZ = s.flagZ)
      ∧ (∀ a b, i = .cmp a b → t.flagLT = decide (s.val a < s.val b) ∧ t.flagEQ = decide (s.val a = s.val b))
      ∧ ((∀ a b, i ≠ .cmp a b) → t.flagLT = s.flagLT ∧ t.flagEQ = s.flagEQ)
      ∧ ¬(t.flagLT = true ∧ t.flagEQ = true))
    ∧ (∀ s : State, s.busy = false →
        ∃ v : Word, (portRead 0x00006 s).rdata = some v ∧ v.getLsbD 0 = s.flagZ ∧ v.getLsbD 1 = s.flagLT ∧ v.getLsbD 2 = s.flagEQ
          ∧ (v.extractLsb 63 3).toNat = 0)
    ∧ ∀ (s : State) (v : Word), portWrite 0x00006 v s = s

/-- R36: RES is read-only at the port, 0 at reset, changed only by BITLEN, BYTELEN, GETBIT, MULW and MRHO, and by no error
completion. -/
def Obligations.ResChangesOnlyByItsCommands : Prop :=
  State.reset.res = 0
    ∧ (∀ (s : State) (v : Word), portWrite 0x00005 v s = s)
    ∧ (∀ s : State, s.busy = false → (portRead 0x00005 s).rdata = some s.res)
    ∧ ∀ (i : Instr) (s t : State), exec i s = .next t → (writesRes i = false ∨ t.err ≠ .none) → t.res = s.res

/-! ## Invariants -/

/-- The invariant holds at reset, for every block with legal parameters and for the default one (R43). -/
def Obligations.ResetMeetsTheInvariant : Prop :=
  State.reset.Inv ∧ ∀ p : Params, p.Legal → (State.resetOf p).Inv

/-- Every step keeps the invariant: registers keep `1 <= LEN <= MAX_LIMBS` and W-bit limbs, the port registers keep W bits, the
status bits stay as the lifecycle leaves them, LT and EQ are never both 1, and E_INTERNAL never appears. -/
def Obligations.StepKeepsTheInvariant : Prop :=
  ∀ s t : State, s.Inv → step s = .next t → t.Inv

/-- R31: ID reads VERSION, LIMBW and MAXL in their fields at all times, host writes to it are ignored, and no step changes it. -/
def Obligations.IdIsConstant : Prop :=
  (∀ s : State, s.Inv →
    ∃ v : Word, (portRead 0x00000 s).rdata = some v ∧ (v.extractLsb 7 0).toNat = 1 ∧ (v.extractLsb 15 8).toNat = s.W
      ∧ (v.extractLsb 31 16).toNat = s.maxLimbs ∧ (v.extractLsb 63 32).toNat = 0)
    ∧ (∀ (s : State) (v : Word), portWrite 0x00000 v s = s)
    ∧ (∀ s t : State, step s = .next t → t.idWord = s.idWord)
    ∧ State.reset.idWord = 0x0000000000404001

/-- R19 for results: a command that completes without error leaves its destination clamped, GROW alone excepted. -/
def Obligations.ResultsAreClamped : Prop :=
  ∀ (i : Instr) (s t : State) (d : Reg), s.Inv → exec i s = .next t → t.err = .none → i.dest? = some d →
    (∀ d', i ≠ .grow d') → t.Clamped d

/-- R19 for operands: a register is read by its numeric value, so two states whose registers hold the same numbers, however
clamped, give the same error, RES, flags and destination, apart from the range checks of GETBIT and SETBIT and from GROW's LEN. -/
def Obligations.UnclampedOperandsReadByValue : Prop :=
  ∀ (i : Instr) (s s' t t' : State), s.Inv → s'.Inv → s'.params = s.params → s'.arg = s.arg → s'.res = s.res →
    s'.flagZ = s.flagZ → s'.flagLT = s.flagLT → s'.flagEQ = s.flagEQ → (∀ r, s'.val r = s.val r) →
    (∀ a, i ≠ .getbit a) → (∀ d v, i ≠ .setbit d v) → (∀ d, i ≠ .grow d) →
    exec i s = .next t → exec i s' = .next t' →
    t'.err = t.err ∧ t'.res = t.res ∧ t'.flagZ = t.flagZ ∧ t'.flagLT = t.flagLT ∧ t'.flagEQ = t.flagEQ
      ∧ (∀ r, t'.val r = t.val r) ∧ (∀ d, i.dest? = some d → t.err = .none → t'.regs[d] = t.regs[d])

/-- The units' scratch never changes a result: two states that differ only in it complete alike (R40). -/
def Obligations.ScratchHasNoEffect : Prop :=
  ∀ (i : Instr) (s t : State) (x : Option Scratch), exec i s = .next t → exec i { s with scratch := x } = .next { t with scratch := x }

/-! ## The host port -/

/-- R39: the complete address map; a read of a reserved index returns 0, and a write to one changes nothing. -/
def Obligations.PortMapIsComplete : Prop :=
  ∀ s : State, s.Inv →
    (∀ k : PortIndex,
      (k = 0x00000 → portReg s.maxLimbs k = .id) ∧ (k = 0x00001 → portReg s.maxLimbs k = .ctrl)
      ∧ (k = 0x00002 → portReg s.maxLimbs k = .status) ∧ (k = 0x00003 → portReg s.maxLimbs k = .cmd)
      ∧ (k = 0x00004 → portReg s.maxLimbs k = .arg) ∧ (k = 0x00005 → portReg s.maxLimbs k = .res)
      ∧ (k = 0x00006 → portReg s.maxLimbs k = .flags)
      ∧ (0x00007 ≤ k.toNat ∧ k.toNat ≤ 0x0000F → portReg s.maxLimbs k = .reserved)
      ∧ (∀ r : Reg, k.toNat = 0x00010 + r.val → portReg s.maxLimbs k = .len r)
      ∧ (0x00020 ≤ k.toNat ∧ k.toNat ≤ 0x0FFFF → portReg s.maxLimbs k = .reserved)
      ∧ (∀ (r : Reg) (i : Nat), i < 0x1000 → k.toNat = 0x10000 + r.val * 0x1000 + i →
          portReg s.maxLimbs k = if i < s.maxLimbs then .limb r i else .reserved)
      ∧ (portReg s.maxLimbs k = .reserved → (portRead k s).rdata = some 0 ∧ ∀ v, portWrite k v s = s))

/-- R67 and R206: a read has no side effect on the block; the data is exact, except that LEN, LIMB, RES and FLAGS read as any
W-bit value while BUSY = 1. -/
def Obligations.ReadsAreExactUnlessBusy : Prop :=
  ∀ (s : State) (k : PortIndex), s.Inv →
    (∃ v n, v.toNat < 2 ^ s.W ∧ portRead k s = { s with rdata := some v, draws := n })
      ∧ (s.busy = false ∨ portReg s.maxLimbs k ∈ [.id, .ctrl, .status, .cmd, .arg, .reserved] →
          portRead k s = { s with rdata := some (s.readReg (portReg s.maxLimbs k)) })

/-- R67: reading an index twice while BUSY = 0 gives the same word, and writing any index but CMD, CTRL and STATUS twice leaves the
state that writing it once leaves. -/
def Obligations.RepeatedAccessesAgree : Prop :=
  ∀ (s : State) (k : PortIndex) (v : Word),
    (s.busy = false → portRead k (portRead k s) = portRead k s)
      ∧ (portReg s.maxLimbs k ∉ [.cmd, .ctrl, .status] → portWrite k v (portWrite k v s) = portWrite k v s)

/-- R33: STATUS reads its fields in their places; a write clears DONE, LOST and WERR where it has a 1, leaves them where it has a
0, and changes nothing else, whether BUSY or not.
The codes ERR reads are those of R183. -/
def Obligations.StatusFieldsAndWriteOneToClear : Prop :=
  (ErrCode.none.code = 0 ∧ ErrCode.illegal.code = 1 ∧ ErrCode.divZero.code = 2 ∧ ErrCode.evenMod.code = 3 ∧ ErrCode.operand.code = 4
    ∧ ErrCode.subNeg.code = 5 ∧ ErrCode.range.code = 6 ∧ ErrCode.capacity.code = 7 ∧ ErrCode.internal.code = 8)
  ∧ ∀ s : State, s.Inv →
    (∃ v : Word, (portRead 0x00002 s).rdata = some v ∧ v.getLsbD 0 = s.busy ∧ v.getLsbD 1 = s.done
      ∧ (v.extractLsb 3 2).toNat = 0 ∧ (v.extractLsb 7 4).toNat = s.err.code ∧ v.getLsbD 8 = s.lost ∧ v.getLsbD 9 = s.werr
      ∧ (v.extractLsb 63 10).toNat = 0)
    ∧ ∀ v : Word, portWrite 0x00002 v s =
        { s with done := s.done && !v.getLsbD 1, lost := s.lost && !v.getLsbD 8, werr := s.werr && !v.getLsbD 9 }

/-- R35, R37, R38: writes of ARG, LEN and LIMB while BUSY = 0 store the word (a LEN of 0 or above MAX_LIMBS is dropped and sets
WERR), each reads back, and while BUSY = 1 each is dropped and sets WERR. -/
def Obligations.OperandWritesStoreOrDrop : Prop :=
  ∀ (s : State) (v : Word) (r : Reg) (i : Nat), s.Inv → v.toNat < 2 ^ s.W → i < s.maxLimbs →
    (s.busy = false →
        ∃ t, portWrite PortReg.arg.index v s = t ∧ t = { s with arg := v } ∧ (portRead PortReg.arg.index t).rdata = some v)
      ∧ (s.busy = false → 1 ≤ v.toNat → v.toNat ≤ s.maxLimbs →
          ∃ t, portWrite (PortReg.len r).index v s = t ∧ t = s.setReg r { s.regs[r] with len := v.toNat }
            ∧ (portRead (PortReg.len r).index t).rdata = some v)
      ∧ (v.toNat = 0 ∨ s.maxLimbs < v.toNat → portWrite (PortReg.len r).index v s = { s with werr := true })
      ∧ (s.busy = false →
          ∃ t, portWrite (PortReg.limb r i).index v s = t ∧ t.limb r i = v ∧ t.len r = s.len r
            ∧ (∀ j, j ≠ i → t.limb r j = s.limb r j) ∧ (∀ r' : Reg, r' ≠ r → t.regs[r'] = s.regs[r'])
            ∧ t = { s with regs := t.regs } ∧ (portRead (PortReg.limb r i).index t).rdata = some v)
      ∧ (s.busy = true → ∀ p ∈ [PortReg.arg, .len r, .limb r i], portWrite p.index v s = { s with werr := true })

/-- R27 and R205: while a command is in flight, no host access but a reset changes a register, a LEN, ARG or CMD, so the operands
at accept are the operands at completion; the resets are the reset input and a CTRL write with bit 1 set, at the port or on the
byte bus. -/
def Obligations.OperandsStandWhileBusy : Prop :=
  ∀ (s t : State) (e : HostEvent), s.busy = true → e ≠ .pause → turn e s = .next t →
    (resetsBlock s.params e = true → t = s.toReset)
      ∧ (resetsBlock s.params e = false →
          t.regs = s.regs ∧ t.arg = s.arg ∧ t.cmd = s.cmd ∧ t.busy = true ∧ t.operandValues = s.operandValues)

/-- R43, R200, R201: the reset input and a CTRL write with SRST = 1 take every piece of state to its reset value, from any
state, and abandon a command in flight; a CTRL write with SRST = 0 stores IE and nothing else.
CTRL reads IE in bit 0, and 0 in SRST and the reserved bits (R32). -/
def Obligations.ResetPutsEveryStateToItsValue : Prop :=
  ∀ (s : State) (v : Word),
    (∃ t, turn .hardReset s = .next t
      ∧ (∀ r : Reg, t.len r = 1 ∧ t.val r = 0 ∧ t.Clamped r ∧ t.regs[r].limbs = List.replicate s.maxLimbs 0)
      ∧ t.ie = false ∧ t.busy = false ∧ t.done = false ∧ t.err = .none ∧ t.lost = false ∧ t.werr = false
      ∧ t.cmd = 0 ∧ t.arg = 0 ∧ t.res = 0 ∧ t.flagZ = false ∧ t.flagLT = false ∧ t.flagEQ = false
      ∧ t.scratch = none ∧ t.irq = false ∧ t.idWord = s.idWord
      ∧ (v.getLsbD 1 = true → turn (.write 0x00001 v) s = .next t))
    ∧ (v.getLsbD 1 = false → turn (.write 0x00001 v) s = .next { s with ie := v.getLsbD 0 })
    ∧ ∃ c : Word, (portRead 0x00001 s).rdata = some c ∧ c.getLsbD 0 = s.ie ∧ (c.extractLsb 63 1).toNat = 0

/-- R186: IRQ is IE and DONE; a completion with IE = 1 raises it, and acknowledging DONE, accepting a command, clearing IE and
reset lower it, while LOST and WERR have no part in it. -/
def Obligations.IrqIsIeAndDone : Prop :=
  (∀ s : State, s.irq = (s.ie && s.done))
    ∧ (∀ (i : Instr) (s t : State), exec i s = .next t → t.irq = s.ie)
    ∧ (∀ (s : State) (v : Word), v.getLsbD 1 = true → (portWrite 0x00002 v s).irq = false)
    ∧ (∀ (s : State) (v : Word), v.getLsbD 1 = false → (portWrite 0x00002 v s).irq = s.irq)
    ∧ (∀ (s : State) (c : Word), s.busy = false → (portWrite 0x00003 c s).irq = false)
    ∧ (∀ (s : State) (v : Word), v.getLsbD 0 = false → (portWrite 0x00001 v s).irq = false)
    ∧ (∀ s t : State, turn .hardReset s = .next t → t.irq = false)

/-- R62, R63, R65: on a byte-addressed bus, word index k is at `BASE_ADDR + k * (W/8)` with byte j of the word in lane j,
on a write and on a read; any other size and any other address is refused. -/
def Obligations.ByteBusUsesLittleEndianLanes : Prop :=
  ∀ s : State, s.Inv →
    let n := s.W / 8
    (∀ (k : PortIndex) (v : Word), v.toNat < 2 ^ s.W →
      (lanes n v).length = n ∧ (∀ j, j < n → ((lanes n v).getD j 0).toNat = v.toNat / 2 ^ (8 * j) % 2 ^ 8)
        ∧ turn (.busWrite (s.params.baseAddr + k.toNat * n) (lanes n v)) s = .next (portWrite k v s)
        ∧ turn (.busRead (s.params.baseAddr + k.toNat * n) n) s = .next (portRead k s)
        ∧ ∃ d bytes, (portRead k s).rdata = some d ∧ (portRead k s).readLanes = some bytes ∧ bytes.length = n
            ∧ ∀ j, j < n → (bytes.getD j 0).toNat = d.toNat / 2 ^ (8 * j) % 2 ^ 8)
    ∧ (∀ addr size, size ≠ n → turn (.busRead addr size) s = .refused .busWidth)
    ∧ (∀ addr (bytes : List Byte), bytes.length ≠ n → turn (.busWrite addr bytes) s = .refused .busWidth)
    ∧ (∀ addr, (∀ k : PortIndex, addr ≠ s.params.baseAddr + k.toNat * n) →
        turn (.busRead addr n) s = .refused .busAlignment
          ∧ ∀ bytes : List Byte, bytes.length = n → turn (.busWrite addr bytes) s = .refused .busAlignment)

/-- R61: a host that writes n limbs from limb 0 on and then LEN = n has loaded the number they stand for. -/
def Obligations.LoadedLimbsAreTheValue : Prop :=
  ∀ (s : State) (r : Reg) (ls : List Word), s.Inv → s.busy = false → 1 ≤ ls.length → ls.length ≤ s.maxLimbs →
    (∀ l ∈ ls, l.toNat < 2 ^ s.W) →
    let t := portWrite (PortReg.len r).index (BitVec.ofNat 64 ls.length) (loadLimbs r 0 ls s)
    let t' := loadLimbs r 0 ls (portWrite (PortReg.len r).index (BitVec.ofNat 64 ls.length) s)
    t.val r = ∑ i ∈ Finset.range ls.length, (ls.getD i 0).toNat * 2 ^ (s.W * i)
      ∧ t' = t ∧ t.len r = ls.length ∧ t.werr = s.werr ∧ ∀ r' : Reg, r' ≠ r → t.regs[r'] = s.regs[r']

/-- R210: an accepted command completes after finitely many steps, whatever port accesses, byte-bus accesses of a legal size
and address and pauses the host still makes, unless a reset comes first. -/
def Obligations.AcceptedCommandCompletesUnlessReset : Prop :=
  ∀ s : State, s.busy = true → (∀ e ∈ s.inputs, keepsCommand s.params e = true) →
    ∃ k t, k ≤ s.inputs.length ∧ Host.Core.run core k s = .next t ∧ t.busy = true ∧ t.cmd = s.cmd ∧ t.regs = s.regs ∧ t.arg = s.arg
      ∧ ∃ t', step t = .next t' ∧ t'.busy = false ∧ t'.done = true

/-- R185: a CMD write racing a completion is dropped with LOST before it and accepted after it, a STATUS read sees BUSY = 1 before
and the completed state after, and a soft reset gives the same state in both orders. -/
def Obligations.RacesAdmitBothOrders : Prop :=
  ∀ (s : State) (c : Word), s.busy = true →
    ∃ t, engineTurn s = .next t
      ∧ portWrite 0x00003 c s = { s with lost := true } ∧ (portWrite 0x00003 c t).busy = true
      ∧ (∃ v, (portRead 0x00002 s).rdata = some v ∧ v.getLsbD 0 = true)
      ∧ (∃ v, (portRead 0x00002 t).rdata = some v ∧ v.getLsbD 0 = false ∧ v.getLsbD 1 = true)
      ∧ (c.getLsbD 1 = true → portWrite 0x00001 c t = portWrite 0x00001 c s)

/-! ## Magnitude commands -/

/-- R100: the only legal NOP word is 0; it completes with ERR 0, and STATUS apart nothing changes. -/
def Obligations.NopOnlyCompletes : Prop :=
  (∀ w : CmdWord, decode w = some .nop ↔ w = 0)
    ∧ ∀ s : State, exec .nop s = .next { s with err := .none, done := true, busy := false }

/-- R101 and R102: MOV copies the value clamped, CLAMP clamps in place, and `MOV Bd, Bd` is `CLAMP Bd`; neither can fail. -/
def Obligations.MovAndClampWriteTheValue : Prop :=
  ∀ (s : State) (d a : Reg), s.Inv →
    decode (commandWord 0x01 d a 0 0 false) = some (.mov d a) ∧ decode (commandWord 0x02 d 0 0 0 false) = some (.clamp d)
      ∧ (∃ t, exec (.mov d a) s = .next t ∧ WritesResult s t d (s.val a))
      ∧ (∃ t, exec (.clamp d) s = .next t ∧ WritesResult s t d (s.val d))
      ∧ exec (.mov d d) s = exec (.clamp d) s

/-- R103: GROW raises LEN to ARG with zero limbs and keeps the value and the limbs at or above ARG; no more than LEN changes
nothing but Z; above MAX_LIMBS it is E_CAPACITY. -/
def Obligations.GrowRaisesLenAndKeepsTheValue : Prop :=
  ∀ (s : State) (d : Reg), s.Inv →
    decode (commandWord 0x03 d 0 0 0 false) = some (.grow d)
      ∧ (s.arg.toNat ≤ s.maxLimbs →
          ∃ t, exec (.grow d) s = .next t ∧ Succeeds s t ∧ t.len d = max (s.len d) s.arg.toNat ∧ t.val d = s.val d
            ∧ (∀ i, i < s.maxLimbs → t.limb d i = if s.len d ≤ i ∧ i < s.arg.toNat then 0 else s.limb d i)
            ∧ t.regs[d].limbs.length = s.maxLimbs
            ∧ (∀ r : Reg, r ≠ d → t.regs[r] = s.regs[r])
            ∧ t.flagZ = decide (s.val d = 0) ∧ t.flagLT = s.flagLT ∧ t.flagEQ = s.flagEQ ∧ t.res = s.res)
      ∧ (s.maxLimbs < s.arg.toNat → ∃ t, exec (.grow d) s = .next t ∧ FailsWith s t .capacity)

/-- R104 and R105: BITLEN gives the least k with `val < 2**k`, at most W * MAX_LIMBS, and BYTELEN the least number of bytes,
at least 1, that holds the value; neither can fail. -/
def Obligations.BitlenAndBytelenMeasureTheValue : Prop :=
  ∀ (s : State) (a : Reg), s.Inv →
    decode (commandWord 0x04 0 a 0 0 false) = some (.bitlen a) ∧ decode (commandWord 0x05 0 a 0 0 false) = some (.bytelen a)
      ∧ (∃ t k, exec (.bitlen a) s = .next t ∧ WritesRes s t k ∧ k ≤ s.W * s.maxLimbs ∧ ∀ j, k ≤ j ↔ s.val a < 2 ^ j)
      ∧ (∃ t k, exec (.bytelen a) s = .next t ∧ WritesRes s t k ∧ 1 ≤ k ∧ ∀ j, 1 ≤ j → (k ≤ j ↔ s.val a < 2 ^ (8 * j)))

/-- R106: GETBIT puts bit ARG of the value in RES; at or beyond W * LEN it is E_RANGE. -/
def Obligations.GetbitReadsTheBitInRange : Prop :=
  ∀ (s : State) (a : Reg), s.Inv →
    decode (commandWord 0x06 0 a 0 0 false) = some (.getbit a)
      ∧ (s.arg.toNat < s.W * s.len a →
          ∃ t, exec (.getbit a) s = .next t ∧ WritesRes s t (s.val a / 2 ^ s.arg.toNat % 2))
      ∧ (s.W * s.len a ≤ s.arg.toNat → ∃ t, exec (.getbit a) s = .next t ∧ FailsWith s t .range)

/-- R107: SETBIT makes bit ARG of the value equal to V, every other bit unchanged, and clamps; at or beyond W * LEN it is E_RANGE. -/
def Obligations.SetbitMakesTheBitV : Prop :=
  ∀ (s : State) (d : Reg) (v : Bool), s.Inv →
    decode (commandWord 0x07 d 0 0 0 v) = some (.setbit d v)
      ∧ (s.arg.toNat < s.W * s.len d →
          ∃ t n, exec (.setbit d v) s = .next t ∧ WritesResult s t d n
            ∧ (v = true → n = s.val d + (1 - s.val d / 2 ^ s.arg.toNat % 2) * 2 ^ s.arg.toNat)
            ∧ (v = false → n = s.val d - s.val d / 2 ^ s.arg.toNat % 2 * 2 ^ s.arg.toNat)
            ∧ ∀ p, n.testBit p = if p = s.arg.toNat then v else (s.val d).testBit p)
      ∧ (s.W * s.len d ≤ s.arg.toNat → ∃ t, exec (.setbit d v) s = .next t ∧ FailsWith s t .range)

/-- R108: CMP writes LT and EQ from the two values and nothing else; it cannot fail. -/
def Obligations.CmpOrdersTheValues : Prop :=
  ∀ (s : State) (a b : Reg), s.Inv →
    decode (commandWord 0x08 0 a b 0 false) = some (.cmp a b)
      ∧ ∃ t, exec (.cmp a b) s = .next t ∧ Succeeds s t ∧ t.regs = s.regs ∧ t.res = s.res ∧ t.flagZ = s.flagZ
          ∧ (t.flagLT = true ↔ s.val a < s.val b) ∧ (t.flagEQ = true ↔ s.val a = s.val b)
          ∧ (t.flagLT = false ∧ t.flagEQ = false ↔ s.val b < s.val a)

/-- R110: SHL writes `val(a) * 2**ARG`, or ends with E_CAPACITY where that needs more than MAX_LIMBS limbs. -/
def Obligations.ShlMultipliesByThePowerOfTwo : Prop :=
  ∀ (s : State) (d a : Reg), s.Inv →
    let v := s.val a * 2 ^ s.arg.toNat
    decode (commandWord 0x09 d a 0 0 false) = some (.shl d a)
      ∧ (clen s.W v ≤ s.maxLimbs → ∃ t, exec (.shl d a) s = .next t ∧ WritesResult s t d v)
      ∧ (s.maxLimbs < clen s.W v → ∃ t, exec (.shl d a) s = .next t ∧ FailsWith s t .capacity)

/-- R111: SHR writes `val(a) / 2**ARG`, floor, for every ARG; it cannot fail. -/
def Obligations.ShrDividesByThePowerOfTwo : Prop :=
  ∀ (s : State) (d a : Reg), s.Inv →
    decode (commandWord 0x0A d a 0 0 false) = some (.shr d a)
      ∧ ∃ t, exec (.shr d a) s = .next t ∧ WritesResult s t d (s.val a / 2 ^ s.arg.toNat)

/-- R112: ADDW writes `val(a) + ARG`, or ends with E_CAPACITY, which happens exactly when the sum is `2**CAP_BITS` or more. -/
def Obligations.AddwAddsTheWord : Prop :=
  ∀ (s : State) (d a : Reg), s.Inv →
    let v := s.val a + s.arg.toNat
    decode (commandWord 0x0B d a 0 0 false) = some (.addw d a)
      ∧ (v < 2 ^ s.params.capBits → ∃ t, exec (.addw d a) s = .next t ∧ WritesResult s t d v)
      ∧ (2 ^ s.params.capBits ≤ v → ∃ t, exec (.addw d a) s = .next t ∧ FailsWith s t .capacity)
      ∧ (s.maxLimbs < clen s.W v ↔ 2 ^ s.params.capBits ≤ v)

/-- R113: SUBW writes `val(a) - ARG`, or ends with E_SUBNEG where ARG is greater. -/
def Obligations.SubwSubtractsTheWord : Prop :=
  ∀ (s : State) (d a : Reg), s.Inv →
    decode (commandWord 0x0C d a 0 0 false) = some (.subw d a)
      ∧ (s.arg.toNat ≤ s.val a → ∃ t v, exec (.subw d a) s = .next t ∧ v + s.arg.toNat = s.val a ∧ WritesResult s t d v)
      ∧ (s.val a < s.arg.toNat → ∃ t, exec (.subw d a) s = .next t ∧ FailsWith s t .subNeg)

/-- R114: MULW writes the full product and puts the carry limb `p / 2**(W*clen(val(a)))`, below `2**W`, in RES; where the product
does not fit it ends with E_CAPACITY and writes neither. -/
def Obligations.MulwWritesProductAndCarryLimb : Prop :=
  ∀ (s : State) (d a : Reg), s.Inv →
    let p := s.val a * s.arg.toNat
    let c := p / 2 ^ (s.W * clen s.W (s.val a))
    decode (commandWord 0x0D d a 0 0 false) = some (.mulw d a)
      ∧ c < 2 ^ s.W
      ∧ (clen s.W p ≤ s.maxLimbs →
          ∃ t, exec (.mulw d a) s = .next t ∧ Succeeds s t ∧ Holds s t d p ∧ t.res.toNat = c
            ∧ t.flagZ = decide (p = 0) ∧ t.flagLT = s.flagLT ∧ t.flagEQ = s.flagEQ)
      ∧ (s.maxLimbs < clen s.W p → ∃ t, exec (.mulw d a) s = .next t ∧ FailsWith s t .capacity)

/-! ## Arithmetic kernel -/

/-- R140: ADD writes `val(a) + val(b)`, or ends with E_CAPACITY, which happens exactly when the sum is `2**CAP_BITS` or more. -/
def Obligations.AddWritesTheSum : Prop :=
  ∀ (s : State) (d a b : Reg), s.Inv →
    let v := s.val a + s.val b
    decode (commandWord 0x10 d a b 0 false) = some (.add d a b)
      ∧ (v < 2 ^ s.params.capBits → ∃ t, exec (.add d a b) s = .next t ∧ WritesResult s t d v)
      ∧ (2 ^ s.params.capBits ≤ v → ∃ t, exec (.add d a b) s = .next t ∧ FailsWith s t .capacity)
      ∧ (s.maxLimbs < clen s.W v ↔ 2 ^ s.params.capBits ≤ v)

/-- R141: SUB writes `val(a) - val(b)`, or ends with E_SUBNEG where the subtrahend is greater; `SUB Bd, Bd, Bd` never fails (R90). -/
def Obligations.SubWritesTheDifference : Prop :=
  ∀ (s : State) (d a b : Reg), s.Inv →
    decode (commandWord 0x11 d a b 0 false) = some (.sub d a b)
      ∧ (s.val b ≤ s.val a → ∃ t v, exec (.sub d a b) s = .next t ∧ v + s.val b = s.val a ∧ WritesResult s t d v)
      ∧ (s.val a < s.val b → ∃ t, exec (.sub d a b) s = .next t ∧ FailsWith s t .subNeg)
      ∧ (∃ t, exec (.sub d d d) s = .next t ∧ WritesResult s t d 0)

/-- R142 and R144: MUL writes `val(a) * val(b)`, or ends with E_CAPACITY by the clamped product; the stored LEN is
`clen(a) + clen(b)` or one less where both are non-zero, and 1 where either is zero. -/
def Obligations.MulWritesTheProduct : Prop :=
  ∀ (s : State) (d a b : Reg), s.Inv →
    let v := s.val a * s.val b
    decode (commandWord 0x12 d a b 0 false) = some (.mul d a b)
      ∧ (clen s.W v ≤ s.maxLimbs →
          ∃ t, exec (.mul d a b) s = .next t ∧ WritesResult s t d v
            ∧ (v = 0 → t.len d = 1)
            ∧ (v ≠ 0 → t.len d = clen s.W (s.val a) + clen s.W (s.val b) ∨ t.len d + 1 = clen s.W (s.val a) + clen s.W (s.val b)))
      ∧ (s.maxLimbs < clen s.W v → ∃ t, exec (.mul d a b) s = .next t ∧ FailsWith s t .capacity)

/-! ## Division -/

/-- R150, R151, R152: DIV writes the q and REM the r of `val(a) = q * val(b) + r` with `r < val(b)`; a zero divisor is E_DIVZERO
whatever its LEN, and nothing is written. -/
def Obligations.DivAndRemWriteQuotientAndRemainder : Prop :=
  ∀ (s : State) (d a b : Reg), s.Inv →
    decode (commandWord 0x18 d a b 0 false) = some (.div d a b) ∧ decode (commandWord 0x19 d a b 0 false) = some (.rem d a b)
      ∧ (s.val b ≠ 0 → ∃ t t' q r, exec (.div d a b) s = .next t ∧ exec (.rem d a b) s = .next t'
          ∧ WritesResult s t d q ∧ WritesResult s t' d r ∧ s.val a = q * s.val b + r ∧ r < s.val b)
      ∧ (s.val b = 0 → ∃ t t', exec (.div d a b) s = .next t ∧ exec (.rem d a b) s = .next t'
          ∧ FailsWith s t .divZero ∧ FailsWith s t' .divZero)

/-! ## Modular commands -/

/-- R160: GCD writes the greatest common divisor, with `gcd(x, 0) = x` and `gcd(0, 0) = 0`; it cannot fail. -/
def Obligations.GcdWritesTheGreatestCommonDivisor : Prop :=
  ∀ (s : State) (d a b : Reg), s.Inv →
    decode (commandWord 0x20 d a b 0 false) = some (.gcd d a b)
      ∧ ∃ t g, exec (.gcd d a b) s = .next t ∧ WritesResult s t d g ∧ g ∣ s.val a ∧ g ∣ s.val b
          ∧ (∀ k, k ∣ s.val a → k ∣ s.val b → k ∣ g) ∧ (g = 0 ↔ s.val a = 0 ∧ s.val b = 0)

/-- R162: MRHO puts `-m0^-1 mod 2**W` in RES, m0 the low limb of an odd modulus; an even modulus, 0 included, is E_EVENMOD. -/
def Obligations.MrhoGivesTheMontgomeryConstant : Prop :=
  ∀ (s : State) (m : Reg), s.Inv →
    decode (commandWord 0x21 0 0 0 m false) = some (.mrho m)
      ∧ (s.val m % 2 = 1 →
          ∃ t x, exec (.mrho m) s = .next t ∧ x < 2 ^ s.W ∧ s.val m % 2 ^ s.W * x % 2 ^ s.W = 1
            ∧ WritesRes s t ((2 ^ s.W - x) % 2 ^ s.W))
      ∧ (s.val m % 2 = 0 → ∃ t, exec (.mrho m) s = .next t ∧ FailsWith s t .evenMod)

/-- R164: MONTMUL writes `x * y * R**-1 mod m`, fully reduced, with `R = 2**(W*clen(m))`; E_EVENMOD comes before E_OPERAND. -/
def Obligations.MontmulWritesTheMontgomeryProduct : Prop :=
  ∀ (s : State) (d x y m : Reg), s.Inv →
    let n := s.val m
    let R := 2 ^ (s.W * clen s.W n)
    decode (commandWord 0x22 d x y m false) = some (.montmul d x y m)
      ∧ (n % 2 = 1 → s.val x < n → s.val y < n →
          ∃ t v, exec (.montmul d x y m) s = .next t ∧ WritesResult s t d v ∧ v < n ∧ v * R % n = s.val x * s.val y % n
            ∧ (1 < n → ∃ ri, ri < n ∧ R % n * ri % n = 1 ∧ v = s.val x * s.val y * ri % n))
      ∧ (n % 2 = 0 → ∃ t, exec (.montmul d x y m) s = .next t ∧ FailsWith s t .evenMod)
      ∧ (n % 2 = 1 → n ≤ s.val x ∨ n ≤ s.val y → ∃ t, exec (.montmul d x y m) s = .next t ∧ FailsWith s t .operand)

/-- R166: POW writes `val(b) ** val(e)` with `0 ** 0 = 1`, or ends with E_CAPACITY by the final result. -/
def Obligations.PowWritesThePower : Prop :=
  ∀ (s : State) (d b e : Reg), s.Inv →
    let v := s.val b ^ s.val e
    decode (commandWord 0x23 d b e 0 false) = some (.pow d b e)
      ∧ (clen s.W v ≤ s.maxLimbs → ∃ t, exec (.pow d b e) s = .next t ∧ WritesResult s t d v)
      ∧ (s.maxLimbs < clen s.W v → ∃ t, exec (.pow d b e) s = .next t ∧ FailsWith s t .capacity)

/-- R167 and R170: POWMOD writes `(val(b) ** val(e)) mod val(m)` for every non-zero modulus, even ones too; a zero modulus is
E_DIVZERO, and E_EVENMOD is never raised. -/
def Obligations.PowmodWritesThePowerModM : Prop :=
  ∀ (s : State) (d b e m : Reg), s.Inv →
    decode (commandWord 0x24 d b e m false) = some (.powmod d b e m)
      ∧ (s.val m ≠ 0 → ∃ t, exec (.powmod d b e m) s = .next t ∧ WritesResult s t d (s.val b ^ s.val e % s.val m))
      ∧ (s.val m = 0 → ∃ t, exec (.powmod d b e m) s = .next t ∧ FailsWith s t .divZero)

/-! ## The units' reference algorithms give the commands' results -/

/-- R109: the comparison algorithm gives the numeric order. -/
def Obligations.ComparisonUnitGivesNumericOrder : Prop :=
  ∀ w a b : Nat, 1 ≤ w → compareUnit w a b = compare a b

/-- The multi-word adder and subtractor, limb by limb, give the sum and, with the borrow out as the E_SUBNEG case, the difference, in
limbs that are each below 2**W
(R140, R141; the ripple form is the model's, log entry 9). -/
def Obligations.RippleAdderAndSubtractorAreExact : Prop :=
  ∀ (w : Nat) (xs ys : List Nat), 1 ≤ w → (∀ x ∈ xs, x < 2 ^ w) → (∀ y ∈ ys, y < 2 ^ w) →
    let B := 2 ^ w
    natValue B (addUnit B xs ys 0) = natValue B xs + natValue B ys
      ∧ (addUnit B xs ys 0).length = max xs.length ys.length + 1
      ∧ (∀ x ∈ addUnit B xs ys 0, x < B)
      ∧ (subUnit B xs ys 0).1.length = max xs.length ys.length
      ∧ (∀ x ∈ (subUnit B xs ys 0).1, x < B)
      ∧ ((subUnit B xs ys 0).2 = 0 → natValue B (subUnit B xs ys 0).1 = natValue B xs - natValue B ys)
      ∧ ((subUnit B xs ys 0).2 = 1 ↔ natValue B xs < natValue B ys)

/-- R143 and R144: the schoolbook double loop gives the exact product in `La + Lb` limbs. -/
def Obligations.SchoolbookMultiplierIsExact : Prop :=
  ∀ (w : Nat) (as bs : List Nat), 1 ≤ w → (∀ a ∈ as, a < 2 ^ w) → (∀ b ∈ bs, b < 2 ^ w) →
    natValue (2 ^ w) (mulUnit (2 ^ w) as bs) = natValue (2 ^ w) as * natValue (2 ^ w) bs
      ∧ (mulUnit (2 ^ w) as bs).length = as.length + bs.length
      ∧ ∀ x ∈ mulUnit (2 ^ w) as bs, x < 2 ^ w

/-- R153 to R155: the normalized long-division engine gives the exact quotient and remainder, and its correction cap of 2 is never
exceeded, so E_INTERNAL is never signalled. -/
def Obligations.LongDivisionEngineIsExact : Prop :=
  ∀ w u v : Nat, 1 ≤ w → 0 < v → divUnit w u v = some (u / v, u % v)

/-- R161: the binary GCD pipeline ends and gives the greatest common divisor, (0, 0) included. -/
def Obligations.BinaryGcdPipelineIsExact : Prop :=
  ∀ x y : Nat, gcdUnit x y = Nat.gcd x y

/-- R163 and R165: four Newton steps give rho at both widths, and REDC with it gives MONTMUL's value. -/
def Obligations.RhoAndRedcUnitsAreExact : Prop :=
  ∀ (lw : LimbWidth) (m x y : Nat), m % 2 = 1 →
    rhoUnit lw.bits m = rhoOf lw.bits m ∧ (x < m → y < m → redcUnit lw.bits m x y = montMul lw.bits x y m)

/-- R168 and R169: the controller's two paths give `b ** e mod m`, so its choice of path by the parity of m cannot be seen; and
the plain path without reductions gives `b ** e`. -/
def Obligations.ExponentiationPathsAgree : Prop :=
  ∀ (lw : LimbWidth) (b e m : Nat), 0 < m →
    plainPath b e m = b ^ e % m ∧ (m % 2 = 1 → montPath lw.bits b e m = b ^ e % m)
      ∧ powmodUnit lw.bits b e m = b ^ e % m ∧ powUnit b e = b ^ e
end

