-- ==== Sys2Proof/Laws/Decode.lean ====
section
/-! SUPPORT. The fields of a command word and the word are the same 32 bits (R81), and the opcode map both ways (R85). -/

namespace Sys2Proof

theorem Fields.toWord_toNat (f : Fields) :
    f.toWord.toNat = f.opc.val * 2 ^ 26 + f.rd.val * 2 ^ 22 + f.rs1.val * 2 ^ 18 + f.rs2.val * 2 ^ 14
      + f.rs3.val * 2 ^ 10 + f.rsv.val * 2 + f.v.toNat := by
  have hv : f.v.toNat ≤ 1 := by cases f.v <;> decide
  unfold Fields.toWord
  rw [BitVec.toNat_ofNat, Nat.mod_eq_of_lt]
  omega

/-- No field is lost on the way to the word and back. -/
theorem Fields.ofWord_toWord (f : Fields) : Fields.ofWord f.toWord = f := by
  obtain ⟨opc, rd, rs1, rs2, rs3, rsv, v⟩ := f
  have h := Fields.toWord_toNat ⟨opc, rd, rs1, rs2, rs3, rsv, v⟩
  have hv : v.toNat ≤ 1 := by cases v <;> decide
  simp only at h
  have hvb : ((Fields.toWord ⟨opc, rd, rs1, rs2, rs3, rsv, v⟩).toNat % 2 == 1) = v := by
    rw [h]; cases v <;> simp <;> omega
  simp only [Fields.ofWord, Fields.mk.injEq, hvb, and_true]
  refine ⟨?_, ?_, ?_, ?_, ?_, ?_⟩ <;> (apply Fin.ext; simp only [Fin.val_ofNat, h]; omega)

/-- No bit of a word is lost on the way to its fields and back. -/
theorem Fields.toWord_ofWord (w : CmdWord) : (Fields.ofWord w).toWord = w := by
  have hw := w.isLt
  have hv : (w.toNat % 2 == 1).toNat = w.toNat % 2 := by
    rcases Nat.mod_two_eq_zero_or_one w.toNat with h | h <;> simp [h]
  apply BitVec.eq_of_toNat_eq
  rw [Fields.toWord_toNat]
  simp only [Fields.ofWord, Fin.val_ofNat, hv]
  omega

/-- A bitwise and works on the parts below and above bit k separately. -/
theorem and_split {k a b c d : Nat} (hb : b < 2 ^ k) (hd : d < 2 ^ k) :
    (2 ^ k * a + b) &&& (2 ^ k * c + d) = 2 ^ k * (a &&& c) + (b &&& d) := by
  apply Nat.eq_of_testBit_eq
  intro j
  rw [Nat.testBit_and, Nat.testBit_two_pow_mul_add _ hb, Nat.testBit_two_pow_mul_add _ hd,
    Nat.testBit_two_pow_mul_add _ (Nat.and_lt_two_pow _ hd)]
  split <;> rw [Nat.testBit_and]

/-- Masking a word masks each of its fields (R81, R84). -/
theorem Fields.toWord_and (f m : Fields) :
    (f.toWord &&& m.toWord).toNat = (f.opc.val &&& m.opc.val) * 2 ^ 26 + (f.rd.val &&& m.rd.val) * 2 ^ 22
      + (f.rs1.val &&& m.rs1.val) * 2 ^ 18 + (f.rs2.val &&& m.rs2.val) * 2 ^ 14
      + (f.rs3.val &&& m.rs3.val) * 2 ^ 10 + (f.rsv.val &&& m.rsv.val) * 2 + (f.v.toNat &&& m.v.toNat) := by
  have bound : ∀ b : Bool, b.toNat < 2 ^ 1 := by decide
  have horner : ∀ g : Fields, g.toWord.toNat = 2 ^ 1 * (2 ^ 9 * (2 ^ 4 * (2 ^ 4 * (2 ^ 4 * (2 ^ 4 * g.opc.val + g.rd.val)
      + g.rs1.val) + g.rs2.val) + g.rs3.val) + g.rsv.val) + g.v.toNat := by
    intro g; rw [Fields.toWord_toNat]; ring
  rw [BitVec.toNat_and, horner f, horner m, and_split (bound _) (bound _), and_split f.rsv.isLt m.rsv.isLt,
    and_split f.rs3.isLt m.rs3.isLt, and_split f.rs2.isLt m.rs2.isLt, and_split f.rs1.isLt m.rs1.isLt,
    and_split f.rd.isLt m.rd.isLt]
  ring

theorem Opcode.ofCode_code (op : Opcode) : Opcode.ofCode op.code = some op := by
  cases op <;> decide

theorem Opcode.code_of_ofCode {c : Fin 64} {op : Opcode} (h : Opcode.ofCode c = some op) : op.code = c := by
  have := List.find?_some h
  simpa using this

/-- The fields of an assembled command are the fields it was assembled from, where the format admits them. -/
theorem Opcode.fields_assemble {op : Opcode} {f : Fields} (hc : op.code = f.opc) (hf : op.format.admits f = true) :
    (op.assemble f).fields = f := by
  obtain ⟨opc, rd, rs1, rs2, rs3, rsv, v⟩ := f
  cases op <;>
    simp_all [Opcode.code, Opcode.format, Format.admits, Format.usesRd, Format.usesRs1, Format.usesRs2, Format.usesRs3,
      Format.usesV, Opcode.assemble, Instr.fields]

theorem Opcode.opcode_assemble (op : Opcode) (f : Fields) : (op.assemble f).opcode = op := by
  cases op <;> rfl

/-- All a decoded word says of its fields. -/
theorem decodeFields_some {f : Fields} {i : Instr} (h : decodeFields f = some i) :
    ∃ op : Opcode, op.code = f.opc ∧ op.format.admits f = true ∧ i = op.assemble f := by
  unfold decodeFields at h
  split at h
  · cases h
  · next op hop =>
    split at h
    · next ha => exact ⟨op, Opcode.code_of_ofCode hop, ha, (Option.some.inj h).symm⟩
    · cases h

end Sys2Proof
end

