-- ==== Sys2Proof/Laws/Operands.lean ====
section
/-! SUPPORT. What the functions on naturals and limbs of Machine/Operands.lean compute, in the spec's own terms (R13, R21, R24). -/

namespace Sys2Proof.Machine

/-! ### Bit and limb counts (R13) -/

theorem bitlen_le_iff (v k : Nat) : bitlen v ≤ k ↔ v < 2 ^ k := by
  unfold bitlen
  split
  · next h => subst h; simp
  · next h => rw [← Nat.log2_lt h]; omega

theorem lt_two_pow_bitlen (v : Nat) : v < 2 ^ bitlen v := (bitlen_le_iff v _).1 le_rfl

theorem two_pow_le_of_lt_bitlen {v k : Nat} (h : k < bitlen v) : 2 ^ k ≤ v := by
  by_contra hv
  exact absurd ((bitlen_le_iff v k).2 (by omega)) (by omega)

@[simp] theorem bitlen_zero : bitlen 0 = 0 := by simp [bitlen]

theorem bitlen_pos {v : Nat} (h : 0 < v) : 0 < bitlen v := by
  unfold bitlen; split <;> omega

theorem clen_pos (w v : Nat) : 1 ≤ clen w v := le_max_left _ _

/-- The clamped limb count fits n limbs exactly when the value is below `2**(W*n)`. -/
theorem clen_le_iff {w n : Nat} (hw : 0 < w) (hn : 1 ≤ n) (v : Nat) : clen w v ≤ n ↔ v < 2 ^ (w * n) := by
  rw [← bitlen_le_iff]
  unfold clen
  rw [Nat.max_le, Nat.div_le_iff_le_mul_add_pred hw]
  constructor
  · rintro ⟨_, h⟩; omega
  · intro h; exact ⟨hn, by omega⟩

theorem lt_two_pow_clen {w : Nat} (hw : 0 < w) (v : Nat) : v < 2 ^ (w * clen w v) :=
  (clen_le_iff hw (clen_pos w v) v).1 le_rfl

/-- Below the top limb there are too few bits: `2**(W*(clen(v)-1)) <= v` for v other than 0. -/
theorem two_pow_le_of_clen {w v : Nat} (hw : 0 < w) (hv : 0 < v) : 2 ^ (w * (clen w v - 1)) ≤ v := by
  rcases Nat.lt_or_ge 1 (clen w v) with h | h
  · by_contra hlt
    have := (clen_le_iff hw (n := clen w v - 1) (by omega) v).2 (by omega)
    omega
  · have : clen w v - 1 = 0 := by omega
    rw [this]; simp; omega

theorem clen_zero (w : Nat) (hw : 0 < w) : clen w 0 = 1 :=
  le_antisymm ((clen_le_iff hw le_rfl 0).2 (by positivity)) (clen_pos w 0)

theorem clen_mono {w u v : Nat} (hw : 0 < w) (h : u ≤ v) : clen w u ≤ clen w v :=
  (clen_le_iff hw (clen_pos w v) u).2 (lt_of_le_of_lt h (lt_two_pow_clen hw v))

/-- `bit(v, p) = (v / 2**p) mod 2` (R13), at every position. -/
theorem bitAt_eq (v p : Nat) : bitAt v p = v / 2 ^ p % 2 := by
  unfold bitAt
  split
  · next h => rw [Nat.div_eq_of_lt ((bitlen_le_iff v p).1 h)]
  · rfl

theorem bitAt_le_one (v p : Nat) : bitAt v p ≤ 1 := by
  rw [bitAt_eq]; omega

/-! ### Shifts and powers -/

theorem shiftUp_eq (v s : Nat) : shiftUp v s = v * 2 ^ s := by
  unfold shiftUp; split
  · next h => simp [h]
  · rfl

/-- The capacity check of SHL, as R110 states it. -/
theorem shiftUpFits_iff (cap v s : Nat) : shiftUpFits cap v s = true ↔ v * 2 ^ s < 2 ^ cap := by
  rcases Nat.eq_zero_or_pos v with rfl | hv
  · simp [shiftUpFits]
  · have hne : v ≠ 0 := by omega
    simp only [shiftUpFits, Bool.or_eq_true, beq_iff_eq, hne, false_or, decide_eq_true_eq]
    constructor
    · intro h
      calc v * 2 ^ s < 2 ^ bitlen v * 2 ^ s := Nat.mul_lt_mul_of_pos_right (lt_two_pow_bitlen v) (by positivity)
        _ = 2 ^ (bitlen v + s) := (pow_add 2 _ _).symm
        _ ≤ 2 ^ cap := Nat.pow_le_pow_right (by norm_num) h
    · intro h
      have hs : s < cap := by
        by_contra hcs
        have : 2 ^ cap ≤ 2 ^ s := Nat.pow_le_pow_right (by norm_num) (by omega)
        nlinarith [Nat.two_pow_pos s]
      have hsplit : 2 ^ cap = 2 ^ (cap - s) * 2 ^ s := by rw [← pow_add]; congr 1; omega
      have : v < 2 ^ (cap - s) := by
        rw [hsplit] at h; exact Nat.lt_of_mul_lt_mul_right h
      have := (bitlen_le_iff v (cap - s)).2 this
      omega

theorem shiftDown_eq (v s : Nat) : shiftDown v s = v / 2 ^ s := by
  unfold shiftDown; split
  · next h => exact (Nat.div_eq_of_lt ((bitlen_le_iff v s).1 h)).symm
  · rfl

theorem natPow_eq (b e : Nat) : natPow b e = b ^ e := by
  unfold natPow
  split
  · next h => simp [h]
  · next h =>
    split
    · next hb =>
      interval_cases b
      · simp [h]
      · simp
    · rfl

/-- Where the test says no, the power needs more than `cap` bits (R166). -/
theorem two_pow_le_of_not_powMayFit {cap b e : Nat} (h : powMayFit cap b e = false) : 2 ^ cap ≤ b ^ e := by
  simp only [powMayFit, Bool.or_eq_false_iff, decide_eq_false_iff_not, not_le, not_lt] at h
  obtain ⟨hb, hcap⟩ := h
  have hlow : 2 ^ (bitlen b - 1) ≤ b :=
    two_pow_le_of_lt_bitlen (by have := bitlen_pos (v := b) (by omega); omega)
  calc 2 ^ cap ≤ 2 ^ ((bitlen b - 1) * e) := Nat.pow_le_pow_right (by norm_num) hcap
    _ = (2 ^ (bitlen b - 1)) ^ e := by rw [pow_mul]
    _ ≤ b ^ e := Nat.pow_le_pow_left hlow e

theorem powModLoop_eq (m fuel b e : Nat) (he : e < 2 ^ fuel) : powModLoop m fuel b e = b ^ e % m := by
  induction fuel generalizing b e with
  | zero =>
    have : e = 0 := by simpa using he
    simp [powModLoop, this]
  | succ n ih =>
    have hhalf : e / 2 < 2 ^ n := by rw [pow_succ] at he; omega
    have hsq : (b * b % m) ^ (e / 2) % m = (b ^ (e / 2) * b ^ (e / 2)) % m := by
      rw [← Nat.pow_mod, mul_pow]
    have he2 : e = 2 * (e / 2) + e % 2 := by omega
    simp only [powModLoop, ih _ _ hhalf, hsq]
    split
    · next h1 =>
      conv_rhs => rw [he2, h1, pow_add, two_mul, pow_add, pow_one, mul_comm]
      simp [Nat.mul_mod]
    · next h0 =>
      have h0 : e % 2 = 0 := by omega
      conv_rhs => rw [he2, h0, two_mul, add_zero, pow_add]

/-- `powMod` is `(b ** e) mod m` (R167). -/
theorem powMod_eq (b e m : Nat) : powMod b e m = b ^ e % m := by
  unfold powMod
  rw [powModLoop_eq _ _ _ _ (lt_two_pow_bitlen e), ← Nat.pow_mod]

/-! ### The modular inverse (R13) -/

theorem bitlen_mod_lt {a b : Nat} (hb : 0 < b) (hba : b ≤ a) : bitlen (a % b) < bitlen a := by
  have h1 : a % b < b := Nat.mod_lt a hb
  have h2 : 2 * (a % b) < a + 1 := by
    have := Nat.div_add_mod a b
    have hq : 1 ≤ a / b := Nat.div_pos hba hb
    nlinarith
  have hpos : 0 < bitlen a := bitlen_pos (by omega)
  have hlt := lt_two_pow_bitlen a
  have : a % b < 2 ^ (bitlen a - 1) := by
    have : 2 ^ bitlen a = 2 * 2 ^ (bitlen a - 1) := by
      rw [← pow_succ']; congr 1; omega
    omega
  have := (bitlen_le_iff (a % b) (bitlen a - 1)).2 this
  omega

/-- The Euclid loop ends on a coefficient of the greatest common divisor. -/
theorem modInvLoop_spec (a m fuel r0 r1 t0 t1 : Nat) (hm : 0 < m) (hlt : r1 < r0)
    (hf : bitlen r0 + bitlen r1 < fuel) (h0 : a * t0 ≡ r0 [MOD m]) (h1 : a * t1 ≡ r1 [MOD m]) (ht0 : t0 < m) (ht1 : t1 < m) :
    a * modInvLoop m fuel r0 r1 t0 t1 ≡ Nat.gcd r0 r1 [MOD m] ∧ modInvLoop m fuel r0 r1 t0 t1 < m := by
  induction fuel generalizing r0 r1 t0 t1 with
  | zero => omega
  | succ n ih =>
    unfold modInvLoop
    split
    · next hz => subst hz; simpa using ⟨h0, ht0⟩
    · next hz =>
      have hpos : 0 < r1 := by omega
      have hmod : r0 % r1 < r1 := Nat.mod_lt _ hpos
      have hgcd : Nat.gcd r0 r1 = Nat.gcd r1 (r0 % r1) := by
        rw [Nat.gcd_comm, Nat.gcd_rec, Nat.gcd_comm]
      rw [hgcd]
      apply ih
      · exact hmod
      · have := bitlen_mod_lt hpos hlt.le; omega
      · exact h1
      · set q := r0 / r1 with hq
        have hle : q * t1 % m ≤ m := (Nat.mod_lt _ hm).le
        have hdiv : r1 * q + r0 % r1 = r0 := Nat.div_add_mod r0 r1
        -- a * (t0 - q * t1) is r0 - q * r1, with the subtraction made in the naturals
        have key : a * ((t0 + (m - q * t1 % m)) % m) + a * (q * t1) ≡ a * t0 [MOD m] := by
          have h2 : (t0 + (m - q * t1 % m)) % m + q * t1 ≡ t0 [MOD m] := by
            calc (t0 + (m - q * t1 % m)) % m + q * t1
                ≡ (t0 + (m - q * t1 % m)) + q * t1 % m [MOD m] :=
                  Nat.ModEq.add (Nat.mod_modEq _ _) (Nat.mod_modEq _ _).symm
              _ = t0 + m := by omega
              _ ≡ t0 [MOD m] := by simp [Nat.ModEq]
          have := Nat.ModEq.mul_left a h2
          rwa [mul_add] at this
        have hq1 : a * (q * t1) ≡ r1 * q [MOD m] := by
          have := Nat.ModEq.mul_left q h1
          calc a * (q * t1) = q * (a * t1) := by ring
            _ ≡ q * r1 [MOD m] := this
            _ = r1 * q := by ring
        have : a * ((t0 + (m - q * t1 % m)) % m) + r1 * q ≡ r0 % r1 + r1 * q [MOD m] := by
          calc a * ((t0 + (m - q * t1 % m)) % m) + r1 * q
              ≡ a * ((t0 + (m - q * t1 % m)) % m) + a * (q * t1) [MOD m] := Nat.ModEq.add_left _ hq1.symm
            _ ≡ a * t0 [MOD m] := key
            _ ≡ r0 [MOD m] := h0
            _ = r0 % r1 + r1 * q := by omega
        exact Nat.ModEq.add_right_cancel' _ this
      · exact ht1
      · exact Nat.mod_lt _ hm

/-- `inv(a, m)` of R13: below m, and an inverse of a. -/
theorem modInv_spec {a m : Nat} (hm : 1 < m) (hg : Nat.gcd a m = 1) : a * modInv a m % m = 1 ∧ modInv a m < m := by
  have hspec := modInvLoop_spec a m (bitlen m + bitlen (a % m) + 1) m (a % m) 0 (1 % m) (by omega)
    (Nat.mod_lt _ (by omega)) (by omega) (by simp [Nat.ModEq]) (by simp [Nat.ModEq]) (by omega)
    (Nat.mod_lt _ (by omega))
  have hg' : Nat.gcd m (a % m) = 1 := by rw [Nat.gcd_comm, ← Nat.gcd_rec, Nat.gcd_comm, hg]
  rw [hg'] at hspec
  refine ⟨?_, hspec.2⟩
  have := hspec.1
  simpa [Nat.ModEq, Nat.mod_eq_of_lt hm, modInv] using this

/-! ### Limbs (R21, R24) -/

@[simp] theorem toLimbs_length (w n v : Nat) : (toLimbs w n v).length = n := by
  induction n generalizing v with
  | zero => rfl
  | succ n ih => simp [toLimbs, ih]

/-- Limb i of the result write: `(v / 2**(W*i)) mod 2**W` (R24). -/
theorem toLimbs_getD {w : Nat} (hw : w ≤ 64) (n v i : Nat) (hi : i < n) :
    ((toLimbs w n v).getD i 0).toNat = v / 2 ^ (w * i) % 2 ^ w := by
  induction n generalizing v i with
  | zero => omega
  | succ n ih =>
    cases i with
    | zero =>
      have : v % 2 ^ w < 2 ^ 64 := lt_of_lt_of_le (Nat.mod_lt _ (by positivity)) (Nat.pow_le_pow_right (by norm_num) hw)
      simpa [toLimbs] using this
    | succ i =>
      have := ih (v / 2 ^ w) i (by omega)
      simp only [toLimbs, List.getD_cons_succ]
      rw [this, Nat.div_div_eq_div_mul, ← pow_add]
      congr 3
      ring

theorem toLimbs_lt {w : Nat} (hw : w ≤ 64) (n v : Nat) : ∀ l ∈ toLimbs w n v, l.toNat < 2 ^ w := by
  induction n generalizing v with
  | zero => simp [toLimbs]
  | succ n ih =>
    intro l hl
    simp only [toLimbs, List.mem_cons] at hl
    rcases hl with rfl | hl
    · have : v % 2 ^ w < 2 ^ 64 := lt_of_lt_of_le (Nat.mod_lt _ (by positivity)) (Nat.pow_le_pow_right (by norm_num) hw)
      rw [BitVec.toNat_ofNat, Nat.mod_eq_of_lt this]
      exact Nat.mod_lt _ (by positivity)
    · exact ih _ l hl

theorem toLimbs_take (w n k v : Nat) (hk : k ≤ n) : (toLimbs w n v).take k = toLimbs w k v := by
  induction n generalizing v k with
  | zero => simp_all [toLimbs]
  | succ n ih =>
    cases k with
    | zero => simp [toLimbs]
    | succ k => simp [toLimbs, ih k _ (by omega)]

/-- The limbs of a value stand for it, cut to the limbs there are (R21, R24). -/
theorem limbsValue_toLimbs {w : Nat} (hw : w ≤ 64) (n v : Nat) : limbsValue w (toLimbs w n v) = v % 2 ^ (w * n) := by
  induction n generalizing v with
  | zero => simp [toLimbs, limbsValue, Nat.mod_one]
  | succ n ih =>
    have : v % 2 ^ w < 2 ^ 64 := lt_of_lt_of_le (Nat.mod_lt _ (by positivity)) (Nat.pow_le_pow_right (by norm_num) hw)
    rw [toLimbs, limbsValue, ih, BitVec.toNat_ofNat, Nat.mod_eq_of_lt this, Nat.mul_succ, add_comm (w * n) w, pow_add,
      Nat.mod_mul]

theorem limbsValue_lt {w : Nat} (ls : List Word) (h : ∀ l ∈ ls, l.toNat < 2 ^ w) : limbsValue w ls < 2 ^ (w * ls.length) := by
  induction ls with
  | nil => simp [limbsValue]
  | cons l ls ih =>
    have hl := h l (by simp)
    have hr := ih fun x hx => h x (by simp [hx])
    simp only [limbsValue, List.length_cons, Nat.mul_succ]
    rw [add_comm (w * ls.length) w, pow_add]
    calc l.toNat + 2 ^ w * limbsValue w ls < 2 ^ w + 2 ^ w * limbsValue w ls := by omega
      _ = 2 ^ w * (limbsValue w ls + 1) := by ring
      _ ≤ 2 ^ w * 2 ^ (w * ls.length) := Nat.mul_le_mul_left _ hr

theorem limbsValue_append (w : Nat) (xs ys : List Word) :
    limbsValue w (xs ++ ys) = limbsValue w xs + 2 ^ (w * xs.length) * limbsValue w ys := by
  induction xs with
  | nil => simp [limbsValue]
  | cons x xs ih =>
    simp only [List.cons_append, limbsValue, ih, List.length_cons, Nat.mul_succ]
    rw [add_comm (w * xs.length) w, pow_add]
    ring

theorem limbsValue_replicate_zero (w n : Nat) : limbsValue w (List.replicate n 0) = 0 := by
  induction n with
  | zero => rfl
  | succ n ih => rw [List.replicate_succ, limbsValue, ih]; simp

theorem wordOf_toNat {w : Nat} (hw : w ≤ 64) (v : Nat) : (wordOf w v).toNat = v % 2 ^ w := by
  have : v % 2 ^ w < 2 ^ 64 := lt_of_lt_of_le (Nat.mod_lt _ (by positivity)) (Nat.pow_le_pow_right (by norm_num) hw)
  rw [wordOf, BitVec.toNat_ofNat, Nat.mod_eq_of_lt this]

theorem State.W_pos (s : State) : 0 < s.W := by unfold State.W; cases s.params.limbWidth <;> decide

theorem State.W_le (s : State) : s.W ≤ 64 := by unfold State.W; cases s.params.limbWidth <;> decide

theorem State.W_ge (s : State) : 32 ≤ s.W := by unfold State.W; cases s.params.limbWidth <;> decide

end Sys2Proof.Machine
end

