-- ==== Sys2Proof/Laws/State.lean ====
section
/-! SUPPORT. One lemma per field per update of the state, each true by rfl, so that no later proof unfolds a record update.
The views W, MAX_LIMBS, LEN, LIMB and val follow. -/

namespace Sys2Proof.Machine

variable (s : State)

/-! ### setZ -/

@[simp] theorem State.params_setZ (v : Nat) : (s.setZ v).params = s.params := rfl
@[simp] theorem State.regs_setZ (v : Nat) : (s.setZ v).regs = s.regs := rfl
@[simp] theorem State.ie_setZ (v : Nat) : (s.setZ v).ie = s.ie := rfl
@[simp] theorem State.busy_setZ (v : Nat) : (s.setZ v).busy = s.busy := rfl
@[simp] theorem State.done_setZ (v : Nat) : (s.setZ v).done = s.done := rfl
@[simp] theorem State.err_setZ (v : Nat) : (s.setZ v).err = s.err := rfl
@[simp] theorem State.lost_setZ (v : Nat) : (s.setZ v).lost = s.lost := rfl
@[simp] theorem State.werr_setZ (v : Nat) : (s.setZ v).werr = s.werr := rfl
@[simp] theorem State.cmd_setZ (v : Nat) : (s.setZ v).cmd = s.cmd := rfl
@[simp] theorem State.arg_setZ (v : Nat) : (s.setZ v).arg = s.arg := rfl
@[simp] theorem State.res_setZ (v : Nat) : (s.setZ v).res = s.res := rfl
@[simp] theorem State.flagZ_setZ (v : Nat) : (s.setZ v).flagZ = (v == 0) := rfl
@[simp] theorem State.flagLT_setZ (v : Nat) : (s.setZ v).flagLT = s.flagLT := rfl
@[simp] theorem State.flagEQ_setZ (v : Nat) : (s.setZ v).flagEQ = s.flagEQ := rfl
@[simp] theorem State.scratch_setZ (v : Nat) : (s.setZ v).scratch = s.scratch := rfl
@[simp] theorem State.inputs_setZ (v : Nat) : (s.setZ v).inputs = s.inputs := rfl
@[simp] theorem State.rdata_setZ (v : Nat) : (s.setZ v).rdata = s.rdata := rfl
@[simp] theorem State.draws_setZ (v : Nat) : (s.setZ v).draws = s.draws := rfl
@[simp] theorem State.W_setZ (v : Nat) : (s.setZ v).W = s.W := rfl
@[simp] theorem State.maxLimbs_setZ (v : Nat) : (s.setZ v).maxLimbs = s.maxLimbs := rfl
@[simp] theorem State.len_setZ (v : Nat) (r : Reg) : (s.setZ v).len r = s.len r := rfl
@[simp] theorem State.limb_setZ (v : Nat) (r : Reg) (i : Nat) : (s.setZ v).limb r i = s.limb r i := rfl
@[simp] theorem State.val_setZ (v : Nat) (r : Reg) : (s.setZ v).val r = s.val r := rfl

/-! ### setCompare -/

@[simp] theorem State.params_setCompare (a b : Nat) : (s.setCompare a b).params = s.params := rfl
@[simp] theorem State.regs_setCompare (a b : Nat) : (s.setCompare a b).regs = s.regs := rfl
@[simp] theorem State.ie_setCompare (a b : Nat) : (s.setCompare a b).ie = s.ie := rfl
@[simp] theorem State.busy_setCompare (a b : Nat) : (s.setCompare a b).busy = s.busy := rfl
@[simp] theorem State.done_setCompare (a b : Nat) : (s.setCompare a b).done = s.done := rfl
@[simp] theorem State.err_setCompare (a b : Nat) : (s.setCompare a b).err = s.err := rfl
@[simp] theorem State.lost_setCompare (a b : Nat) : (s.setCompare a b).lost = s.lost := rfl
@[simp] theorem State.werr_setCompare (a b : Nat) : (s.setCompare a b).werr = s.werr := rfl
@[simp] theorem State.cmd_setCompare (a b : Nat) : (s.setCompare a b).cmd = s.cmd := rfl
@[simp] theorem State.arg_setCompare (a b : Nat) : (s.setCompare a b).arg = s.arg := rfl
@[simp] theorem State.res_setCompare (a b : Nat) : (s.setCompare a b).res = s.res := rfl
@[simp] theorem State.flagZ_setCompare (a b : Nat) : (s.setCompare a b).flagZ = s.flagZ := rfl
@[simp] theorem State.flagLT_setCompare (a b : Nat) : (s.setCompare a b).flagLT = decide (a < b) := rfl
@[simp] theorem State.flagEQ_setCompare (a b : Nat) : (s.setCompare a b).flagEQ = (a == b) := rfl
@[simp] theorem State.scratch_setCompare (a b : Nat) : (s.setCompare a b).scratch = s.scratch := rfl
@[simp] theorem State.inputs_setCompare (a b : Nat) : (s.setCompare a b).inputs = s.inputs := rfl
@[simp] theorem State.rdata_setCompare (a b : Nat) : (s.setCompare a b).rdata = s.rdata := rfl
@[simp] theorem State.draws_setCompare (a b : Nat) : (s.setCompare a b).draws = s.draws := rfl
@[simp] theorem State.W_setCompare (a b : Nat) : (s.setCompare a b).W = s.W := rfl
@[simp] theorem State.maxLimbs_setCompare (a b : Nat) : (s.setCompare a b).maxLimbs = s.maxLimbs := rfl
@[simp] theorem State.len_setCompare (a b : Nat) (r : Reg) : (s.setCompare a b).len r = s.len r := rfl
@[simp] theorem State.limb_setCompare (a b : Nat) (r : Reg) (i : Nat) : (s.setCompare a b).limb r i = s.limb r i := rfl
@[simp] theorem State.val_setCompare (a b : Nat) (r : Reg) : (s.setCompare a b).val r = s.val r := rfl

/-! ### setReg -/

@[simp] theorem State.params_setReg (r : Reg) (b : BigReg) : (s.setReg r b).params = s.params := rfl
@[simp] theorem State.regs_setReg (r : Reg) (b : BigReg) : (s.setReg r b).regs = s.regs.set r b := rfl
@[simp] theorem State.ie_setReg (r : Reg) (b : BigReg) : (s.setReg r b).ie = s.ie := rfl
@[simp] theorem State.busy_setReg (r : Reg) (b : BigReg) : (s.setReg r b).busy = s.busy := rfl
@[simp] theorem State.done_setReg (r : Reg) (b : BigReg) : (s.setReg r b).done = s.done := rfl
@[simp] theorem State.err_setReg (r : Reg) (b : BigReg) : (s.setReg r b).err = s.err := rfl
@[simp] theorem State.lost_setReg (r : Reg) (b : BigReg) : (s.setReg r b).lost = s.lost := rfl
@[simp] theorem State.werr_setReg (r : Reg) (b : BigReg) : (s.setReg r b).werr = s.werr := rfl
@[simp] theorem State.cmd_setReg (r : Reg) (b : BigReg) : (s.setReg r b).cmd = s.cmd := rfl
@[simp] theorem State.arg_setReg (r : Reg) (b : BigReg) : (s.setReg r b).arg = s.arg := rfl
@[simp] theorem State.res_setReg (r : Reg) (b : BigReg) : (s.setReg r b).res = s.res := rfl
@[simp] theorem State.flagZ_setReg (r : Reg) (b : BigReg) : (s.setReg r b).flagZ = s.flagZ := rfl
@[simp] theorem State.flagLT_setReg (r : Reg) (b : BigReg) : (s.setReg r b).flagLT = s.flagLT := rfl
@[simp] theorem State.flagEQ_setReg (r : Reg) (b : BigReg) : (s.setReg r b).flagEQ = s.flagEQ := rfl
@[simp] theorem State.scratch_setReg (r : Reg) (b : BigReg) : (s.setReg r b).scratch = s.scratch := rfl
@[simp] theorem State.inputs_setReg (r : Reg) (b : BigReg) : (s.setReg r b).inputs = s.inputs := rfl
@[simp] theorem State.rdata_setReg (r : Reg) (b : BigReg) : (s.setReg r b).rdata = s.rdata := rfl
@[simp] theorem State.draws_setReg (r : Reg) (b : BigReg) : (s.setReg r b).draws = s.draws := rfl
@[simp] theorem State.W_setReg (r : Reg) (b : BigReg) : (s.setReg r b).W = s.W := rfl
@[simp] theorem State.maxLimbs_setReg (r : Reg) (b : BigReg) : (s.setReg r b).maxLimbs = s.maxLimbs := rfl

/-! ### writeB -/

@[simp] theorem State.params_writeB (r : Reg) (v : Nat) : (s.writeB r v).params = s.params := rfl
@[simp] theorem State.regs_writeB (r : Reg) (v : Nat) : (s.writeB r v).regs = s.regs.set r ⟨clen s.W v, toLimbs s.W s.maxLimbs v⟩ := rfl
@[simp] theorem State.ie_writeB (r : Reg) (v : Nat) : (s.writeB r v).ie = s.ie := rfl
@[simp] theorem State.busy_writeB (r : Reg) (v : Nat) : (s.writeB r v).busy = s.busy := rfl
@[simp] theorem State.done_writeB (r : Reg) (v : Nat) : (s.writeB r v).done = s.done := rfl
@[simp] theorem State.err_writeB (r : Reg) (v : Nat) : (s.writeB r v).err = s.err := rfl
@[simp] theorem State.lost_writeB (r : Reg) (v : Nat) : (s.writeB r v).lost = s.lost := rfl
@[simp] theorem State.werr_writeB (r : Reg) (v : Nat) : (s.writeB r v).werr = s.werr := rfl
@[simp] theorem State.cmd_writeB (r : Reg) (v : Nat) : (s.writeB r v).cmd = s.cmd := rfl
@[simp] theorem State.arg_writeB (r : Reg) (v : Nat) : (s.writeB r v).arg = s.arg := rfl
@[simp] theorem State.res_writeB (r : Reg) (v : Nat) : (s.writeB r v).res = s.res := rfl
@[simp] theorem State.flagZ_writeB (r : Reg) (v : Nat) : (s.writeB r v).flagZ = s.flagZ := rfl
@[simp] theorem State.flagLT_writeB (r : Reg) (v : Nat) : (s.writeB r v).flagLT = s.flagLT := rfl
@[simp] theorem State.flagEQ_writeB (r : Reg) (v : Nat) : (s.writeB r v).flagEQ = s.flagEQ := rfl
@[simp] theorem State.scratch_writeB (r : Reg) (v : Nat) : (s.writeB r v).scratch = s.scratch := rfl
@[simp] theorem State.inputs_writeB (r : Reg) (v : Nat) : (s.writeB r v).inputs = s.inputs := rfl
@[simp] theorem State.rdata_writeB (r : Reg) (v : Nat) : (s.writeB r v).rdata = s.rdata := rfl
@[simp] theorem State.draws_writeB (r : Reg) (v : Nat) : (s.writeB r v).draws = s.draws := rfl
@[simp] theorem State.W_writeB (r : Reg) (v : Nat) : (s.writeB r v).W = s.W := rfl
@[simp] theorem State.maxLimbs_writeB (r : Reg) (v : Nat) : (s.writeB r v).maxLimbs = s.maxLimbs := rfl

/-! ### writeResult -/

@[simp] theorem State.params_writeResult (r : Reg) (v : Nat) : (s.writeResult r v).params = s.params := rfl
@[simp] theorem State.regs_writeResult (r : Reg) (v : Nat) : (s.writeResult r v).regs = s.regs.set r ⟨clen s.W v, toLimbs s.W s.maxLimbs v⟩ := rfl
@[simp] theorem State.ie_writeResult (r : Reg) (v : Nat) : (s.writeResult r v).ie = s.ie := rfl
@[simp] theorem State.busy_writeResult (r : Reg) (v : Nat) : (s.writeResult r v).busy = s.busy := rfl
@[simp] theorem State.done_writeResult (r : Reg) (v : Nat) : (s.writeResult r v).done = s.done := rfl
@[simp] theorem State.err_writeResult (r : Reg) (v : Nat) : (s.writeResult r v).err = s.err := rfl
@[simp] theorem State.lost_writeResult (r : Reg) (v : Nat) : (s.writeResult r v).lost = s.lost := rfl
@[simp] theorem State.werr_writeResult (r : Reg) (v : Nat) : (s.writeResult r v).werr = s.werr := rfl
@[simp] theorem State.cmd_writeResult (r : Reg) (v : Nat) : (s.writeResult r v).cmd = s.cmd := rfl
@[simp] theorem State.arg_writeResult (r : Reg) (v : Nat) : (s.writeResult r v).arg = s.arg := rfl
@[simp] theorem State.res_writeResult (r : Reg) (v : Nat) : (s.writeResult r v).res = s.res := rfl
@[simp] theorem State.flagZ_writeResult (r : Reg) (v : Nat) : (s.writeResult r v).flagZ = (v == 0) := rfl
@[simp] theorem State.flagLT_writeResult (r : Reg) (v : Nat) : (s.writeResult r v).flagLT = s.flagLT := rfl
@[simp] theorem State.flagEQ_writeResult (r : Reg) (v : Nat) : (s.writeResult r v).flagEQ = s.flagEQ := rfl
@[simp] theorem State.scratch_writeResult (r : Reg) (v : Nat) : (s.writeResult r v).scratch = s.scratch := rfl
@[simp] theorem State.inputs_writeResult (r : Reg) (v : Nat) : (s.writeResult r v).inputs = s.inputs := rfl
@[simp] theorem State.rdata_writeResult (r : Reg) (v : Nat) : (s.writeResult r v).rdata = s.rdata := rfl
@[simp] theorem State.draws_writeResult (r : Reg) (v : Nat) : (s.writeResult r v).draws = s.draws := rfl
@[simp] theorem State.W_writeResult (r : Reg) (v : Nat) : (s.writeResult r v).W = s.W := rfl
@[simp] theorem State.maxLimbs_writeResult (r : Reg) (v : Nat) : (s.writeResult r v).maxLimbs = s.maxLimbs := rfl

/-! ### setRes -/

@[simp] theorem State.params_setRes (v : Nat) : (s.setRes v).params = s.params := rfl
@[simp] theorem State.regs_setRes (v : Nat) : (s.setRes v).regs = s.regs := rfl
@[simp] theorem State.ie_setRes (v : Nat) : (s.setRes v).ie = s.ie := rfl
@[simp] theorem State.busy_setRes (v : Nat) : (s.setRes v).busy = s.busy := rfl
@[simp] theorem State.done_setRes (v : Nat) : (s.setRes v).done = s.done := rfl
@[simp] theorem State.err_setRes (v : Nat) : (s.setRes v).err = s.err := rfl
@[simp] theorem State.lost_setRes (v : Nat) : (s.setRes v).lost = s.lost := rfl
@[simp] theorem State.werr_setRes (v : Nat) : (s.setRes v).werr = s.werr := rfl
@[simp] theorem State.cmd_setRes (v : Nat) : (s.setRes v).cmd = s.cmd := rfl
@[simp] theorem State.arg_setRes (v : Nat) : (s.setRes v).arg = s.arg := rfl
@[simp] theorem State.res_setRes (v : Nat) : (s.setRes v).res = wordOf s.W v := rfl
@[simp] theorem State.flagZ_setRes (v : Nat) : (s.setRes v).flagZ = s.flagZ := rfl
@[simp] theorem State.flagLT_setRes (v : Nat) : (s.setRes v).flagLT = s.flagLT := rfl
@[simp] theorem State.flagEQ_setRes (v : Nat) : (s.setRes v).flagEQ = s.flagEQ := rfl
@[simp] theorem State.scratch_setRes (v : Nat) : (s.setRes v).scratch = s.scratch := rfl
@[simp] theorem State.inputs_setRes (v : Nat) : (s.setRes v).inputs = s.inputs := rfl
@[simp] theorem State.rdata_setRes (v : Nat) : (s.setRes v).rdata = s.rdata := rfl
@[simp] theorem State.draws_setRes (v : Nat) : (s.setRes v).draws = s.draws := rfl
@[simp] theorem State.W_setRes (v : Nat) : (s.setRes v).W = s.W := rfl
@[simp] theorem State.maxLimbs_setRes (v : Nat) : (s.setRes v).maxLimbs = s.maxLimbs := rfl
@[simp] theorem State.len_setRes (v : Nat) (r : Reg) : (s.setRes v).len r = s.len r := rfl
@[simp] theorem State.limb_setRes (v : Nat) (r : Reg) (i : Nat) : (s.setRes v).limb r i = s.limb r i := rfl
@[simp] theorem State.val_setRes (v : Nat) (r : Reg) : (s.setRes v).val r = s.val r := rfl

/-! ### complete -/

@[simp] theorem State.params_complete (code : ErrCode) : (s.complete code).params = s.params := rfl
@[simp] theorem State.regs_complete (code : ErrCode) : (s.complete code).regs = s.regs := rfl
@[simp] theorem State.ie_complete (code : ErrCode) : (s.complete code).ie = s.ie := rfl
@[simp] theorem State.busy_complete (code : ErrCode) : (s.complete code).busy = false := rfl
@[simp] theorem State.done_complete (code : ErrCode) : (s.complete code).done = true := rfl
@[simp] theorem State.err_complete (code : ErrCode) : (s.complete code).err = code := rfl
@[simp] theorem State.lost_complete (code : ErrCode) : (s.complete code).lost = s.lost := rfl
@[simp] theorem State.werr_complete (code : ErrCode) : (s.complete code).werr = s.werr := rfl
@[simp] theorem State.cmd_complete (code : ErrCode) : (s.complete code).cmd = s.cmd := rfl
@[simp] theorem State.arg_complete (code : ErrCode) : (s.complete code).arg = s.arg := rfl
@[simp] theorem State.res_complete (code : ErrCode) : (s.complete code).res = s.res := rfl
@[simp] theorem State.flagZ_complete (code : ErrCode) : (s.complete code).flagZ = s.flagZ := rfl
@[simp] theorem State.flagLT_complete (code : ErrCode) : (s.complete code).flagLT = s.flagLT := rfl
@[simp] theorem State.flagEQ_complete (code : ErrCode) : (s.complete code).flagEQ = s.flagEQ := rfl
@[simp] theorem State.scratch_complete (code : ErrCode) : (s.complete code).scratch = s.scratch := rfl
@[simp] theorem State.inputs_complete (code : ErrCode) : (s.complete code).inputs = s.inputs := rfl
@[simp] theorem State.rdata_complete (code : ErrCode) : (s.complete code).rdata = s.rdata := rfl
@[simp] theorem State.draws_complete (code : ErrCode) : (s.complete code).draws = s.draws := rfl
@[simp] theorem State.W_complete (code : ErrCode) : (s.complete code).W = s.W := rfl
@[simp] theorem State.maxLimbs_complete (code : ErrCode) : (s.complete code).maxLimbs = s.maxLimbs := rfl
@[simp] theorem State.len_complete (code : ErrCode) (r : Reg) : (s.complete code).len r = s.len r := rfl
@[simp] theorem State.limb_complete (code : ErrCode) (r : Reg) (i : Nat) : (s.complete code).limb r i = s.limb r i := rfl
@[simp] theorem State.val_complete (code : ErrCode) (r : Reg) : (s.complete code).val r = s.val r := rfl

/-! ### acknowledge -/

@[simp] theorem State.params_acknowledge : (s.acknowledge).params = s.params := rfl
@[simp] theorem State.regs_acknowledge : (s.acknowledge).regs = s.regs := rfl
@[simp] theorem State.ie_acknowledge : (s.acknowledge).ie = s.ie := rfl
@[simp] theorem State.busy_acknowledge : (s.acknowledge).busy = s.busy := rfl
@[simp] theorem State.done_acknowledge : (s.acknowledge).done = false := rfl
@[simp] theorem State.err_acknowledge : (s.acknowledge).err = s.err := rfl
@[simp] theorem State.lost_acknowledge : (s.acknowledge).lost = s.lost := rfl
@[simp] theorem State.werr_acknowledge : (s.acknowledge).werr = s.werr := rfl
@[simp] theorem State.cmd_acknowledge : (s.acknowledge).cmd = s.cmd := rfl
@[simp] theorem State.arg_acknowledge : (s.acknowledge).arg = s.arg := rfl
@[simp] theorem State.res_acknowledge : (s.acknowledge).res = s.res := rfl
@[simp] theorem State.flagZ_acknowledge : (s.acknowledge).flagZ = s.flagZ := rfl
@[simp] theorem State.flagLT_acknowledge : (s.acknowledge).flagLT = s.flagLT := rfl
@[simp] theorem State.flagEQ_acknowledge : (s.acknowledge).flagEQ = s.flagEQ := rfl
@[simp] theorem State.scratch_acknowledge : (s.acknowledge).scratch = s.scratch := rfl
@[simp] theorem State.inputs_acknowledge : (s.acknowledge).inputs = s.inputs := rfl
@[simp] theorem State.rdata_acknowledge : (s.acknowledge).rdata = s.rdata := rfl
@[simp] theorem State.draws_acknowledge : (s.acknowledge).draws = s.draws := rfl
@[simp] theorem State.W_acknowledge : (s.acknowledge).W = s.W := rfl
@[simp] theorem State.maxLimbs_acknowledge : (s.acknowledge).maxLimbs = s.maxLimbs := rfl
@[simp] theorem State.len_acknowledge (r : Reg) : (s.acknowledge).len r = s.len r := rfl
@[simp] theorem State.limb_acknowledge (r : Reg) (i : Nat) : (s.acknowledge).limb r i = s.limb r i := rfl
@[simp] theorem State.val_acknowledge (r : Reg) : (s.acknowledge).val r = s.val r := rfl

/-! ### accept -/

@[simp] theorem State.params_accept (c : Word) : (s.accept c).params = s.params := rfl
@[simp] theorem State.regs_accept (c : Word) : (s.accept c).regs = s.regs := rfl
@[simp] theorem State.ie_accept (c : Word) : (s.accept c).ie = s.ie := rfl
@[simp] theorem State.busy_accept (c : Word) : (s.accept c).busy = true := rfl
@[simp] theorem State.done_accept (c : Word) : (s.accept c).done = false := rfl
@[simp] theorem State.err_accept (c : Word) : (s.accept c).err = ErrCode.none := rfl
@[simp] theorem State.lost_accept (c : Word) : (s.accept c).lost = s.lost := rfl
@[simp] theorem State.werr_accept (c : Word) : (s.accept c).werr = s.werr := rfl
@[simp] theorem State.cmd_accept (c : Word) : (s.accept c).cmd = c := rfl
@[simp] theorem State.arg_accept (c : Word) : (s.accept c).arg = s.arg := rfl
@[simp] theorem State.res_accept (c : Word) : (s.accept c).res = s.res := rfl
@[simp] theorem State.flagZ_accept (c : Word) : (s.accept c).flagZ = s.flagZ := rfl
@[simp] theorem State.flagLT_accept (c : Word) : (s.accept c).flagLT = s.flagLT := rfl
@[simp] theorem State.flagEQ_accept (c : Word) : (s.accept c).flagEQ = s.flagEQ := rfl
@[simp] theorem State.scratch_accept (c : Word) : (s.accept c).scratch = s.scratch := rfl
@[simp] theorem State.inputs_accept (c : Word) : (s.accept c).inputs = s.inputs := rfl
@[simp] theorem State.rdata_accept (c : Word) : (s.accept c).rdata = s.rdata := rfl
@[simp] theorem State.draws_accept (c : Word) : (s.accept c).draws = s.draws := rfl
@[simp] theorem State.W_accept (c : Word) : (s.accept c).W = s.W := rfl
@[simp] theorem State.maxLimbs_accept (c : Word) : (s.accept c).maxLimbs = s.maxLimbs := rfl
@[simp] theorem State.len_accept (c : Word) (r : Reg) : (s.accept c).len r = s.len r := rfl
@[simp] theorem State.limb_accept (c : Word) (r : Reg) (i : Nat) : (s.accept c).limb r i = s.limb r i := rfl
@[simp] theorem State.val_accept (c : Word) (r : Reg) : (s.accept c).val r = s.val r := rfl

/-! ### startEngine -/

@[simp] theorem State.params_startEngine : (s.startEngine).params = s.params := rfl
@[simp] theorem State.regs_startEngine : (s.startEngine).regs = s.regs := rfl
@[simp] theorem State.ie_startEngine : (s.startEngine).ie = s.ie := rfl
@[simp] theorem State.busy_startEngine : (s.startEngine).busy = s.busy := rfl
@[simp] theorem State.done_startEngine : (s.startEngine).done = s.done := rfl
@[simp] theorem State.err_startEngine : (s.startEngine).err = s.err := rfl
@[simp] theorem State.lost_startEngine : (s.startEngine).lost = s.lost := rfl
@[simp] theorem State.werr_startEngine : (s.startEngine).werr = s.werr := rfl
@[simp] theorem State.cmd_startEngine : (s.startEngine).cmd = s.cmd := rfl
@[simp] theorem State.arg_startEngine : (s.startEngine).arg = s.arg := rfl
@[simp] theorem State.res_startEngine : (s.startEngine).res = s.res := rfl
@[simp] theorem State.flagZ_startEngine : (s.startEngine).flagZ = s.flagZ := rfl
@[simp] theorem State.flagLT_startEngine : (s.startEngine).flagLT = s.flagLT := rfl
@[simp] theorem State.flagEQ_startEngine : (s.startEngine).flagEQ = s.flagEQ := rfl
@[simp] theorem State.scratch_startEngine : (s.startEngine).scratch = some (Config.freeScratch s.draws) := rfl
@[simp] theorem State.inputs_startEngine : (s.startEngine).inputs = s.inputs := rfl
@[simp] theorem State.rdata_startEngine : (s.startEngine).rdata = s.rdata := rfl
@[simp] theorem State.draws_startEngine : (s.startEngine).draws = s.draws + 1 := rfl
@[simp] theorem State.W_startEngine : (s.startEngine).W = s.W := rfl
@[simp] theorem State.maxLimbs_startEngine : (s.startEngine).maxLimbs = s.maxLimbs := rfl
@[simp] theorem State.len_startEngine (r : Reg) : (s.startEngine).len r = s.len r := rfl
@[simp] theorem State.limb_startEngine (r : Reg) (i : Nat) : (s.startEngine).limb r i = s.limb r i := rfl
@[simp] theorem State.val_startEngine (r : Reg) : (s.startEngine).val r = s.val r := rfl

/-! ### dropWrite -/

@[simp] theorem State.params_dropWrite : (s.dropWrite).params = s.params := rfl
@[simp] theorem State.regs_dropWrite : (s.dropWrite).regs = s.regs := rfl
@[simp] theorem State.ie_dropWrite : (s.dropWrite).ie = s.ie := rfl
@[simp] theorem State.busy_dropWrite : (s.dropWrite).busy = s.busy := rfl
@[simp] theorem State.done_dropWrite : (s.dropWrite).done = s.done := rfl
@[simp] theorem State.err_dropWrite : (s.dropWrite).err = s.err := rfl
@[simp] theorem State.lost_dropWrite : (s.dropWrite).lost = s.lost := rfl
@[simp] theorem State.werr_dropWrite : (s.dropWrite).werr = true := rfl
@[simp] theorem State.cmd_dropWrite : (s.dropWrite).cmd = s.cmd := rfl
@[simp] theorem State.arg_dropWrite : (s.dropWrite).arg = s.arg := rfl
@[simp] theorem State.res_dropWrite : (s.dropWrite).res = s.res := rfl
@[simp] theorem State.flagZ_dropWrite : (s.dropWrite).flagZ = s.flagZ := rfl
@[simp] theorem State.flagLT_dropWrite : (s.dropWrite).flagLT = s.flagLT := rfl
@[simp] theorem State.flagEQ_dropWrite : (s.dropWrite).flagEQ = s.flagEQ := rfl
@[simp] theorem State.scratch_dropWrite : (s.dropWrite).scratch = s.scratch := rfl
@[simp] theorem State.inputs_dropWrite : (s.dropWrite).inputs = s.inputs := rfl
@[simp] theorem State.rdata_dropWrite : (s.dropWrite).rdata = s.rdata := rfl
@[simp] theorem State.draws_dropWrite : (s.dropWrite).draws = s.draws := rfl
@[simp] theorem State.W_dropWrite : (s.dropWrite).W = s.W := rfl
@[simp] theorem State.maxLimbs_dropWrite : (s.dropWrite).maxLimbs = s.maxLimbs := rfl
@[simp] theorem State.len_dropWrite (r : Reg) : (s.dropWrite).len r = s.len r := rfl
@[simp] theorem State.limb_dropWrite (r : Reg) (i : Nat) : (s.dropWrite).limb r i = s.limb r i := rfl
@[simp] theorem State.val_dropWrite (r : Reg) : (s.dropWrite).val r = s.val r := rfl

/-! ### toReset -/

@[simp] theorem State.params_toReset : (s.toReset).params = s.params := rfl
@[simp] theorem State.regs_toReset : (s.toReset).regs = Vector.replicate 16 (BigReg.zero s.params.maxLimbs) := rfl
@[simp] theorem State.ie_toReset : (s.toReset).ie = false := rfl
@[simp] theorem State.busy_toReset : (s.toReset).busy = false := rfl
@[simp] theorem State.done_toReset : (s.toReset).done = false := rfl
@[simp] theorem State.err_toReset : (s.toReset).err = ErrCode.none := rfl
@[simp] theorem State.lost_toReset : (s.toReset).lost = false := rfl
@[simp] theorem State.werr_toReset : (s.toReset).werr = false := rfl
@[simp] theorem State.cmd_toReset : (s.toReset).cmd = 0 := rfl
@[simp] theorem State.arg_toReset : (s.toReset).arg = 0 := rfl
@[simp] theorem State.res_toReset : (s.toReset).res = 0 := rfl
@[simp] theorem State.flagZ_toReset : (s.toReset).flagZ = false := rfl
@[simp] theorem State.flagLT_toReset : (s.toReset).flagLT = false := rfl
@[simp] theorem State.flagEQ_toReset : (s.toReset).flagEQ = false := rfl
@[simp] theorem State.scratch_toReset : (s.toReset).scratch = none := rfl
@[simp] theorem State.inputs_toReset : (s.toReset).inputs = s.inputs := rfl
@[simp] theorem State.rdata_toReset : (s.toReset).rdata = s.rdata := rfl
@[simp] theorem State.draws_toReset : (s.toReset).draws = s.draws := rfl
@[simp] theorem State.W_toReset : (s.toReset).W = s.W := rfl
@[simp] theorem State.maxLimbs_toReset : (s.toReset).maxLimbs = s.maxLimbs := rfl

end Sys2Proof.Machine
end

