-- ==== Sys2Proof/Laws/Ops.lean ====
section
/-! SUPPORT. One lemma for each shared operation of Machine/Ops.lean, saying all it does: register writes, the result write, GROW's
register, and completion. -/

namespace Sys2Proof.Machine

/-! ### One register written -/

@[simp] theorem State.regs_setReg_self (s : State) (r : Reg) (b : BigReg) : (s.setReg r b).regs[r] = b := by
  simp

theorem State.regs_setReg_ne (s : State) {r r' : Reg} (b : BigReg) (h : r' ≠ r) : (s.setReg r b).regs[r'] = s.regs[r'] := by
  have : r.val ≠ r'.val := fun e => h (Fin.ext e.symm)
  simp [this]

theorem State.regs_writeB_self (s : State) (r : Reg) (v : Nat) :
    (s.writeB r v).regs[r] = ⟨clen s.W v, toLimbs s.W s.maxLimbs v⟩ := by
  simp

theorem State.regs_writeB_ne (s : State) {r r' : Reg} (v : Nat) (h : r' ≠ r) : (s.writeB r v).regs[r'] = s.regs[r'] :=
  s.regs_setReg_ne _ h

/-! ### Capacity -/

/-- The capacity check in bits: `clen(v) <= MAX_LIMBS` exactly when `v < 2**CAP_BITS` (R9, R24). -/
theorem State.clen_le_maxLimbs_iff {s : State} (h : s.params.Legal) (v : Nat) :
    clen s.W v ≤ s.maxLimbs ↔ v < 2 ^ s.params.capBits :=
  clen_le_iff s.W_pos (by have := h.1; unfold State.maxLimbs; omega) v

theorem State.fits_iff {s : State} (v : Nat) : s.fits v = true ↔ clen s.W v ≤ s.maxLimbs := by
  simp [State.fits]

/-- A register's value is below `2**(W*LEN)`, so it fits every register (R101: the write always fits). -/
theorem State.val_lt {s : State} (h : s.Inv) (r : Reg) : s.val r < 2 ^ (s.W * s.len r) := by
  obtain ⟨_, hregs, _⟩ := h
  obtain ⟨_, hle, hlen, hl⟩ := hregs r
  have := limbsValue_lt (w := s.W) (s.regs[r].limbs.take s.regs[r].len) fun l hm => hl l (List.mem_of_mem_take hm)
  rw [List.length_take, hlen, min_eq_left hle] at this
  exact this

theorem State.clen_val_le_len {s : State} (h : s.Inv) (r : Reg) : clen s.W (s.val r) ≤ s.len r :=
  (clen_le_iff s.W_pos (h.2.1 r).1 _).2 (s.val_lt h r)

theorem State.clen_val_le {s : State} (h : s.Inv) (r : Reg) : clen s.W (s.val r) ≤ s.maxLimbs :=
  (State.clen_val_le_len h r).trans (h.2.1 r).2.1

theorem State.val_lt_cap {s : State} (h : s.Inv) (r : Reg) : s.val r < 2 ^ s.params.capBits :=
  (State.clen_le_maxLimbs_iff h.1 _).1 (State.clen_val_le h r)

/-- A value no greater than a register's fits. -/
theorem State.clen_le_of_le_val {s : State} (h : s.Inv) {v : Nat} {r : Reg} (hv : v ≤ s.val r) : clen s.W v ≤ s.maxLimbs :=
  (clen_mono s.W_pos hv).trans (State.clen_val_le h r)

/-! ### The result write (R24) -/

/-- `val` after `WriteB(r, v)` is v, for a v that fits (R24). -/
theorem State.val_writeB_self {s : State} (r : Reg) {v : Nat} (hv : clen s.W v ≤ s.maxLimbs) :
    (s.writeB r v).val r = v := by
  simp only [State.val, State.regs_writeB_self, State.W_writeB]
  rw [toLimbs_take _ _ _ _ hv, limbsValue_toLimbs s.W_le, Nat.mod_eq_of_lt (lt_two_pow_clen s.W_pos v)]

theorem State.val_writeB_ne {s : State} {r r' : Reg} (v : Nat) (h : r' ≠ r) : (s.writeB r v).val r' = s.val r' := by
  simp only [State.val, State.regs_writeB_ne s v h, State.W_writeB]

theorem State.len_writeB_self (s : State) (r : Reg) (v : Nat) : (s.writeB r v).len r = clen s.W v := by
  simp only [State.len, State.regs_writeB_self]

theorem State.limb_writeB_self (s : State) (r : Reg) (v i : Nat) (hi : i < s.maxLimbs) :
    ((s.writeB r v).limb r i).toNat = v / 2 ^ (s.W * i) % 2 ^ s.W := by
  simp only [State.limb, State.regs_writeB_self]
  exact toLimbs_getD s.W_le _ _ _ hi

/-! ### Registers stay legal (R20): every operation that writes a register keeps its form -/

theorem BigReg.legal_zero (p : Params) (h : p.Legal) : (BigReg.zero p.maxLimbs).Legal p := by
  refine ⟨le_rfl, ?_, by simp [BigReg.zero], ?_⟩
  · have := h.1; simp only [BigReg.zero]; omega
  · intro l hl
    obtain rfl := List.eq_of_mem_replicate hl
    simp

theorem BigReg.legal_result (p : Params) (v : Nat) (hv : clen p.limbWidth.bits v ≤ p.maxLimbs) :
    (BigReg.mk (clen p.limbWidth.bits v) (toLimbs p.limbWidth.bits p.maxLimbs v)).Legal p :=
  ⟨clen_pos _ _, hv, toLimbs_length _ _ _, toLimbs_lt (by cases p.limbWidth <;> decide) _ _⟩

theorem BigReg.legal_setLen {p : Params} {b : BigReg} (h : b.Legal p) {n : Nat} (h1 : 1 ≤ n) (h2 : n ≤ p.maxLimbs) :
    (BigReg.mk n b.limbs).Legal p :=
  ⟨h1, h2, h.2.2.1, h.2.2.2⟩

theorem BigReg.legal_setLimb {p : Params} {b : BigReg} (h : b.Legal p) (i : Nat) {v : Word} (hv : v.toNat < 2 ^ p.limbWidth.bits) :
    (BigReg.mk b.len (b.limbs.set i v)).Legal p := by
  refine ⟨h.1, h.2.1, by simpa using h.2.2.1, fun l hl => ?_⟩
  rcases List.mem_or_eq_of_mem_set hl with hm | rfl
  · exact h.2.2.2 l hm
  · exact hv

theorem BigReg.legal_grow {p : Params} {b : BigReg} (h : b.Legal p) {n : Nat} (hn : n ≤ p.maxLimbs) : (b.grow n).Legal p := by
  obtain ⟨h1, h2, h3, h4⟩ := h
  unfold BigReg.grow
  split
  · refine ⟨by simp only; omega, hn, ?_, fun l hl => ?_⟩
    · simp only [List.length_append, List.length_take, List.length_replicate, List.length_drop, h3]; omega
    · simp only [List.mem_append, List.mem_replicate] at hl
      rcases hl with (hm | ⟨_, rfl⟩) | hm
      · exact h4 l (List.mem_of_mem_take hm)
      · simp
      · exact h4 l (List.mem_of_mem_drop hm)
  · exact ⟨h1, h2, h3, h4⟩

/-- GROW does not change the value (R103). -/
theorem BigReg.grow_value {p : Params} {b : BigReg} (h : b.Legal p) (w n : Nat) :
    limbsValue w ((b.grow n).limbs.take (b.grow n).len) = limbsValue w (b.limbs.take b.len) := by
  obtain ⟨_, h2, h3, _⟩ := h
  unfold BigReg.grow
  split
  · next hn =>
    have hlen : (b.limbs.take b.len ++ List.replicate (n - b.len) 0).length = n := by
      simp only [List.length_append, List.length_take, List.length_replicate, h3]; omega
    rw [List.take_append_of_le_length (by rw [hlen]), List.take_of_length_le (by rw [hlen]), limbsValue_append,
      limbsValue_replicate_zero]
    simp
  · rfl

/-! ### Completion (R181, R182) -/

theorem completion_ok (s s' : State) : completion s (.ok s') = .next (s'.complete .none) := rfl

theorem completion_error (s : State) (code : ErrCode) : completion s (.error code) = .next (s.complete code) := rfl

/-- All a completion can do: the rule's state with a success status, or the state before with an error status. -/
theorem completion_cases {s t : State} {rule : Except ErrCode State} (h : completion s rule = .next t) :
    (∃ s', rule = .ok s' ∧ t = s'.complete .none) ∨ ∃ code, rule = .error code ∧ t = s.complete code := by
  cases rule with
  | ok s' => exact .inl ⟨s', rfl, (Host.Outcome.next.inj h).symm⟩
  | error code => exact .inr ⟨code, rfl, (Host.Outcome.next.inj h).symm⟩

/-- A completion always answers a next state. -/
theorem completion_next (s : State) (rule : Except ErrCode State) : ∃ t, completion s rule = .next t := by
  cases rule with
  | ok s' => exact ⟨_, rfl⟩
  | error code => exact ⟨_, rfl⟩

/-- All `writeOrCapacity` can do (R24, R183). -/
theorem State.writeOrCapacity_eq (s : State) (d : Reg) (v : Nat) :
    s.writeOrCapacity d v = if clen s.W v ≤ s.maxLimbs then .ok (s.writeResult d v) else .error .capacity := by
  unfold State.writeOrCapacity
  by_cases h : clen s.W v ≤ s.maxLimbs <;> simp [State.fits, h]

end Sys2Proof.Machine
end

