-- ==== Sys2Proof/Laws/Exec.lean ====
section
/-! SUPPORT. All a command can do, said once: its effect is one of six shapes, or an error completion. -/

namespace Sys2Proof.Machine

/-- The shapes of a command's effect, before the completion's status is written. -/
inductive Effect (i : Instr) (s : State) : State → Prop where
  /-- No effect: NOP. -/
  | nothing (hi : i = .nop) : Effect i s s
  /-- A result write with Z. -/
  | result (d : Reg) (v : Nat) (hd : i.dest? = some d) (hr : writesRes i = false) (hv : s.Inv → clen s.W v ≤ s.maxLimbs) :
      Effect i s (s.writeResult d v)
  /-- RES written: BITLEN, BYTELEN, GETBIT, MRHO. -/
  | scalar (v : Nat) (hd : i.dest? = none) (hr : writesRes i = true) : Effect i s (s.setRes v)
  /-- LT and EQ written: CMP. -/
  | compare (a b : Reg) (hi : i = .cmp a b) : Effect i s (s.setCompare (s.val a) (s.val b))
  /-- LEN raised: GROW. -/
  | grown (d : Reg) (hi : i = .grow d) (hn : s.scalar ≤ s.maxLimbs) :
      Effect i s ((s.setReg d (s.regs[d].grow s.scalar)).setZ ((s.setReg d (s.regs[d].grow s.scalar)).val d))
  /-- A result write and RES: MULW. -/
  | both (d a : Reg) (hi : i = .mulw d a) (hv : clen s.W (s.val a * s.scalar) ≤ s.maxLimbs) :
      Effect i s ((s.writeResult d (s.val a * s.scalar)).setRes (s.val a * s.scalar / 2 ^ (s.W * clen s.W (s.val a))))

/-- Setting or clearing a bit below `W * LEN` keeps the value below `2**(W*LEN)` (R107: the new value always fits). -/
theorem setbit_fits {s : State} (h : s.Inv) (d : Reg) {p : Nat} (hp : p < s.W * s.len d) :
    clen s.W (s.val d + (1 - bitAt (s.val d) p) * 2 ^ p) ≤ s.maxLimbs := by
  refine le_trans ((clen_le_iff s.W_pos (h.2.1 d).1 _).2 ?_) (h.2.1 d).2.1
  have hv := s.val_lt h d
  have hsplit : s.val d / 2 ^ p < 2 ^ (s.W * s.len d - p) := by
    rw [Nat.div_lt_iff_lt_mul (by positivity), ← pow_add]
    convert hv using 2
    omega
  have hpow : 2 ^ (s.W * s.len d) = 2 ^ (s.W * s.len d - p) * 2 ^ p := by rw [← pow_add]; congr 1; omega
  have heven : 2 ^ (s.W * s.len d - p) % 2 = 0 := by
    obtain ⟨k, hk⟩ : ∃ k, s.W * s.len d - p = k + 1 := ⟨s.W * s.len d - p - 1, by omega⟩
    rw [hk, pow_succ]; omega
  have hval := Nat.div_add_mod (s.val d) (2 ^ p)
  have hmod := Nat.mod_lt (s.val d) (Nat.two_pow_pos p)
  rw [bitAt_eq]
  change _ < 2 ^ (s.W * s.len d)
  rcases Nat.mod_two_eq_zero_or_one (s.val d / 2 ^ p) with hb | hb
  · rw [hb, hpow]
    have : s.val d / 2 ^ p + 1 < 2 ^ (s.W * s.len d - p) + 0 := by omega
    have hmul := Nat.mul_le_mul_right (2 ^ p) (Nat.succ_le_of_lt this)
    have : s.val d / 2 ^ p * 2 ^ p + 2 * 2 ^ p ≤ 2 ^ (s.W * s.len d - p) * 2 ^ p := by
      calc s.val d / 2 ^ p * 2 ^ p + 2 * 2 ^ p = (s.val d / 2 ^ p + 1 + 1) * 2 ^ p := by ring
        _ ≤ _ := hmul
    rw [mul_comm] at hval
    omega
  · rw [hb]; simpa using hv

/-- Every command completes: its effect lands with a success status, or an error other than E_NONE and E_INTERNAL is
reported and nothing else changes (R181, R182, R155). -/
theorem exec_effect {i : Instr} {s t : State} (h : exec i s = .next t) :
    (∃ s', Effect i s s' ∧ t = s'.complete .none) ∨ ∃ c, c ≠ .none ∧ c ≠ .internal ∧ t = s.complete c := by
  have ok : ∀ {s' : State}, Effect i s s' → Host.Outcome.next (s'.complete .none) = Host.Outcome.next (φ := Fault) (ρ := Refusal) t →
      (∃ s', Effect i s s' ∧ t = s'.complete .none) ∨ ∃ c, c ≠ .none ∧ c ≠ .internal ∧ t = s.complete c :=
    fun he ht => .inl ⟨_, he, (Host.Outcome.next.inj ht).symm⟩
  have bad : ∀ (c : ErrCode), c ≠ .none → c ≠ .internal →
      Host.Outcome.next (s.complete c) = Host.Outcome.next (φ := Fault) (ρ := Refusal) t →
      (∃ s', Effect i s s' ∧ t = s'.complete .none) ∨ ∃ c, c ≠ .none ∧ c ≠ .internal ∧ t = s.complete c :=
    fun c h1 h2 ht => .inr ⟨c, h1, h2, (Host.Outcome.next.inj ht).symm⟩
  cases i with
  | nop => exact ok (.nothing rfl) h
  | mov d a => exact ok (.result d _ rfl rfl fun hi => s.clen_val_le hi a) h
  | clamp d => exact ok (.result d _ rfl rfl fun hi => s.clen_val_le hi d) h
  | grow d =>
    simp only [exec, execGrow] at h
    split at h
    · exact bad _ (by decide) (by decide) h
    · next hn => exact ok (.grown d rfl (by omega)) h
  | bitlen a => exact ok (.scalar _ rfl rfl) h
  | bytelen a => exact ok (.scalar _ rfl rfl) h
  | getbit a =>
    simp only [exec, execGetbit] at h
    split at h
    · exact bad _ (by decide) (by decide) h
    · exact ok (.scalar _ rfl rfl) h
  | setbit d v =>
    simp only [exec, execSetbit] at h
    split at h
    · exact bad _ (by decide) (by decide) h
    · next hp =>
      split at h
      · exact ok (.result d _ rfl rfl fun hi => setbit_fits hi d (by omega)) h
      · exact ok (.result d _ rfl rfl fun hi => s.clen_le_of_le_val hi (Nat.sub_le _ _)) h
  | cmp a b => exact ok (.compare a b rfl) h
  | shl d a =>
    simp only [exec, execShl] at h
    split at h
    · next hf =>
      refine ok (.result d _ rfl rfl fun hi => ?_) h
      rw [State.clen_le_maxLimbs_iff hi.1, shiftUp_eq]
      exact (shiftUpFits_iff _ _ _).1 hf
    · exact bad _ (by decide) (by decide) h
  | shr d a =>
    refine ok (.result d _ rfl rfl fun hi => s.clen_le_of_le_val (r := a) hi ?_) h
    rw [shiftDown_eq]; exact Nat.div_le_self _ _
  | addw d a =>
    simp only [exec, execAddw, State.writeOrCapacity_eq] at h
    split at h
    · next hf => exact ok (.result d _ rfl rfl fun _ => hf) h
    · exact bad _ (by decide) (by decide) h
  | subw d a =>
    simp only [exec, execSubw] at h
    split at h
    · exact bad _ (by decide) (by decide) h
    · exact ok (.result d _ rfl rfl fun hi => s.clen_le_of_le_val hi (Nat.sub_le _ _)) h
  | mulw d a =>
    simp only [exec, execMulw] at h
    split at h
    · next hf => exact ok (.both d a rfl ((State.fits_iff _).1 hf)) h
    · exact bad _ (by decide) (by decide) h
  | add d a b =>
    simp only [exec, execAdd, State.writeOrCapacity_eq] at h
    split at h
    · next hf => exact ok (.result d _ rfl rfl fun _ => hf) h
    · exact bad _ (by decide) (by decide) h
  | sub d a b =>
    simp only [exec, execSub] at h
    split at h
    · exact bad _ (by decide) (by decide) h
    · exact ok (.result d _ rfl rfl fun hi => s.clen_le_of_le_val hi (Nat.sub_le _ _)) h
  | mul d a b =>
    simp only [exec, execMul, State.writeOrCapacity_eq] at h
    split at h
    · next hf => exact ok (.result d _ rfl rfl fun _ => hf) h
    · exact bad _ (by decide) (by decide) h
  | div d a b =>
    simp only [exec, execDiv] at h
    split at h
    · exact bad _ (by decide) (by decide) h
    · exact ok (.result d _ rfl rfl fun hi => s.clen_le_of_le_val hi (Nat.div_le_self _ _)) h
  | rem d a b =>
    simp only [exec, execRem] at h
    split at h
    · exact bad _ (by decide) (by decide) h
    · exact ok (.result d _ rfl rfl fun hi => s.clen_le_of_le_val hi (Nat.mod_le _ _)) h
  | gcd d a b =>
    refine ok (.result d _ rfl rfl fun hi => ?_) h
    rcases Nat.eq_zero_or_pos (s.val a) with ha | ha
    · rw [ha, Nat.gcd_zero_left]; exact s.clen_val_le hi b
    · exact s.clen_le_of_le_val hi (Nat.gcd_le_left _ ha)
  | mrho m =>
    simp only [exec, execMrho] at h
    split at h
    · exact bad _ (by decide) (by decide) h
    · exact ok (.scalar _ rfl rfl) h
  | montmul d x y m =>
    simp only [exec, execMontmul] at h
    split at h
    · exact bad _ (by decide) (by decide) h
    · next hodd =>
      split at h
      · exact bad _ (by decide) (by decide) h
      · exact ok (.result d _ rfl rfl fun hi => s.clen_le_of_le_val (r := m) hi (Nat.mod_lt _ (by omega)).le) h
  | pow d b e =>
    simp only [exec, execPow, State.writeOrCapacity_eq] at h
    split at h
    · split at h
      · next hf => exact ok (.result d _ rfl rfl fun _ => hf) h
      · exact bad _ (by decide) (by decide) h
    · exact bad _ (by decide) (by decide) h
  | powmod d b e m =>
    simp only [exec, execPowmod] at h
    split at h
    · exact bad _ (by decide) (by decide) h
    · refine ok (.result d _ rfl rfl fun hi => s.clen_le_of_le_val (r := m) hi ?_) h
      rw [powMod_eq]; exact (Nat.mod_lt _ (by omega)).le

end Sys2Proof.Machine
end

