-- ==== Sys2Proof/Laws/Port.lean ====
section
/-! SUPPORT. One lemma for each port operation of Machine/Port.lean: the register a write reaches, what each write can do, and
what a read leaves alone. -/

namespace Sys2Proof.Machine

/-! ### The address map (R39) -/

/-- The map reads back the index of every register of it: indices and registers correspond (R39). -/
theorem portReg_index_len (maxLimbs : Nat) (r : Reg) : portReg maxLimbs (PortReg.len r).index = .len r := by
  have hr := r.isLt
  have h : (PortReg.len r).index.toNat = 0x10 + r.val := by
    simp only [PortReg.index, BitVec.toNat_ofNat]; omega
  simp only [portReg, h]
  rw [if_neg (by omega), if_pos (by omega)]
  congr 1
  apply Fin.ext
  simp only [Fin.val_ofNat]; omega

theorem portReg_index_limb {maxLimbs : Nat} (hm : maxLimbs ≤ 4096) (r : Reg) {i : Nat} (hi : i < maxLimbs) :
    portReg maxLimbs (PortReg.limb r i).index = .limb r i := by
  have hr := r.isLt
  have h : (PortReg.limb r i).index.toNat = 0x10000 + r.val * 0x1000 + i := by
    simp only [PortReg.index, BitVec.toNat_ofNat]; omega
  have hmod : (0x10000 + r.val * 0x1000 + i) % 0x1000 = i := by omega
  simp only [portReg, h, hmod]
  rw [if_pos (by omega), if_pos hi]
  congr 1
  apply Fin.ext
  simp only [Fin.val_ofNat]; omega

@[simp] theorem portReg_index_id (m : Nat) : portReg m PortReg.id.index = .id := rfl
@[simp] theorem portReg_index_ctrl (m : Nat) : portReg m PortReg.ctrl.index = .ctrl := rfl
@[simp] theorem portReg_index_status (m : Nat) : portReg m PortReg.status.index = .status := rfl
@[simp] theorem portReg_index_cmd (m : Nat) : portReg m PortReg.cmd.index = .cmd := rfl
@[simp] theorem portReg_index_arg (m : Nat) : portReg m PortReg.arg.index = .arg := rfl
@[simp] theorem portReg_index_res (m : Nat) : portReg m PortReg.res.index = .res := rfl
@[simp] theorem portReg_index_flags (m : Nat) : portReg m PortReg.flags.index = .flags := rfl

/-- A limb the map reaches is one of the MAX_LIMBS limbs (R38). -/
theorem portReg_limb_lt {maxLimbs : Nat} {k : PortIndex} {r : Reg} {i : Nat} (h : portReg maxLimbs k = .limb r i) : i < maxLimbs := by
  unfold portReg at h
  simp only at h
  split at h
  · split at h
    · next hlt => cases h; exact hlt
    · cases h
  · repeat' (split at h <;> try cases h)

/-! ### Writes -/

/-- All a host write can do, register by register (R32 to R39). -/
theorem portWrite_eq (k : PortIndex) (v : Word) (s : State) :
    portWrite k v s =
      match portReg s.maxLimbs k with
      | .ctrl => s.writeCtrl (wordOf s.W v.toNat)
      | .status => s.writeStatus (wordOf s.W v.toNat)
      | .cmd => s.writeCmd (wordOf s.W v.toNat)
      | .arg => s.writeArg (wordOf s.W v.toNat)
      | .len r => s.writeLen r (wordOf s.W v.toNat)
      | .limb r i => s.writeLimb r i (wordOf s.W v.toNat)
      | .id | .res | .flags | .reserved => s := by
  unfold portWrite
  cases portReg s.maxLimbs k <;> rfl

/-- CTRL is the word at index 0x00001 and nowhere else (R39). -/
theorem portReg_eq_ctrl {maxLimbs : Nat} {k : PortIndex} : portReg maxLimbs k = .ctrl ↔ k = 0x00001 := by
  refine ⟨fun h => ?_, fun h => h ▸ rfl⟩
  unfold portReg at h
  simp only at h
  repeat' (split at h <;> try cases h)
  exact BitVec.eq_of_toNat_eq ‹_›

/-- Bits 31:0 of port data enter at both widths. -/
theorem wordOf_getLsbD (s : State) (v : Word) {j : Nat} (hj : j < 32) : (wordOf s.W v.toNat).getLsbD j = v.getLsbD j := by
  have := s.W_ge
  rw [BitVec.getLsbD, wordOf_toNat s.W_le, Nat.testBit_mod_two_pow]
  simp [show j < s.W by omega, BitVec.getLsbD]

/-- While BUSY = 1, a write of CTRL with SRST = 1 is a reset, and every other write leaves the command and its operands (R201, R205). -/
theorem portWrite_busy {s : State} (hb : s.busy = true) (k : PortIndex) (v : Word) :
    ((k == 0x00001 && v.getLsbD 1) = true → portWrite k v s = s.toReset)
      ∧ ((k == 0x00001 && v.getLsbD 1) = false →
          (portWrite k v s).regs = s.regs ∧ (portWrite k v s).arg = s.arg ∧ (portWrite k v s).cmd = s.cmd
            ∧ (portWrite k v s).busy = true) := by
  refine ⟨fun h => ?_, fun h => ?_⟩
  · obtain ⟨rfl, hv⟩ : k = 0x00001 ∧ v.getLsbD 1 = true := by simpa using h
    have e : portWrite 0x00001 v s = s.writeCtrl (wordOf s.W v.toNat) := rfl
    rw [e, State.writeCtrl, wordOf_getLsbD s v (by omega), if_pos hv]
  · rw [portWrite_eq]
    split
    · next hc =>
      have hv : v.getLsbD 1 = false := by simpa [portReg_eq_ctrl.1 hc] using h
      rw [State.writeCtrl, wordOf_getLsbD s v (by omega), if_neg (by rw [hv]; decide)]
      exact ⟨rfl, rfl, rfl, hb⟩
    · unfold State.writeStatus State.acknowledge; split <;> exact ⟨rfl, rfl, rfl, hb⟩
    · unfold State.writeCmd; rw [if_pos hb]; exact ⟨rfl, rfl, rfl, hb⟩
    · unfold State.writeArg; rw [if_pos hb]; exact ⟨rfl, rfl, rfl, hb⟩
    · unfold State.writeLen; rw [if_pos hb]; exact ⟨rfl, rfl, rfl, hb⟩
    · unfold State.writeLimb; rw [if_pos hb]; exact ⟨rfl, rfl, rfl, hb⟩
    all_goals exact ⟨rfl, rfl, rfl, hb⟩

/-- A word that already has W bits enters the port unchanged. -/
theorem wordOf_eq_self {s : State} {v : Word} (hv : v.toNat < 2 ^ s.W) : wordOf s.W v.toNat = v := by
  apply BitVec.eq_of_toNat_eq
  rw [wordOf_toNat s.W_le, Nat.mod_eq_of_lt hv]

theorem wordOf_lt (s : State) (v : Nat) : (wordOf s.W v).toNat < 2 ^ s.W := by
  rw [wordOf_toNat s.W_le]; exact Nat.mod_lt _ (by positivity)

@[simp] theorem State.params_writeCtrl (s : State) (v : Word) : (s.writeCtrl v).params = s.params := by
  unfold State.writeCtrl; split <;> rfl

@[simp] theorem State.inputs_writeCtrl (s : State) (v : Word) : (s.writeCtrl v).inputs = s.inputs := by
  unfold State.writeCtrl; split <;> rfl

@[simp] theorem State.params_writeStatus (s : State) (v : Word) : (s.writeStatus v).params = s.params := by
  unfold State.writeStatus; split <;> rfl

@[simp] theorem State.inputs_writeStatus (s : State) (v : Word) : (s.writeStatus v).inputs = s.inputs := by
  unfold State.writeStatus; split <;> rfl

@[simp] theorem State.params_writeCmd (s : State) (v : Word) : (s.writeCmd v).params = s.params := by
  unfold State.writeCmd; split <;> rfl

@[simp] theorem State.inputs_writeCmd (s : State) (v : Word) : (s.writeCmd v).inputs = s.inputs := by
  unfold State.writeCmd; split <;> rfl

@[simp] theorem State.params_writeArg (s : State) (v : Word) : (s.writeArg v).params = s.params := by
  unfold State.writeArg; split <;> rfl

@[simp] theorem State.inputs_writeArg (s : State) (v : Word) : (s.writeArg v).inputs = s.inputs := by
  unfold State.writeArg; split <;> rfl

@[simp] theorem State.params_writeLen (s : State) (r : Reg) (v : Word) : (s.writeLen r v).params = s.params := by
  unfold State.writeLen; repeat' split
  all_goals rfl

@[simp] theorem State.inputs_writeLen (s : State) (r : Reg) (v : Word) : (s.writeLen r v).inputs = s.inputs := by
  unfold State.writeLen; repeat' split
  all_goals rfl

@[simp] theorem State.params_writeLimb (s : State) (r : Reg) (i : Nat) (v : Word) : (s.writeLimb r i v).params = s.params := by
  unfold State.writeLimb; split <;> rfl

@[simp] theorem State.inputs_writeLimb (s : State) (r : Reg) (i : Nat) (v : Word) : (s.writeLimb r i v).inputs = s.inputs := by
  unfold State.writeLimb; split <;> rfl

@[simp] theorem portWrite_params (k : PortIndex) (v : Word) (s : State) : (portWrite k v s).params = s.params := by
  rw [portWrite_eq]; split <;> simp

@[simp] theorem portWrite_inputs (k : PortIndex) (v : Word) (s : State) : (portWrite k v s).inputs = s.inputs := by
  rw [portWrite_eq]; split <;> simp

/-! ### Reads -/

/-- All a host read can do: the data read and the count of draws, nothing else (R67). -/
theorem portRead_eq (k : PortIndex) (s : State) :
    ∃ v n, portRead k s = { s with rdata := some v, draws := n } := by
  by_cases h : (s.busy && (portReg s.maxLimbs k).anyWhileBusy) = true
  · exact ⟨_, _, if_pos h⟩
  · exact ⟨_, s.draws, if_neg h⟩

@[simp] theorem portRead_params (k : PortIndex) (s : State) : (portRead k s).params = s.params := by
  obtain ⟨v, n, h⟩ := portRead_eq k s; rw [h]

@[simp] theorem portRead_inputs (k : PortIndex) (s : State) : (portRead k s).inputs = s.inputs := by
  obtain ⟨v, n, h⟩ := portRead_eq k s; rw [h]

@[simp] theorem portRead_busy (k : PortIndex) (s : State) : (portRead k s).busy = s.busy := by
  obtain ⟨v, n, h⟩ := portRead_eq k s; rw [h]

@[simp] theorem portRead_regs (k : PortIndex) (s : State) : (portRead k s).regs = s.regs := by
  obtain ⟨v, n, h⟩ := portRead_eq k s; rw [h]

/-! ### The byte bus (R62, R63, R65) -/

/-- All a bus read can do: the port read of its index, or a refusal. -/
theorem busRead_cases {addr size : Nat} {s t : State} (h : busRead addr size s = .next t) :
    ∃ k, busIndex s.params addr size = .ok k ∧ t = portRead k s := by
  unfold busRead at h
  split at h
  · next k hk => exact ⟨k, hk, (Host.Outcome.next.inj h).symm⟩
  · cases h

/-- All a bus write can do: the port write of its index, or a refusal. -/
theorem busWrite_cases {addr : Nat} {bytes : List Byte} {s t : State} (h : busWrite addr bytes s = .next t) :
    ∃ k, busIndex s.params addr bytes.length = .ok k ∧ t = portWrite k (BitVec.ofNat 64 (lanesValue bytes)) s := by
  unfold busWrite at h
  split at h
  · next k hk => exact ⟨k, hk, (Host.Outcome.next.inj h).symm⟩
  · cases h

/-- The byte address of word index k is `BASE_ADDR + k * (W/8)` (R62). -/
theorem busIndex_of_index {p : Params} (k : PortIndex) :
    busIndex p (p.baseAddr + k.toNat * p.wordBytes) p.wordBytes = .ok k := by
  have hk := k.isLt
  have hw : 0 < p.wordBytes := by unfold Params.wordBytes; cases p.limbWidth <;> decide
  have h1 : k.toNat * p.wordBytes < 2 ^ 17 * p.wordBytes := Nat.mul_lt_mul_of_pos_right hk hw
  unfold busIndex
  rw [if_neg (by simp), if_neg]
  · rw [Nat.add_sub_cancel_left, Nat.mul_div_cancel _ hw]
    simp
  · rw [Nat.add_sub_cancel_left, Nat.mul_mod_left]
    omega

/-- A bus transaction reaches word index k exactly when it moves W bits at that index's byte address (R62, R63, R65). -/
theorem busIndex_eq_ok {p : Params} {addr size : Nat} {k : PortIndex} :
    busIndex p addr size = .ok k ↔ size = p.wordBytes ∧ addr = p.baseAddr + k.toNat * p.wordBytes := by
  have hw : 0 < p.wordBytes := by unfold Params.wordBytes; cases p.limbWidth <;> decide
  refine ⟨fun h => ?_, fun ⟨hs, ha⟩ => by rw [hs, ha]; exact busIndex_of_index k⟩
  unfold busIndex at h
  split at h
  · cases h
  · next hs =>
    split at h
    · cases h
    · next ha =>
      cases h
      have hk : (addr - p.baseAddr) / p.wordBytes < 2 ^ 17 := by rw [Nat.div_lt_iff_lt_mul hw]; omega
      have hd := Nat.div_mul_cancel (Nat.dvd_of_mod_eq_zero (show (addr - p.baseAddr) % p.wordBytes = 0 by omega))
      refine ⟨by omega, ?_⟩
      rw [BitVec.toNat_ofNat, Nat.mod_eq_of_lt hk, hd]
      omega

/-- Bits 7:0 of a word that comes over the byte bus are in the byte of the lowest address (R62). -/
theorem lanesValue_getLsbD (bytes : List Byte) {j : Nat} (hj : j < 8) :
    (BitVec.ofNat 64 (lanesValue bytes)).getLsbD j = (bytes.getD 0 0).getLsbD j := by
  cases bytes with
  | nil => simp [lanesValue]
  | cons b bs =>
    simp only [BitVec.getLsbD, BitVec.toNat_ofNat, Nat.testBit_mod_two_pow, lanesValue, List.getD_cons_zero,
      show j < 64 by omega, decide_true, Bool.true_and]
    rw [Nat.add_comm, Nat.testBit_two_pow_mul_add _ b.isLt, if_pos hj]

end Sys2Proof.Machine
end

