-- ==== Sys2Proof/Laws/Inv.lean ====
section
/-! SUPPORT. Every operation on the state keeps the invariant of Safety.lean. -/

namespace Sys2Proof.Machine

variable {s : State}

theorem inv_setReg (h : s.Inv) (r : Reg) {b : BigReg} (hb : b.Legal s.params) : (s.setReg r b).Inv := by
  obtain ⟨hp, hr, hrest⟩ := h
  refine ⟨hp, fun r' => ?_, hrest⟩
  by_cases e : r' = r
  · subst e; rw [State.regs_setReg_self]; exact hb
  · rw [State.regs_setReg_ne s b e]; exact hr r'

theorem inv_setZ (h : s.Inv) (v : Nat) : (s.setZ v).Inv := h

theorem inv_writeResult (h : s.Inv) (r : Reg) {v : Nat} (hv : clen s.W v ≤ s.maxLimbs) : (s.writeResult r v).Inv :=
  inv_setZ (inv_setReg h r (BigReg.legal_result s.params v hv)) v

theorem inv_setRes (h : s.Inv) (v : Nat) : (s.setRes v).Inv := by
  obtain ⟨hp, hr, hc, ha, _, hrest⟩ := h
  exact ⟨hp, hr, hc, ha, wordOf_lt s v, hrest⟩

theorem inv_setCompare (h : s.Inv) (a b : Nat) : (s.setCompare a b).Inv := by
  obtain ⟨hp, hr, hc, ha, hres, hd, hb, _, he⟩ := h
  refine ⟨hp, hr, hc, ha, hres, hd, hb, ?_, he⟩
  simp only [State.flagLT_setCompare, State.flagEQ_setCompare, decide_eq_true_eq, beq_iff_eq]
  omega

theorem inv_complete (h : s.Inv) {c : ErrCode} (hc : c ≠ .internal) : (s.complete c).Inv := by
  obtain ⟨hp, hr, hcmd, ha, hres, hd, _, hf, _⟩ := h
  exact ⟨hp, hr, hcmd, ha, hres, hd, by simp, hf, hc⟩

theorem inv_grow (h : s.Inv) (d : Reg) {n : Nat} (hn : n ≤ s.maxLimbs) : (s.setReg d (s.regs[d].grow n)).Inv :=
  inv_setReg h d (BigReg.legal_grow (h.2.1 d) hn)

/-- Every command keeps the invariant. -/
theorem inv_exec (h : s.Inv) {i : Instr} {t : State} (ht : exec i s = .next t) : t.Inv := by
  rcases exec_effect ht with ⟨s', he, rfl⟩ | ⟨c, _, hc, rfl⟩
  · refine inv_complete ?_ (by decide)
    cases he with
    | nothing _ => exact h
    | result d v _ _ hv => exact inv_writeResult h d (hv h)
    | scalar v _ _ => exact inv_setRes h v
    | compare a b _ => exact inv_setCompare h _ _
    | grown d _ hn => exact inv_setZ (inv_grow h d hn) _
    | both d a _ hv => exact inv_setRes (inv_writeResult h d hv) _
  · exact inv_complete h hc

theorem inv_acknowledge (h : s.Inv) : s.acknowledge.Inv := by
  obtain ⟨hp, hr, hcmd, ha, hres, hd, hb, hf, he⟩ := h
  exact ⟨hp, hr, hcmd, ha, hres, hd, fun hbusy => ⟨rfl, (hb hbusy).2⟩, hf, he⟩

theorem inv_accept (h : s.Inv) {c : Word} (hc : c.toNat < 2 ^ s.W) : (s.accept c).Inv := by
  obtain ⟨hp, hr, _, ha, hres, hd, _, hf, _⟩ := h
  exact ⟨hp, hr, hc, ha, hres, hd, by simp, hf, by simp⟩

theorem inv_startEngine (h : s.Inv) : s.startEngine.Inv := h

theorem inv_dropWrite (h : s.Inv) : s.dropWrite.Inv := h

theorem inv_resetOf {p : Params} (hp : p.Legal) : (State.resetOf p).Inv := by
  have hw := (State.resetOf p).W_pos
  refine ⟨hp, fun r => ?_, ?_, ?_, ?_, ?_, by simp [State.resetOf], by simp [State.resetOf], by simp [State.resetOf]⟩
  · simpa [State.resetOf] using BigReg.legal_zero p hp
  all_goals simp [State.resetOf]

theorem inv_toReset (h : s.Inv) : s.toReset.Inv := by
  obtain ⟨hp, hr, hcmd, ha, hres, hd, hrest⟩ := h
  obtain ⟨_, hr', hcmd', ha', hres', _, hrest'⟩ := inv_resetOf hp
  exact ⟨hp, hr', hcmd', ha', hres', hd, hrest'⟩

theorem State.readReg_lt (h : s.Inv) (t : PortReg) : (s.readReg t).toNat < 2 ^ s.W := by
  obtain ⟨⟨hm1, hm2, _⟩, hr, hcmd, ha, hres, _⟩ := h
  have hW := s.W_ge
  have hW' := s.W_le
  have h32 : 2 ^ 32 ≤ 2 ^ s.W := Nat.pow_le_pow_right (by norm_num) hW
  have hmax : s.maxLimbs ≤ 4096 := hm2
  have small : ∀ n : Nat, n < 2 ^ 32 → (BitVec.ofNat 64 n).toNat < 2 ^ s.W := fun n hn => by
    rw [BitVec.toNat_ofNat]; omega
  have hbool : ∀ b : Bool, b.toNat ≤ 1 := fun b => by cases b <;> decide
  cases t with
  | id => exact small _ (by simp only [Config.version]; omega)
  | ctrl => exact small _ (by have := hbool s.ie; omega)
  | status =>
    have he : s.err.code ≤ 8 := by cases s.err <;> decide
    exact small _ (by have := hbool s.busy; have := hbool s.done; have := hbool s.lost; have := hbool s.werr; omega)
  | cmd => exact hcmd
  | arg => exact ha
  | res => exact hres
  | flags => exact small _ (by have := hbool s.flagZ; have := hbool s.flagLT; have := hbool s.flagEQ; omega)
  | len r =>
    have : s.len r ≤ s.maxLimbs := (hr r).2.1
    exact small _ (by omega)
  | limb r i =>
    change (s.regs[r].limbs.getD i 0).toNat < _
    by_cases hi : i < s.regs[r].limbs.length
    · rw [List.getD_eq_getElem _ _ hi]; exact (hr r).2.2.2 _ (List.getElem_mem hi)
    · rw [List.getD_eq_default _ _ (by omega)]; simp
  | reserved => simp [State.readReg]

theorem inv_portRead (h : s.Inv) (k : PortIndex) : (portRead k s).Inv := by
  have hread := s.readReg_lt h (portReg s.maxLimbs k)
  obtain ⟨hp, hr, hcmd, ha, hres, _, hrest⟩ := h
  by_cases hb : (s.busy && (portReg s.maxLimbs k).anyWhileBusy) = true
  · rw [show portRead k s = _ from if_pos hb]
    exact ⟨hp, hr, hcmd, ha, hres, wordOf_lt s _, hrest⟩
  · rw [show portRead k s = _ from if_neg hb]
    exact ⟨hp, hr, hcmd, ha, hres, hread, hrest⟩

theorem inv_writeStatus (h : s.Inv) (v : Word) : (s.writeStatus v).Inv := by
  have hk := inv_acknowledge h
  unfold State.writeStatus
  split
  · exact hk
  · exact h

/-- Every port write keeps the invariant. -/
theorem inv_portWrite (h : s.Inv) (k : PortIndex) (v : Word) : (portWrite k v s).Inv := by
  have hv := wordOf_lt s v.toNat
  rw [portWrite_eq]
  split
  · unfold State.writeCtrl; split
    · exact inv_toReset h
    · exact h
  · exact inv_writeStatus h _
  · unfold State.writeCmd; split
    · exact h
    · exact inv_startEngine (inv_accept h hv)
  · unfold State.writeArg; split
    · exact inv_dropWrite h
    · obtain ⟨hp, hr, hcmd, _, hrest⟩ := h
      exact ⟨hp, hr, hcmd, hv, hrest⟩
  · next r _ =>
    unfold State.writeLen
    split
    · exact inv_dropWrite h
    · split
      · exact inv_dropWrite h
      · next hlen => exact inv_setReg h r (BigReg.legal_setLen (h.2.1 r) (by omega) (by unfold State.maxLimbs at hlen; omega))
  · next r i _ =>
    unfold State.writeLimb; split
    · exact inv_dropWrite h
    · exact inv_setReg h r (BigReg.legal_setLimb (h.2.1 r) i hv)
  all_goals exact h

end Sys2Proof.Machine
end

