-- ==== Sys2Proof/Laws/PerInstr.lean ====
section
/-! SUPPORT. FieldsLegal: the fields of every command are a legal command word under its own opcode (R84 to R86). -/

namespace Sys2Proof.Laws.FieldsLegal

/-- The fields of a command name its opcode, are admitted by its format, and are legal as a word; the command is well formed. -/
def Statement (i : Instr) : Prop :=
  i.opcode.code = i.fields.opc ∧ i.opcode.format.admits i.fields = true ∧ i.fields.wellFormed = true ∧ i.wellFormed = true

/-- Legal fields from the opcode and the format. -/
theorem of_admits {i : Instr} (hc : i.opcode.code = i.fields.opc) (ha : i.opcode.format.admits i.fields = true) :
    Statement i := by
  refine ⟨hc, ha, ?_, ?_⟩
  · unfold Fields.wellFormed
    rw [List.any_eq_true]
    exact ⟨i.opcode, by cases i.opcode <;> decide, by simp [hc, ha]⟩
  · unfold Instr.wellFormed
    rw [List.all_eq_true]
    intro r _
    simp [Config.nreg, r.isLt]

theorem nop : Statement .nop := of_admits rfl rfl
theorem mov (d a : Reg) : Statement (.mov d a) := of_admits rfl rfl
theorem clamp (d : Reg) : Statement (.clamp d) := of_admits rfl rfl
theorem grow (d : Reg) : Statement (.grow d) := of_admits rfl rfl
theorem bitlen (a : Reg) : Statement (.bitlen a) := of_admits rfl rfl
theorem bytelen (a : Reg) : Statement (.bytelen a) := of_admits rfl rfl
theorem getbit (a : Reg) : Statement (.getbit a) := of_admits rfl rfl
theorem setbit (d : Reg) (v : Bool) : Statement (.setbit d v) := of_admits rfl rfl
theorem cmp (a b : Reg) : Statement (.cmp a b) := of_admits rfl rfl
theorem shl (d a : Reg) : Statement (.shl d a) := of_admits rfl rfl
theorem shr (d a : Reg) : Statement (.shr d a) := of_admits rfl rfl
theorem addw (d a : Reg) : Statement (.addw d a) := of_admits rfl rfl
theorem subw (d a : Reg) : Statement (.subw d a) := of_admits rfl rfl
theorem mulw (d a : Reg) : Statement (.mulw d a) := of_admits rfl rfl
theorem add (d a b : Reg) : Statement (.add d a b) := of_admits rfl rfl
theorem sub (d a b : Reg) : Statement (.sub d a b) := of_admits rfl rfl
theorem mul (d a b : Reg) : Statement (.mul d a b) := of_admits rfl rfl
theorem div (d a b : Reg) : Statement (.div d a b) := of_admits rfl rfl
theorem rem (d a b : Reg) : Statement (.rem d a b) := of_admits rfl rfl
theorem gcd (d a b : Reg) : Statement (.gcd d a b) := of_admits rfl rfl
theorem mrho (m : Reg) : Statement (.mrho m) := of_admits rfl rfl
theorem montmul (d x y m : Reg) : Statement (.montmul d x y m) := of_admits rfl rfl
theorem pow (d b e : Reg) : Statement (.pow d b e) := of_admits rfl rfl
theorem powmod (d b e m : Reg) : Statement (.powmod d b e m) := of_admits rfl rfl

end Sys2Proof.Laws.FieldsLegal
end

