-- ==== Sys2Proof/Laws/Results.lean ====
section
/-! SUPPORT. What each shape of completion leaves, in the terms of Safety.lean: a result write, a RES write, and an error; and the
decoding of a command's own word. -/

namespace Sys2Proof.Machine

/-- A completion after a state change that keeps everything but registers, RES and FLAGS (R181). -/
theorem succeeds_complete {s s' : State} (hp : s'.params = s.params) (hie : s'.ie = s.ie) (hl : s'.lost = s.lost)
    (hw : s'.werr = s.werr) (hc : s'.cmd = s.cmd) (ha : s'.arg = s.arg) (hs : s'.scratch = s.scratch)
    (hi : s'.inputs = s.inputs) (hr : s'.rdata = s.rdata) (hd : s'.draws = s.draws) : Succeeds s (s'.complete .none) :=
  ⟨rfl, rfl, rfl, hp, hie, hl, hw, hc, ha, hs, hi, hr, hd⟩

/-- The register write of a completion with a result that fits (R24, R26). -/
theorem holds_writeB {s t : State} {d : Reg} {v : Nat} (hv : clen s.W v ≤ s.maxLimbs) (hregs : t.regs = (s.writeB d v).regs)
    (hp : t.params = s.params) : Holds s t d v where
  len := by unfold State.len; rw [hregs]; exact s.len_writeB_self d v
  value := by
    have h := State.val_writeB_self d hv
    unfold State.val State.W at h ⊢
    rw [hregs, hp]; exact h
  limbs i hi := by
    have h := s.limb_writeB_self d v i hi
    unfold State.limb at h ⊢
    rw [hregs]; exact h
  count := by rw [hregs, State.regs_writeB_self]; exact toLimbs_length _ _ _
  others r hr := by rw [hregs]; exact s.regs_writeB_ne v hr

/-- A result write that fits, completed: all a command of that shape leaves. -/
theorem writesResult_complete {s : State} (d : Reg) {v : Nat} (hv : clen s.W v ≤ s.maxLimbs) :
    WritesResult s ((s.writeResult d v).complete .none) d v where
  succeeds := succeeds_complete rfl rfl rfl rfl rfl rfl rfl rfl rfl rfl
  dest := holds_writeB hv rfl rfl
  flagZ := by simp [State.writeResult, beq_eq_decide]
  flagLT := rfl
  flagEQ := rfl
  res := rfl

/-- A RES write of a W-bit number, completed. -/
theorem writesRes_complete {s : State} {v : Nat} (hv : v < 2 ^ s.W) : WritesRes s ((s.setRes v).complete .none) v where
  succeeds := succeeds_complete rfl rfl rfl rfl rfl rfl rfl rfl rfl rfl
  regs := rfl
  flagZ := rfl
  flagLT := rfl
  flagEQ := rfl
  res := by
    change (wordOf s.W v).toNat = v
    rw [wordOf_toNat s.W_le, Nat.mod_eq_of_lt hv]

/-- An error completion (R182). -/
theorem failsWith_complete (s : State) (code : ErrCode) : FailsWith s (s.complete code) code := rfl

/-- A rule that ends in `writeOrCapacity` writes its result where it fits. -/
theorem writeOrCapacity_fits {s : State} (d : Reg) {v : Nat} (hv : clen s.W v ≤ s.maxLimbs) :
    ∃ t, completion s (s.writeOrCapacity d v) = .next t ∧ WritesResult s t d v := by
  rw [State.writeOrCapacity_eq, if_pos hv]
  exact ⟨_, rfl, writesResult_complete d hv⟩

/-- A rule that ends in `writeOrCapacity` reports E_CAPACITY where its result does not fit. -/
theorem writeOrCapacity_overflows {s : State} (d : Reg) {v : Nat} (hv : s.maxLimbs < clen s.W v) :
    ∃ t, completion s (s.writeOrCapacity d v) = .next t ∧ FailsWith s t .capacity := by
  rw [State.writeOrCapacity_eq, if_neg (by omega)]
  exact ⟨_, rfl, failsWith_complete s _⟩

/-- The bound of RES for bit counts: `W * MAX_LIMBS` is below `2**W` (R104). -/
theorem State.bits_lt {s : State} (h : s.Inv) : s.W * s.maxLimbs < 2 ^ s.W := by
  have h2 : s.maxLimbs ≤ 4096 := h.1.2.1
  have : s.W = 32 ∨ s.W = 64 := by unfold State.W; cases s.params.limbWidth <;> simp [LimbWidth.bits]
  rcases this with hw | hw <;> rw [hw] <;> omega

/-- A value's bit length is at most `W * MAX_LIMBS` (R9). -/
theorem State.bitlen_val_le {s : State} (h : s.Inv) (r : Reg) : bitlen (s.val r) ≤ s.W * s.maxLimbs :=
  (bitlen_le_iff _ _).2 (s.val_lt_cap h r)

end Sys2Proof.Machine

namespace Sys2Proof

/-- The word of R81's formula is the word of its fields. -/
theorem commandWord_eq (opc : Fin 64) (rd rs1 rs2 rs3 : Reg) (v : Bool) :
    Machine.commandWord opc.val rd rs1 rs2 rs3 v = Fields.toWord ⟨opc, rd, rs1, rs2, rs3, 0, v⟩ := by
  have hv : v.toNat ≤ 1 := by cases v <;> decide
  apply BitVec.eq_of_toNat_eq
  rw [Fields.toWord_toNat]
  simp only [Machine.commandWord, BitVec.toNat_or, BitVec.toNat_shiftLeft, BitVec.toNat_ofNat, Nat.shiftLeft_eq]
  have cut : ∀ x k, x * 2 ^ k < 2 ^ 32 → x % 2 ^ 32 * 2 ^ k % 2 ^ 32 = x * 2 ^ k := fun x k h => by
    rw [Nat.mod_mul_mod, Nat.mod_eq_of_lt h]
  have h1 := opc.isLt
  have h2 := rd.isLt
  have h3 := rs1.isLt
  have h4 := rs2.isLt
  have h5 := rs3.isLt
  rw [cut opc.val 26 (by omega), cut rd.val 22 (by omega), cut rs1.val 18 (by omega), cut rs2.val 14 (by omega),
    cut rs3.val 10 (by omega), Nat.mod_eq_of_lt (show v.toNat < 2 ^ 32 by omega)]
  have or_add : ∀ (k z x y : Nat), x = 2 ^ k * z → y < 2 ^ k → x ||| y = x + y := by
    rintro k z _ y rfl hy
    rw [Nat.two_pow_add_eq_or_of_lt hy]
  rw [or_add 26 opc.val (opc.val * 2 ^ 26) (rd.val * 2 ^ 22) (by omega) (by omega),
    or_add 22 (opc.val * 2 ^ 4 + rd.val) (opc.val * 2 ^ 26 + rd.val * 2 ^ 22) (rs1.val * 2 ^ 18) (by omega) (by omega),
    or_add 18 (opc.val * 2 ^ 8 + rd.val * 2 ^ 4 + rs1.val) _ (rs2.val * 2 ^ 14) (by omega) (by omega),
    or_add 14 (opc.val * 2 ^ 12 + rd.val * 2 ^ 8 + rs1.val * 2 ^ 4 + rs2.val) _ (rs3.val * 2 ^ 10) (by omega) (by omega),
    or_add 10 (opc.val * 2 ^ 16 + rd.val * 2 ^ 12 + rs1.val * 2 ^ 8 + rs2.val * 2 ^ 4 + rs3.val) _ v.toNat (by omega) (by omega)]
  simp

/-- The fields of a command decode to it (R84, R85). -/
theorem decodeFields_fields (i : Instr) : decodeFields i.fields = some i := by
  cases i <;> rfl

end Sys2Proof
end

