-- ==== Sys2Proof/Laws/Units.lean ====
section
/-! SUPPORT. What one pass of each unit's loop does (R109, R143, R153, R161, R163, R165, R169): the loop lemmas the agreement of a
unit with its command rests on. -/

namespace Sys2Proof.Machine

/-! ### Comparison -/

/-- k limbs, most significant first, compare as the numbers they stand for. -/
theorem compareDown_eq {B : Nat} (hB : 0 < B) (a b k : Nat) : compareDown B a b k = compare (a % B ^ k) (b % B ^ k) := by
  induction k with
  | zero => simp [compareDown, Nat.mod_one]
  | succ k ih =>
    have split : ∀ x, x % B ^ (k + 1) = x % B ^ k + B ^ k * limbAt B x k := fun x => by
      rw [pow_succ, Nat.mod_mul, limbAt]
    have hpos : 0 < B ^ k := by positivity
    have ha := Nat.mod_lt a hpos
    have hb := Nat.mod_lt b hpos
    have step : ∀ {p q x y : Nat}, x < y → p < B ^ k → p + B ^ k * x < q + B ^ k * y := fun {p q x y} hxy hp => by
      have := Nat.mul_le_mul_left (B ^ k) (Nat.succ_le_of_lt hxy)
      rw [Nat.mul_succ] at this
      omega
    rw [split a, split b]
    unfold compareDown
    split
    · next h => exact (Nat.compare_eq_lt.2 (step h ha)).symm
    · split
      · next h => exact (Nat.compare_eq_gt.2 (step h hb)).symm
      · have heq : limbAt B a k = limbAt B b k := by omega
        rw [ih, heq]
        rcases lt_trichotomy (a % B ^ k) (b % B ^ k) with h | h | h
        · rw [Nat.compare_eq_lt.2 h, Nat.compare_eq_lt.2 (by omega)]
        · rw [h]; simp
        · rw [Nat.compare_eq_gt.2 h, Nat.compare_eq_gt.2 (by omega)]

/-! ### Adder and subtractor -/

theorem carryThrough_value (B : Nat) (ys : List Nat) (c : Nat) : natValue B (carryThrough B ys c) = natValue B ys + c := by
  induction ys generalizing c with
  | nil => simp [carryThrough, natValue]
  | cons y ys ih =>
    simp only [carryThrough, natValue, ih]
    have := Nat.div_add_mod (y + c) B
    nlinarith

/-- The carry runs through every limb and nothing is lost. -/
theorem addUnit_value (B : Nat) (xs ys : List Nat) (c : Nat) :
    natValue B (addUnit B xs ys c) = natValue B xs + natValue B ys + c := by
  fun_induction addUnit B xs ys c with
  | case1 ys c => simp [natValue, carryThrough_value]
  | case2 x xs c ih =>
    simp only [natValue, ih]
    have := Nat.div_add_mod (x + c) B
    nlinarith
  | case3 x xs y ys c ih =>
    simp only [natValue, ih]
    have := Nat.div_add_mod (x + y + c) B
    nlinarith

/-- Every limb of a carried operand is below B, where the carry in is. -/
theorem carryThrough_limbs {B : Nat} (ys : List Nat) (c : Nat) (hB : 1 < B) (hc : c < B) (hy : ∀ y ∈ ys, y < B) :
    (carryThrough B ys c).length = ys.length + 1 ∧ ∀ x ∈ carryThrough B ys c, x < B := by
  induction ys generalizing c with
  | nil => simp [carryThrough, hc]
  | cons y ys ih =>
    have hyb := hy y (by simp)
    have hcarry : (y + c) / B < B := by rw [Nat.div_lt_iff_lt_mul (by omega)]; nlinarith
    obtain ⟨h1, h2⟩ := ih _ hcarry fun z hz => hy z (by simp [hz])
    exact ⟨by simp [carryThrough, h1], by simpa [carryThrough] using ⟨Nat.mod_lt _ (by omega), h2⟩⟩

/-- The adder's limbs: one more than the longer operand, each below B. -/
theorem addUnit_limbs {B : Nat} (xs ys : List Nat) (c : Nat) (hB : 1 < B) (hc : c ≤ 1) (hx : ∀ x ∈ xs, x < B) (hy : ∀ y ∈ ys, y < B) :
    (addUnit B xs ys c).length = max xs.length ys.length + 1 ∧ ∀ x ∈ addUnit B xs ys c, x < B := by
  have carry : ∀ {t}, t < 2 * B → t / B ≤ 1 := fun {t} ht => by
    have : t / B < 2 := by rw [Nat.div_lt_iff_lt_mul (by omega)]; exact ht
    omega
  fun_induction addUnit B xs ys c with
  | case1 ys c => simpa using carryThrough_limbs ys c hB (by omega) hy
  | case2 x xs c ih =>
    have hxb := hx x (by simp)
    obtain ⟨h1, h2⟩ := ih (carry (by omega)) (fun z hz => hx z (by simp [hz])) hy
    exact ⟨by simpa using h1, by simpa using ⟨Nat.mod_lt _ (by omega), h2⟩⟩
  | case3 x xs y ys c ih =>
    have hxb := hx x (by simp)
    have hyb := hy y (by simp)
    obtain ⟨h1, h2⟩ := ih (carry (by omega)) (fun z hz => hx z (by simp [hz])) fun z hz => hy z (by simp [hz])
    exact ⟨by simp [h1], by simpa using ⟨Nat.mod_lt _ (by omega), h2⟩⟩

/-- One limb of a subtraction, over what the limbs above it give. -/
theorem subUnit_limb {B n d x y b c' r2 r1 vx vy : Nat} (h1 : x + B * c' = d + y + b) (hd : d < B)
    (h2 : vx + B ^ n * r2 = r1 + vy + c') (h3 : r1 < B ^ n) :
    x + B * vx + B ^ (n + 1) * r2 = d + B * r1 + (y + B * vy) + b ∧ d + B * r1 < B ^ (n + 1) := by
  have hm := congrArg (B * ·) h2
  simp only [Nat.mul_add] at hm
  have hp : B ^ (n + 1) * r2 = B * (B ^ n * r2) := by rw [pow_succ]; ring
  refine ⟨by rw [hp]; omega, ?_⟩
  have := Nat.mul_le_mul_left B (Nat.succ_le_of_lt h3)
  rw [Nat.mul_succ] at this
  rw [pow_succ, mul_comm (B ^ n) B]
  omega

theorem borrowThrough_value {B : Nat} (hB : 0 < B) (ys : List Nat) (c : Nat) (hc : c ≤ 1) (hy : ∀ y ∈ ys, y < B) :
    B ^ ys.length * (borrowThrough B ys c).2 = natValue B (borrowThrough B ys c).1 + natValue B ys + c
      ∧ (borrowThrough B ys c).2 ≤ 1
      ∧ natValue B (borrowThrough B ys c).1 < B ^ ys.length := by
  induction ys generalizing c with
  | nil => simp [borrowThrough, natValue]; omega
  | cons y ys ih =>
    have hyb : y < B := hy y (by simp)
    have key : 0 + B * (if y + c = 0 then 0 else 1) = (B - (y + c)) % B + y + c := by
      split
      · next h0 => simp [show y = 0 by omega, show c = 0 by omega]
      · next h0 => rw [Nat.mod_eq_of_lt (by omega)]; omega
    obtain ⟨h1, h2, h3⟩ := ih (if y + c = 0 then 0 else 1) (by split <;> omega) fun z hz => hy z (by simp [hz])
    have := subUnit_limb (vx := 0) key (Nat.mod_lt _ hB) (by rw [Nat.zero_add]; exact h1) h3
    exact ⟨by simpa only [borrowThrough, natValue, List.length_cons, Nat.mul_zero, Nat.zero_add] using this.1, h2, this.2⟩

/-- The borrow runs through every limb: the difference, less one weight above the top limb for each borrow out. -/
theorem subUnit_value {B : Nat} (hB : 0 < B) (xs ys : List Nat) (c : Nat) (hc : c ≤ 1)
    (hx : ∀ x ∈ xs, x < B) (hy : ∀ y ∈ ys, y < B) :
    natValue B xs + B ^ (max xs.length ys.length) * (subUnit B xs ys c).2 = natValue B (subUnit B xs ys c).1 + natValue B ys + c
      ∧ (subUnit B xs ys c).2 ≤ 1
      ∧ natValue B (subUnit B xs ys c).1 < B ^ (max xs.length ys.length) := by
  fun_induction subUnit B xs ys c with
  | case1 ys c => simpa [natValue] using borrowThrough_value hB ys c hc hy
  | case2 x xs c r ih =>
    have hxb : x < B := hx x (by simp)
    obtain ⟨h1, h2, h3⟩ := ih (by split <;> omega) (fun z hz => hx z (by simp [hz])) hy
    have key : x + B * (if x < c then 1 else 0) = (x + B - c) % B + 0 + c := by
      split
      · next h0 => rw [Nat.mod_eq_of_lt (by omega)]; omega
      · next h0 =>
        rw [show x + B - c = x - c + B by omega, Nat.add_mod_right, Nat.mod_eq_of_lt (by omega)]; omega
    have := subUnit_limb key (Nat.mod_lt _ hB) h1 h3
    exact ⟨by simpa [natValue] using this.1, h2, by simpa [natValue] using this.2⟩
  | case3 x xs y ys c r ih =>
    have hxb : x < B := hx x (by simp)
    have hyb : y < B := hy y (by simp)
    obtain ⟨h1, h2, h3⟩ := ih (by split <;> omega) (fun z hz => hx z (by simp [hz])) fun z hz => hy z (by simp [hz])
    have hmax : max (x :: xs).length (y :: ys).length = max xs.length ys.length + 1 := by simp only [List.length_cons]; omega
    have key : x + B * (if x < y + c then 1 else 0) = (x + B - (y + c)) % B + y + c := by
      split
      · next h0 => rw [Nat.mod_eq_of_lt (by omega)]; omega
      · next h0 =>
        rw [show x + B - (y + c) = x - (y + c) + B by omega, Nat.add_mod_right, Nat.mod_eq_of_lt (by omega)]; omega
    have := subUnit_limb key (Nat.mod_lt _ hB) h1 h3
    rw [hmax]
    exact ⟨by simpa only [natValue] using this.1, h2, by simpa only [natValue] using this.2⟩

/-- The borrowed limbs: as many as the subtrahend has, each below B. -/
theorem borrowThrough_limbs {B : Nat} (hB : 0 < B) (ys : List Nat) (c : Nat) :
    (borrowThrough B ys c).1.length = ys.length ∧ ∀ x ∈ (borrowThrough B ys c).1, x < B := by
  induction ys generalizing c with
  | nil => simp [borrowThrough]
  | cons y ys ih =>
    obtain ⟨h1, h2⟩ := ih (if y + c = 0 then 0 else 1)
    exact ⟨by simp only [borrowThrough, List.length_cons, h1],
      by simp only [borrowThrough, List.forall_mem_cons]; exact ⟨Nat.mod_lt _ hB, h2⟩⟩

/-- The subtractor's limbs: as many as the longer operand has, each below B. -/
theorem subUnit_limbs {B : Nat} (hB : 0 < B) (xs ys : List Nat) (c : Nat) :
    (subUnit B xs ys c).1.length = max xs.length ys.length ∧ ∀ x ∈ (subUnit B xs ys c).1, x < B := by
  fun_induction subUnit B xs ys c with
  | case1 ys c => simpa using borrowThrough_limbs hB ys c
  | case2 x xs c r ih =>
    exact ⟨by simpa using ih.1, by simpa using ⟨Nat.mod_lt _ hB, ih.2⟩⟩
  | case3 x xs y ys c r ih =>
    exact ⟨by simpa using ih.1, by simpa using ⟨Nat.mod_lt _ hB, ih.2⟩⟩

/-! ### Multiplier -/

@[simp] theorem mulRow_length (B a : Nat) (bs acc : List Nat) (c : Nat) : (mulRow B a bs acc c).length = bs.length + 1 := by
  induction bs generalizing acc c with
  | nil => rfl
  | cons b bs ih => simp [mulRow, ih]

/-- The inner loop adds `a * b` into the accumulator, with its carry. -/
theorem mulRow_value (B a : Nat) (bs acc : List Nat) (c : Nat) (hl : acc.length = bs.length) :
    natValue B (mulRow B a bs acc c) = natValue B acc + a * natValue B bs + c := by
  induction bs generalizing acc c with
  | nil =>
    obtain rfl : acc = [] := List.eq_nil_of_length_eq_zero hl
    simp [mulRow, natValue]
  | cons b bs ih =>
    cases acc with
    | nil => simp at hl
    | cons x xs =>
      simp only [List.length_cons, Nat.add_right_cancel_iff] at hl
      simp only [mulRow, natValue, List.headD_cons, List.tail_cons, ih xs _ hl]
      have := Nat.div_add_mod (x + a * b + c) B
      nlinarith

/-- The outer loop: the product added to what the accumulator held. -/
theorem mulLoop_value (B : Nat) (as bs acc : List Nat) (hl : acc.length = bs.length) :
    natValue B (mulLoop B as bs acc) = natValue B as * natValue B bs + natValue B acc := by
  induction as generalizing acc with
  | nil => simp [mulLoop, natValue]
  | cons a as ih =>
    have hrow := mulRow_value B a bs acc 0 hl
    have hlen := mulRow_length B a bs acc 0
    rcases hr : mulRow B a bs acc 0 with _ | ⟨r, rs⟩
    · rw [hr] at hlen; simp at hlen
    · rw [hr] at hrow hlen
      simp only [List.length_cons, Nat.add_right_cancel_iff] at hlen
      simp only [mulLoop, hr, natValue, List.headD_cons, List.tail_cons, ih rs hlen] at hrow ⊢
      nlinarith

theorem mulLoop_length (B : Nat) (as bs acc : List Nat) (hl : acc.length = bs.length) :
    (mulLoop B as bs acc).length = as.length + bs.length := by
  induction as generalizing acc with
  | nil => simpa [mulLoop] using hl
  | cons a as ih =>
    simp only [mulLoop, List.length_cons]
    rw [ih _ (by simp)]
    omega

/-! ### Long division -/

/-- The limbs at and above position k of a number below `B**(k+2)`. -/
theorem two_limbs {B x k : Nat} (hB : 0 < B) (hx : x < B ^ (k + 2)) :
    limbAt B x (k + 1) * B + limbAt B x k = x / B ^ k := by
  have h1 : x / B ^ (k + 1) = x / B ^ k / B := by rw [Nat.div_div_eq_div_mul, pow_succ]
  have h2 : x / B ^ k < B * B := by
    rw [Nat.div_lt_iff_lt_mul (by positivity)]
    calc x < B ^ (k + 2) := hx
      _ = B * B * B ^ k := by ring
  have h3 : x / B ^ k / B < B := Nat.div_lt_of_lt_mul h2
  have := Nat.div_add_mod (x / B ^ k) B
  rw [limbAt, limbAt, h1, Nat.mod_eq_of_lt h3, mul_comm]
  exact this

/-- Knuth's bound on the first estimate: never below the true limb, and at most 2 above it. -/
theorem estimate_bounds {B n v T : Nat} (hB : 2 ≤ B) (hn : 1 ≤ n) (hnorm : B ^ n ≤ 2 * v) (hT : T < v * B) :
    T / v ≤ min (T / B ^ (n - 1) / (v / B ^ (n - 1))) (B - 1)
      ∧ min (T / B ^ (n - 1) / (v / B ^ (n - 1))) (B - 1) ≤ T / v + 2 := by
  set D := B ^ (n - 1) with hD
  have hDpos : 0 < D := by positivity
  have hBn : B ^ n = D * B := by rw [hD, ← pow_succ]; congr 1; omega
  have hDv : D ≤ v := by
    have : D * 2 ≤ D * B := Nat.mul_le_mul_left _ hB
    omega
  have hvpos : 0 < v := by omega
  set v1 := v / D with hv1
  have hv1pos : 0 < v1 := Nat.div_pos hDv hDpos
  have hv1le : v1 * D ≤ v := Nat.div_mul_le_self v D
  have hv1lt : v < v1 * D + D := by
    have := Nat.lt_div_mul_add hDpos (a := v); rw [← hv1] at this; exact this
  have hqB : T / v ≤ B - 1 := by
    have : T / v < B := Nat.div_lt_of_lt_mul hT
    omega
  constructor
  · refine le_min ?_ hqB
    rw [Nat.div_div_eq_div_mul, mul_comm D v1]
    exact Nat.div_le_div_left hv1le (by positivity)
  · set q := min (T / D / v1) (B - 1) with hq
    have hq1 : q ≤ T / D / v1 := min_le_left _ _
    have hq2 : q ≤ B - 1 := min_le_right _ _
    have hqT : q * (v1 * D) ≤ T := by
      have h1 : q * v1 ≤ T / D := (Nat.le_div_iff_mul_le hv1pos).1 hq1
      have h2 : q * v1 * D ≤ T := (Nat.le_div_iff_mul_le hDpos).1 h1
      rw [← mul_assoc]; exact h2
    by_contra hlt
    have hge : T / v + 3 ≤ q := by omega
    have hTv : T < v * (T / v + 1) := by
      have := Nat.div_add_mod T v
      have := Nat.mod_lt T hvpos
      rw [Nat.mul_succ]; omega
    -- q * v < T + 2 * v, against q >= T / v + 3
    have h1 : q * v ≤ q * (v1 * D) + q * D := by
      rw [← Nat.mul_add]; exact Nat.mul_le_mul_left _ hv1lt.le
    have h2 : q * D ≤ (B - 1) * D := Nat.mul_le_mul_right _ hq2
    have h3 : (B - 1) * D + D = D * B := by
      rw [← Nat.succ_mul, mul_comm]; congr 1; omega
    have h4 : v * (T / v + 1) + 2 * v ≤ q * v := by
      calc v * (T / v + 1) + 2 * v = (T / v + 3) * v := by ring
        _ ≤ q * v := Nat.mul_le_mul_right _ hge
    omega

/-- The correction loop stops at the first estimate that passes, and needs no more decrements than the first estimate is
above a passing value. -/
theorem correctEstimate_spec {d t cap q p : Nat} (hp : p * d ≤ t) (hpq : p ≤ q) (hcap : q ≤ p + cap) :
    ∃ r, correctEstimate d t cap q = some r ∧ p ≤ r ∧ r ≤ q ∧ r * d ≤ t := by
  induction cap generalizing q with
  | zero =>
    have : q = p := by omega
    subst this
    exact ⟨q, by simp [correctEstimate, hp], le_rfl, le_rfl, hp⟩
  | succ cap ih =>
    unfold correctEstimate
    split
    · next h =>
      have hne : p ≠ q := fun e => by subst e; omega
      obtain ⟨r, h1, h2, h3, h4⟩ := ih (q := q - 1) (by omega) (by omega)
      exact ⟨r, h1, h2, by omega, h4⟩
    · next h => exact ⟨q, rfl, hpq, le_rfl, by omega⟩

/-- The three limbs of a window at and above position k. -/
theorem three_limbs {B x k : Nat} (hB : 0 < B) (hx : x < B ^ (k + 3)) :
    limbAt B x (k + 2) * B ^ 2 + limbAt B x (k + 1) * B + limbAt B x k = x / B ^ k := by
  have h1 : limbAt B x (k + 2) * B + limbAt B x (k + 1) = x / B ^ (k + 1) := two_limbs hB hx
  have h2 : x / B ^ (k + 1) = x / B ^ k / B := by rw [Nat.div_div_eq_div_mul, pow_succ]
  have h3 := Nat.div_add_mod (x / B ^ k) B
  rw [limbAt.eq_def B x k, ← h3, ← h2, ← h1]
  rw [Nat.mul_add_mod]
  ring_nf
  simp

/-- Shifting a number down by whole limbs shifts its limbs. -/
theorem limbAt_div (B x j k : Nat) : limbAt B x (j + k) = limbAt B (x / B ^ j) k := by
  rw [limbAt, limbAt, Nat.div_div_eq_div_mul, ← pow_add]

/-- One quotient limb (R153 step 3): with a normalized divisor of n limbs and a working remainder below `v * B**(j+1)`,
the correction cap is not exceeded and the limb and the new remainder are exact. -/
theorem divStep_spec {B n v u j : Nat} (hB : 2 ≤ B) (hn : 1 ≤ n) (hv : v < B ^ n) (hnorm : B ^ n ≤ 2 * v)
    (hu : u < v * B ^ (j + 1)) :
    ∃ q r, divStep B n v u j = some (q, r) ∧ u = q * v * B ^ j + r ∧ r < v * B ^ j := by
  have hBpos : 0 < B := by omega
  have hvpos : 0 < v := by
    have : 0 < B ^ n := by positivity
    omega
  have hBj : 0 < B ^ j := by positivity
  set T := u / B ^ j with hTdef
  have hT : T < v * B := by
    rw [hTdef, Nat.div_lt_iff_lt_mul hBj]
    calc u < v * B ^ (j + 1) := hu
      _ = v * B * B ^ j := by ring
  have hTn : T < B ^ (n + 1) := by
    calc T < v * B := hT
      _ ≤ B ^ n * B := Nat.mul_le_mul_right _ hv.le
      _ = B ^ (n + 1) := (pow_succ B n).symm
  have huT : T * B ^ j + u % B ^ j = u := by
    rw [mul_comm]; exact Nat.div_add_mod u (B ^ j)
  have hmodlt : u % B ^ j < B ^ j := Nat.mod_lt _ hBj
  set qs := T / v with hqs
  have hqsv : qs * v ≤ T := Nat.div_mul_le_self T v
  have hqs1 : T < qs * v + v := by
    have := Nat.lt_div_mul_add hvpos (a := T); exact this
  -- the estimate is the true limb or one above it
  have hest : ∃ q, estimate B n v u j = some q ∧ qs ≤ q ∧ q ≤ qs + 1 := by
    have hbounds := estimate_bounds hB hn hnorm hT
    have hv1 : limbAt B v (n - 1) = v / B ^ (n - 1) := by
      rw [limbAt, Nat.mod_eq_of_lt]
      rw [Nat.div_lt_iff_lt_mul (by positivity), ← pow_succ']
      rwa [show n - 1 + 1 = n by omega]
    have hu12 : limbAt B u (j + n) * B + limbAt B u (j + n - 1) = T / B ^ (n - 1) := by
      rw [show j + n - 1 = j + (n - 1) by omega, limbAt_div, limbAt_div B u j (n - 1), ← hTdef]
      have := two_limbs hBpos (x := T) (k := n - 1) (by rwa [show n - 1 + 2 = n + 1 by omega])
      rwa [show n - 1 + 1 = n by omega] at this
    unfold estimate
    simp only [hv1, hu12]
    set q0 := min (T / B ^ (n - 1) / (v / B ^ (n - 1))) (B - 1) with hq0
    split
    · next h2 =>
      obtain ⟨k, rfl⟩ : ∃ k, n = k + 2 := ⟨n - 2, by omega⟩
      have hd : v / B ^ (k + 2 - 1) * B + limbAt B v (k + 2 - 2) = v / B ^ k := by
        have := two_limbs hBpos (x := v) (k := k) hv
        rw [show k + 2 - 2 = k by omega, ← this, ← hv1]
        rfl
      have ht : limbAt B u (j + (k + 2)) * B ^ 2 + limbAt B u (j + (k + 2) - 1) * B + limbAt B u (j + (k + 2) - 2) = T / B ^ k := by
        have := three_limbs hBpos (x := T) (k := k) hTn
        rw [show j + (k + 2) - 1 = j + (k + 1) by omega, show j + (k + 2) - 2 = j + k by omega, limbAt_div, limbAt_div B u j (k + 1),
          limbAt_div B u j k, ← hTdef, this]
      rw [hd, ht]
      have hBk : 0 < B ^ k := by positivity
      have hqd : qs * (v / B ^ k) ≤ T / B ^ k := by
        rw [Nat.le_div_iff_mul_le hBk, mul_assoc]
        exact le_trans (Nat.mul_le_mul_left _ (Nat.div_mul_le_self _ _)) hqsv
      obtain ⟨r, hr1, hr2, hr3, hr4⟩ := correctEstimate_spec (cap := 2) hqd hbounds.1 hbounds.2
      refine ⟨r, hr1, hr2, ?_⟩
      -- r * v < T + v
      have hrB : r ≤ B - 1 := hr3.trans (min_le_right _ _)
      have h1 : r * (v / B ^ k) * B ^ k ≤ T := (Nat.le_div_iff_mul_le hBk).1 hr4
      have h2 : v ≤ v / B ^ k * B ^ k + B ^ k := (Nat.lt_div_mul_add hBk).le
      have h3 : r * v ≤ r * (v / B ^ k) * B ^ k + r * B ^ k := by
        calc r * v ≤ r * (v / B ^ k * B ^ k + B ^ k) := Nat.mul_le_mul_left _ h2
          _ = _ := by ring
      have h4 : r * B ^ k < v := by
        have hlt : r * B ^ k < B * B ^ k := Nat.mul_lt_mul_of_pos_right (by omega) hBk
        have hle : B * B ^ k * 2 ≤ B ^ (k + 2) := by
          calc B * B ^ k * 2 ≤ B * B ^ k * B := Nat.mul_le_mul_left _ hB
            _ = B ^ (k + 2) := by ring
        omega
      by_contra hlt
      have : (qs + 2) * v ≤ r * v := Nat.mul_le_mul_right _ (by omega)
      have : (qs + 2) * v = qs * v + v + v := by ring
      omega
    · next h2 =>
      have : n = 1 := by omega
      subst this
      refine ⟨q0, rfl, hbounds.1, ?_⟩
      have : q0 ≤ T / B ^ (1 - 1) / (v / B ^ (1 - 1)) := min_le_left _ _
      simp only [Nat.sub_self, pow_zero, Nat.div_one] at this
      omega
  obtain ⟨q, hq, hlo, hhi⟩ := hest
  have hwin : T % B ^ (n + 1) = T := Nat.mod_eq_of_lt hTn
  have hTle : T * B ^ j ≤ u := Nat.le.intro huT
  unfold divStep
  rw [hq]
  simp only [Option.map_some, ← hTdef, hwin]
  have hfin : ∀ r', r' = T - qs * v → u - T * B ^ j + r' * B ^ j < v * B ^ j ∧ u = qs * v * B ^ j + (u - T * B ^ j + r' * B ^ j) := by
    intro r' hr'
    have hr'v : r' + 1 ≤ v := by omega
    have hmul := Nat.mul_le_mul_right (B ^ j) hr'v
    rw [Nat.succ_mul] at hmul
    have hsum : qs * v * B ^ j + r' * B ^ j = T * B ^ j := by rw [← Nat.add_mul]; congr 1; omega
    constructor <;> omega
  split
  · next hlt =>
    have hq1 : q = qs + 1 := by
      by_contra hne
      have : q = qs := by omega
      subst this; omega
    have hqv : q * v = qs * v + v := by rw [hq1]; ring
    have := hfin (T + v - q * v) (by omega)
    refine ⟨q - 1, _, rfl, ?_, this.1⟩
    rw [hq1, Nat.add_sub_cancel, ← hq1]; exact this.2
  · next hlt =>
    have hq0 : q = qs := by
      by_contra hne
      have : q = qs + 1 := by omega
      have : q * v = qs * v + v := by rw [this]; ring
      omega
    have := hfin (T - q * v) (by rw [hq0])
    refine ⟨q, _, rfl, ?_, this.1⟩
    rw [hq0]; rw [hq0] at this; exact this.2

/-- The normalization shift makes the top limb's high bit 1 (R153 step 1). -/
theorem normShift_spec {w v : Nat} (hw : 0 < w) (hv : 0 < v) :
    v * 2 ^ normShift w v < (2 ^ w) ^ clen w v ∧ (2 ^ w) ^ clen w v ≤ 2 * (v * 2 ^ normShift w v) := by
  have hb := bitlen_pos hv
  set b := bitlen v with hbdef
  have hc : w * clen w v = b + normShift w v := by
    have hdm := Nat.div_add_mod b w
    have hlt := Nat.mod_lt b hw
    have hcl : clen w v = (b + w - 1) / w := by
      unfold clen
      rw [← hbdef, max_eq_right]
      exact (Nat.one_le_div_iff hw).2 (by omega)
    rw [hcl]
    unfold normShift
    rw [← hbdef]
    rcases Nat.eq_zero_or_pos (b % w) with hz | hz
    · rw [hz, Nat.sub_zero, Nat.mod_self, Nat.add_zero]
      have h1 : b + w - 1 = w - 1 + w * (b / w) := by omega
      rw [h1, Nat.add_mul_div_left _ _ hw, Nat.div_eq_of_lt (by omega), Nat.zero_add]
      omega
    · rw [Nat.mod_eq_of_lt (by omega : w - b % w < w)]
      have h1 : b + w - 1 = (b % w - 1) + w * (b / w + 1) := by rw [Nat.mul_succ]; omega
      rw [h1, Nat.add_mul_div_left _ _ hw, Nat.div_eq_of_lt (by omega), Nat.zero_add, Nat.mul_succ]
      omega
  rw [← pow_mul, hc, pow_add]
  have hlt : v < 2 ^ b := lt_two_pow_bitlen v
  have hge : 2 ^ (b - 1) ≤ v := two_pow_le_of_lt_bitlen (by omega)
  have h2 : 2 ^ b = 2 * 2 ^ (b - 1) := by rw [← pow_succ']; congr 1; omega
  constructor
  · exact Nat.mul_lt_mul_of_pos_right hlt (by positivity)
  · calc 2 ^ b * 2 ^ normShift w v = 2 * (2 ^ (b - 1) * 2 ^ normShift w v) := by rw [h2]; ring
      _ ≤ 2 * (v * 2 ^ normShift w v) := Nat.mul_le_mul_left _ (Nat.mul_le_mul_right _ hge)

/-! ### Binary GCD -/

/-- Stripping twos leaves an odd number, and only twos are gone. -/
theorem stripTwos_spec (fuel x : Nat) (hx : 0 < x) (hf : x < 2 ^ fuel) :
    stripTwos fuel x % 2 = 1 ∧ stripTwos fuel x ≤ x ∧ ∃ k, x = stripTwos fuel x * 2 ^ k := by
  induction fuel generalizing x with
  | zero => omega
  | succ n ih =>
    unfold stripTwos
    split
    · next h =>
      obtain ⟨h1, h2, k, h3⟩ := ih (x / 2) (by omega) (by rw [pow_succ] at hf; omega)
      refine ⟨h1, by omega, k + 1, ?_⟩
      calc x = 2 * (x / 2) := by omega
        _ = 2 * (stripTwos n (x / 2) * 2 ^ k) := by rw [← h3]
        _ = _ := by ring
    · next h => exact ⟨by omega, le_rfl, 0, by simp⟩

/-- The common twos are counted in k. -/
theorem commonTwos_spec (fuel x y k : Nat) (hx : 0 < x) (hf : x < 2 ^ fuel) :
    ∃ j, (commonTwos fuel x y k).2.2 = k + j ∧ x = (commonTwos fuel x y k).1 * 2 ^ j ∧ y = (commonTwos fuel x y k).2.1 * 2 ^ j
      ∧ ((commonTwos fuel x y k).1 % 2 = 1 ∨ (commonTwos fuel x y k).2.1 % 2 = 1) := by
  induction fuel generalizing x y k with
  | zero => omega
  | succ n ih =>
    unfold commonTwos
    split
    · next h =>
      obtain ⟨j, h1, h2, h3, h4⟩ := ih (x / 2) (y / 2) (k + 1) (by omega) (by rw [pow_succ] at hf; omega)
      refine ⟨j + 1, by omega, ?_, ?_, h4⟩
      · calc x = 2 * (x / 2) := by omega
          _ = 2 * ((commonTwos n (x / 2) (y / 2) (k + 1)).1 * 2 ^ j) := by rw [← h2]
          _ = _ := by ring
      · calc y = 2 * (y / 2) := by omega
          _ = 2 * ((commonTwos n (x / 2) (y / 2) (k + 1)).2.1 * 2 ^ j) := by rw [← h3]
          _ = _ := by ring
    · next h => exact ⟨0, by simp, by simp, by simp, by simp only; omega⟩

/-- Twos of one operand may go where the other is odd. -/
theorem gcd_strip {x y k : Nat} (hy : y % 2 = 1) : Nat.gcd (x * 2 ^ k) y = Nat.gcd x y := by
  have : Nat.Coprime (2 ^ k) y := Nat.Coprime.pow_left k ((Nat.coprime_two_left (n := y)).2 (Nat.odd_iff.2 hy))
  exact Nat.Coprime.gcd_mul_right_cancel x this

/-- Halving the difference of two odd numbers keeps their greatest common divisor. -/
theorem gcd_halfDiff {x y : Nat} (hx : x % 2 = 1) (hy : y % 2 = 1) (hxy : y ≤ x) : Nat.gcd ((x - y) / 2) y = Nat.gcd x y := by
  have h1 : Nat.gcd ((x - y) / 2 * 2 ^ 1) y = Nat.gcd ((x - y) / 2) y := gcd_strip hy
  rw [← h1, pow_one, show (x - y) / 2 * 2 = x - y by omega]
  exact Nat.gcd_sub_self_left hxy

/-! ### rho by Newton iteration -/

/-- A step doubles the number of correct low bits (R163). -/
theorem newtonStep_spec {w m x k : Nat} (hx : m * x ≡ 1 [MOD 2 ^ k]) :
    m * newtonStep w m x ≡ 1 [MOD 2 ^ (min (2 * k) w)] := by
  have hmod : (newtonStep w m x : ℤ) ≡ x * (2 - m * x) [ZMOD (2 : ℤ) ^ w] := by
    have hlt : m * x % 2 ^ w ≤ 2 + 2 ^ w := (Nat.mod_lt _ (by positivity)).le.trans (by omega)
    unfold newtonStep
    push_cast [Nat.cast_sub hlt]
    refine (Int.mod_modEq _ _).trans (Int.ModEq.mul_left _ ((Int.mod_modEq _ _).trans ?_))
    have h1 : ((m : ℤ) * x % 2 ^ w) ≡ m * x [ZMOD (2 : ℤ) ^ w] := Int.mod_modEq _ _
    have h2 : (2 + (2 : ℤ) ^ w) ≡ 2 [ZMOD (2 : ℤ) ^ w] := by simp [Int.ModEq]
    exact Int.ModEq.sub h2 h1
  rw [← Int.natCast_modEq_iff] at hx ⊢
  push_cast at hx ⊢
  have hsq : (2 : ℤ) ^ (min (2 * k) w) ∣ (m * x - 1) ^ 2 := by
    have : (2 : ℤ) ^ k ∣ m * x - 1 := (Int.modEq_iff_dvd.1 hx.symm)
    have h2 : ((2 : ℤ) ^ k) ^ 2 ∣ (m * x - 1) ^ 2 := pow_dvd_pow_of_dvd this 2
    rw [← pow_mul] at h2
    exact (pow_dvd_pow 2 (by omega)).trans h2
  have hdvd : (2 : ℤ) ^ (min (2 * k) w) ∣ 2 ^ w := pow_dvd_pow 2 (min_le_right _ _)
  have h1 := Int.ModEq.mul_left (m : ℤ) (hmod.of_dvd hdvd)
  refine h1.trans (Int.modEq_iff_dvd.2 ?_)
  have : (1 : ℤ) - m * (x * (2 - m * x)) = (m * x - 1) ^ 2 := by ring
  rw [this]; exact hsq

/-- The seed is correct mod 16 for an odd m0 (R163, G3). -/
theorem newtonSeed_spec {w m : Nat} (hw : 4 ≤ w) (hm : m % 2 = 1) : m * newtonIter w m 0 ≡ 1 [MOD 2 ^ 4] := by
  have hdvd : 2 ^ 4 ∣ 2 ^ w := pow_dvd_pow 2 hw
  have h1 : newtonIter w m 0 ≡ (3 * m) ^^^ 2 [MOD 2 ^ 4] := (Nat.mod_modEq _ _).of_dvd hdvd
  have h2 : ((3 * m) ^^^ 2) % 2 ^ 4 = (3 * (m % 16)) % 16 ^^^ 2 := by
    rw [Nat.xor_mod_two_pow]
    congr 1
    omega
  have h3 : m ≡ m % 16 [MOD 2 ^ 4] := (Nat.mod_modEq m 16).symm
  refine (Nat.ModEq.mul h3 h1).trans ?_
  unfold Nat.ModEq
  rw [Nat.mul_mod, h2]
  have h4 : m % 16 < 16 := Nat.mod_lt _ (by norm_num)
  have h5 : (m % 16) % 2 = 1 := by omega
  generalize m % 16 = r at h4 h5
  interval_cases r <;> simp_all

/-! ### Montgomery multiplier -/

/-- One limb of y: the low limb is cleared exactly, and the accumulator stays below `x + m` (R165). -/
theorem redcStep_exact {B rho m x yi acc : Nat} (hrho : rho * m % B = B - 1) (hB : 1 < B) :
    let u := (acc % B + yi * (x % B)) * rho % B
    (acc + yi * x + u * m) / B * B = acc + yi * x + u * m := by
  intro u
  apply Nat.div_mul_cancel
  rw [Nat.dvd_iff_mod_eq_zero]
  have hz : acc % B + yi * (x % B) ≡ acc + yi * x [MOD B] :=
    Nat.ModEq.add (Nat.mod_modEq _ _) (Nat.ModEq.mul_left _ (Nat.mod_modEq _ _))
  set t := acc % B + yi * (x % B) with ht
  have hu : u * m ≡ t * (B - 1) [MOD B] := by
    calc u * m ≡ t * rho * m [MOD B] := Nat.ModEq.mul_right _ (Nat.mod_modEq _ _)
      _ = t * (rho * m) := by ring
      _ ≡ t * (B - 1) [MOD B] := Nat.ModEq.mul_left _ (by unfold Nat.ModEq; rw [hrho, Nat.mod_eq_of_lt (by omega)])
  have : acc + yi * x + u * m ≡ 0 [MOD B] := by
    calc acc + yi * x + u * m ≡ t + t * (B - 1) [MOD B] := Nat.ModEq.add hz.symm hu
      _ = t * B := by
        rw [show t + t * (B - 1) = t * (B - 1 + 1) by ring, show B - 1 + 1 = B by omega]
      _ ≡ 0 [MOD B] := by simp [Nat.ModEq]
  exact this

/-- k limbs of y: the accumulator is `(acc + x * y + q * m) / B**k`, exactly, and stays below `x + m`. -/
theorem redcLoop_spec {B rho m x : Nat} (hrho : rho * m % B = B - 1) (hB : 1 < B) (k y acc : Nat)
    (hy : y < B ^ k) (hacc : acc < x + m) :
    (∃ q, redcLoop B rho m x k y acc * B ^ k = acc + x * y + q * m) ∧ redcLoop B rho m x k y acc < x + m := by
  induction k generalizing y acc with
  | zero =>
    have : y = 0 := by simpa using hy
    subst this
    exact ⟨⟨0, by simp [redcLoop]⟩, hacc⟩
  | succ k ih =>
    unfold redcLoop
    set u := (acc % B + y % B * (x % B)) * rho % B with hu
    set acc' := (acc + y % B * x + u * m) / B with hacc'
    have hexact : acc' * B = acc + y % B * x + u * m := redcStep_exact hrho hB
    have hyk : y / B < B ^ k := by
      rw [Nat.div_lt_iff_lt_mul (by omega), ← pow_succ]; exact hy
    have hub : u ≤ B - 1 := by have := Nat.mod_lt ((acc % B + y % B * (x % B)) * rho) (show 0 < B by omega); omega
    have hyb : y % B ≤ B - 1 := by have := Nat.mod_lt y (show 0 < B by omega); omega
    have hlt : acc' < x + m := by
      have h1 : y % B * x ≤ (B - 1) * x := Nat.mul_le_mul_right _ hyb
      have h2 : u * m ≤ (B - 1) * m := Nat.mul_le_mul_right _ hub
      have h3 : (x + m) * B = (x + m) + ((B - 1) * x + (B - 1) * m) := by
        obtain ⟨b, rfl⟩ : ∃ b, B = b + 1 := ⟨B - 1, by omega⟩
        rw [Nat.add_sub_cancel]; ring
      have : acc' * B < (x + m) * B := by omega
      exact Nat.lt_of_mul_lt_mul_right this
    obtain ⟨⟨q, hq⟩, hfin⟩ := ih (y / B) acc' hyk hlt
    refine ⟨⟨q * B + u, ?_⟩, hfin⟩
    have hyd := Nat.div_add_mod y B
    calc redcLoop B rho m x k (y / B) acc' * B ^ (k + 1)
        = redcLoop B rho m x k (y / B) acc' * B ^ k * B := by rw [pow_succ]; ring
      _ = (acc' + x * (y / B) + q * m) * B := by rw [hq]
      _ = acc' * B + x * (B * (y / B)) + q * B * m := by ring
      _ = acc + y % B * x + u * m + x * (B * (y / B)) + q * B * m := by rw [hexact]
      _ = acc + x * (B * (y / B) + y % B) + (q * B + u) * m := by ring
      _ = _ := by rw [hyd]

/-! ### Square and multiply -/

/-- Over any product that carries a relation from operands to result, k exponent bits give
`acc ** (2**k) * b ** (e mod 2**k)` (R169). -/
theorem squareMultiply_spec {prod : Nat → Nat → Nat} {Rel : Nat → Nat → Prop}
    (hprod : ∀ x y a c, Rel x a → Rel y c → Rel (prod x y) (a * c)) (b β e : Nat) (hb : Rel b β) (k acc a : Nat) (hacc : Rel acc a) :
    Rel (squareMultiply prod b e k acc) (a ^ 2 ^ k * β ^ (e % 2 ^ k)) := by
  induction k generalizing acc a with
  | zero => simpa [squareMultiply, Nat.mod_one] using hacc
  | succ k ih =>
    have hmod : e % 2 ^ (k + 1) = e % 2 ^ k + 2 ^ k * bitAt e k := by
      rw [pow_succ, Nat.mod_mul, bitAt_eq]
    have hsq := hprod acc acc a a hacc hacc
    have hdouble : (a * a) ^ 2 ^ k = a ^ 2 ^ (k + 1) := by rw [← pow_two, ← pow_mul, ← pow_succ']
    unfold squareMultiply
    simp only
    split
    · next h =>
      have := ih (prod (prod acc acc) b) (a * a * β) (hprod _ _ _ _ hsq hb)
      convert this using 1
      rw [hmod, h, mul_one, mul_pow, hdouble, pow_add]
      ring
    · next h =>
      have hz : bitAt e k = 0 := by have := bitAt_le_one e k; omega
      have := ih (prod acc acc) (a * a) hsq
      convert this using 1
      rw [hmod, hz, mul_zero, add_zero, hdouble]

end Sys2Proof.Machine
end

