-- ==== Sys2Proof/Tests/Slice0.lean ====
section
/-! SUPPORT. Tests of the model, each value taken from the spec (95_test_vectors.md unless a comment says otherwise), and for every
statement a state and operands that meet its hypotheses. -/

set_option Elab.async false

namespace Sys2Proof.Tests

open Sys2Proof.Machine

/-! ## The check on command words refuses ill-formed fields (R84, R86) -/

/-- The command word of `POWMOD B15, B14, B13, B12` has legal fields. -/
theorem test_wellFormed_powmod : Fields.wellFormed ⟨0x24, 15, 14, 13, 12, 0, false⟩ = true := by decide

/-- Reserved opcodes 0x0E and 0x3F (V171, V172). -/
theorem test_illFormed_reserved_opcode :
    Fields.wellFormed ⟨0x0E, 0, 0, 0, 0, 0, false⟩ = false ∧ Fields.wellFormed ⟨0x3F, 0, 0, 0, 0, 0, false⟩ = false := by decide

/-- BITLEN with RD = 3 (V179). -/
theorem test_illFormed_rd_outside_format : Fields.wellFormed ⟨0x04, 3, 1, 0, 0, 0, false⟩ = false := by decide

/-- CLAMP with RS1 = 1. -/
theorem test_illFormed_rs1_outside_format : Fields.wellFormed ⟨0x02, 1, 1, 0, 0, 0, false⟩ = false := by decide

/-- MOV with RS2 = 1 (V175). -/
theorem test_illFormed_rs2_outside_format : Fields.wellFormed ⟨0x01, 2, 1, 1, 0, 0, false⟩ = false := by decide

/-- ADD with RS3 = 5 (V174). -/
theorem test_illFormed_rs3_outside_format : Fields.wellFormed ⟨0x10, 3, 1, 2, 5, 0, false⟩ = false := by decide

/-- ADD with RSV bit 1 set (V173). -/
theorem test_illFormed_rsv : Fields.wellFormed ⟨0x10, 3, 1, 2, 0, 1, false⟩ = false := by decide

/-- NOP and MOV with V = 1 (V170, V176). -/
theorem test_illFormed_v_outside_setbit :
    Fields.wellFormed ⟨0x00, 0, 0, 0, 0, 0, true⟩ = false ∧ Fields.wellFormed ⟨0x01, 2, 1, 0, 0, 0, true⟩ = false := by decide

/-- The register check of a command, on its widest form; no term of Instr names a register outside B0 to B15 (R82). -/
theorem test_instr_wellFormed : Instr.wellFormed (.powmod 15 14 13 12) = true := by decide

/-! ## Words written out from the spec's encoding decode to their commands (section 2) -/

/-- `NOP`. -/
theorem test_decode_nop : decode 0x00000000 = some (.nop) := by decide

/-- `MOV B2, B1`. -/
theorem test_decode_mov_b2_b1 : decode 0x04840000 = some (.mov 2 1) := by decide

/-- `CLAMP B1`. -/
theorem test_decode_clamp_b1 : decode 0x08400000 = some (.clamp 1) := by decide

/-- `GROW B1`. -/
theorem test_decode_grow_b1 : decode 0x0C400000 = some (.grow 1) := by decide

/-- `BITLEN B1`. -/
theorem test_decode_bitlen_b1 : decode 0x10040000 = some (.bitlen 1) := by decide

/-- `BYTELEN B1`. -/
theorem test_decode_bytelen_b1 : decode 0x14040000 = some (.bytelen 1) := by decide

/-- `GETBIT B1`. -/
theorem test_decode_getbit_b1 : decode 0x18040000 = some (.getbit 1) := by decide

/-- `SETBIT B1, 1`. -/
theorem test_decode_setbit_b1_1 : decode 0x1C400001 = some (.setbit 1 true) := by decide

/-- `SETBIT B1, 0`. -/
theorem test_decode_setbit_b1_0 : decode 0x1C400000 = some (.setbit 1 false) := by decide

/-- `CMP B1, B2`. -/
theorem test_decode_cmp_b1_b2 : decode 0x20048000 = some (.cmp 1 2) := by decide

/-- `SHL B2, B1`. -/
theorem test_decode_shl_b2_b1 : decode 0x24840000 = some (.shl 2 1) := by decide

/-- `SHR B2, B1`. -/
theorem test_decode_shr_b2_b1 : decode 0x28840000 = some (.shr 2 1) := by decide

/-- `ADDW B2, B1`. -/
theorem test_decode_addw_b2_b1 : decode 0x2C840000 = some (.addw 2 1) := by decide

/-- `SUBW B2, B1`. -/
theorem test_decode_subw_b2_b1 : decode 0x30840000 = some (.subw 2 1) := by decide

/-- `MULW B2, B1`. -/
theorem test_decode_mulw_b2_b1 : decode 0x34840000 = some (.mulw 2 1) := by decide

/-- `ADD B3, B1, B2`. -/
theorem test_decode_add_b3_b1_b2 : decode 0x40C48000 = some (.add 3 1 2) := by decide

/-- `SUB B3, B1, B2`. -/
theorem test_decode_sub_b3_b1_b2 : decode 0x44C48000 = some (.sub 3 1 2) := by decide

/-- `MUL B3, B1, B2`. -/
theorem test_decode_mul_b3_b1_b2 : decode 0x48C48000 = some (.mul 3 1 2) := by decide

/-- `DIV B3, B1, B2`. -/
theorem test_decode_div_b3_b1_b2 : decode 0x60C48000 = some (.div 3 1 2) := by decide

/-- `REM B3, B1, B2`. -/
theorem test_decode_rem_b3_b1_b2 : decode 0x64C48000 = some (.rem 3 1 2) := by decide

/-- `GCD B3, B1, B2`. -/
theorem test_decode_gcd_b3_b1_b2 : decode 0x80C48000 = some (.gcd 3 1 2) := by decide

/-- `MRHO B3`. -/
theorem test_decode_mrho_b3 : decode 0x84000C00 = some (.mrho 3) := by decide

/-- `MONTMUL B4, B1, B2, B3`. -/
theorem test_decode_montmul_b4_b1_b2_b3 : decode 0x89048C00 = some (.montmul 4 1 2 3) := by decide

/-- `POW B3, B1, B2`. -/
theorem test_decode_pow_b3_b1_b2 : decode 0x8CC48000 = some (.pow 3 1 2) := by decide

/-- `POWMOD B4, B1, B2, B3`. -/
theorem test_decode_powmod_b4_b1_b2_b3 : decode 0x91048C00 = some (.powmod 4 1 2 3) := by decide

/-- `ADD B15, B15, B15`. -/
theorem test_decode_add_b15_b15_b15 : decode 0x43FFC000 = some (.add 15 15 15) := by decide

/-- `POWMOD B15, B14, B13, B12`. -/
theorem test_decode_powmod_b15_b14_b13_b12 : decode 0x93FB7000 = some (.powmod 15 14 13 12) := by decide
/-- The illegal words V170 to V176, V178, V179 and V180. -/
theorem test_decode_illegal_words :
    [0x00000001, 0x38000000, 0xFC000000, 0x40C48002, 0x40C49400, 0x04844000, 0x04840001, 0x60C48200, 0x10C40000, 0x4C000000].map decode
      = List.replicate 10 none := by decide

/-- V177: bit 32 set is illegal at W = 64; at W = 32 there is no bit 32. -/
theorem test_decode_bits_63_32 :
    decodeCmd .w64 0x100000000 = none ∧ decodeCmd .w64 0 = some .nop ∧ decodeCmd .w32 0x40C48000 = some (.add 3 1 2) := by decide

/-- The host's entry gives the row's command and refuses a reserved opcode. -/
theorem test_decodeTableWord :
    decodeTableWord 32 0x91048C00 = some (.powmod 4 1 2 3) ∧ decodeTableWord 32 0x38000000 = none := by decide

/-- Two encodings of section 2 from the other side. -/
theorem test_encode : encode (.powmod 15 14 13 12) = 0x93FB7000 ∧ encode (.setbit 1 true) = 0x1C400001 := by decide

/-- The assembler text of R88's examples. -/
theorem test_asmText :
    asmText (.add 3 1 2) = "ADD B3, B1, B2" ∧ asmText (.setbit 1 true) = "SETBIT B1, 1" ∧ asmText (.mrho 3) = "MRHO B3"
      ∧ asmText (.powmod 4 1 2 3) = "POWMOD B4, B1, B2, B3" ∧ asmText .nop = "NOP" := by decide +kernel

/-- The accesses of program P3's steps 4 and 5 and of the ZERO and MODMUL pseudo-instructions (R89, R90). -/
theorem test_programEvents :
    programEvents (Pseudo.inc 1).expand = [.write 0x00004 1, .write 0x00003 0x2C440000]
      ∧ programEvents (Pseudo.zero 3).expand = [.write 0x00003 0x44CCC000]
      ∧ programEvents (Pseudo.modmul 3 1 2 4).expand
        = [.write 0x00003 0x48C48000, .pause, .read 0x00002, .write 0x00003 0x64CD0000] := by decide

/-! ## One command on a small state (section 3) -/

/-- A state right after reset with register r loaded: its limbs, and LEN their number (R61). -/
def load (s : State) (r : Nat × List Nat) : State :=
  s.setReg (Fin.ofNat 16 r.1)
    ⟨r.2.length, r.2.map (BitVec.ofNat 64) ++ List.replicate (s.maxLimbs - r.2.length) 0⟩

/-- Reset, the registers loaded, ARG written. -/
def start (lw : LimbWidth) (maxLimbs : Nat) (loads : List (Nat × List Nat)) (arg : Nat) : State :=
  { loads.foldl load (State.resetOf ⟨lw, maxLimbs, 0⟩) with arg := BitVec.ofNat 64 arg }

/-- Does an outcome go on to a state that passes the check? -/
def onNext (o : Host.Outcome State Fault Refusal) (check : State → Bool) : Bool :=
  match o with
  | .next t => check t
  | .fault _ => false
  | .refused _ => false

/-- Is an outcome this refusal? -/
def refusedWith (o : Host.Outcome State Fault Refusal) (r : Refusal) : Bool :=
  match o with
  | .next _ => false
  | .fault _ => false
  | .refused r' => r' == r

/-- One vector of the spec: the command word accepted on the loaded state and completed by one step.
`dest` is the written register with its value and LEN, `flags` are Z, LT and EQ where the row lists them, `res` is RES where
the row lists it; everything else must stand. -/
def vector (lw : LimbWidth) (maxLimbs : Nat) (loads : List (Nat × List Nat)) (arg word : Nat) (err : ErrCode)
    (dest : Option (Nat × Nat × Nat)) (flags : List (Option Bool)) (res : Option Nat) : Bool :=
  let s := start lw maxLimbs loads arg
  onNext (step ((s.accept (BitVec.ofNat 64 word)))) fun t =>
    t.err == err && t.done && !t.busy && t.cmd == BitVec.ofNat 64 word && t.arg == s.arg
      && (match dest with
          | some (d, v, n) =>
            t.val (Fin.ofNat 16 d) == v && t.len (Fin.ofNat 16 d) == n
              && (t.setReg (Fin.ofNat 16 d) s.regs[Fin.ofNat 16 d]).regs == s.regs
          | none => t.regs == s.regs)
      && flags.map (fun f => f.getD false) == [t.flagZ, t.flagLT, t.flagEQ]
      && t.res.toNat == res.getD 0

/-- V1: `NOP` (word 0x00000000). -/
theorem test_nop_V1 : vector .w64 64 [] 0 0x00000000 .none (none)
    [none, none, none] (none) = true := by
  decide +kernel

/-- V2: `MOV B2, B1` (word 0x04840000). -/
theorem test_mov_V2 : vector .w64 64 [(1, [7, 0, 0])] 0 0x04840000 .none (some (2, 7, 1))
    [some false, none, none] (none) = true := by
  decide +kernel

/-- V3: `MOV B2, B1` (word 0x04840000). -/
theorem test_mov_V3 : vector .w64 64 [(1, [0])] 0 0x04840000 .none (some (2, 0, 1))
    [some true, none, none] (none) = true := by
  decide +kernel

/-- V4: `CLAMP B1` (word 0x08400000). -/
theorem test_clamp_V4 : vector .w64 64 [(1, [0, 0])] 0 0x08400000 .none (some (1, 0, 1))
    [some true, none, none] (none) = true := by
  decide +kernel

/-- V5: `CLAMP B1` (word 0x08400000). -/
theorem test_clamp_V5 : vector .w64 64 [(1, [5, 0, 0])] 0 0x08400000 .none (some (1, 5, 1))
    [some false, none, none] (none) = true := by
  decide +kernel

/-- V6: `GROW B1` (word 0x0C400000). -/
theorem test_grow_V6 : vector .w64 64 [(1, [5])] 3 0x0C400000 .none (some (1, 5, 3))
    [some false, none, none] (none) = true := by
  decide +kernel

/-- V8: `GROW B1` (word 0x0C400000). -/
theorem test_grow_capacity_V8 : vector .w64 64 [(1, [5])] 65 0x0C400000 .capacity (none)
    [none, none, none] (none) = true := by
  decide +kernel

/-- V9: `BITLEN B1` (word 0x10040000). -/
theorem test_bitlen_V9 : vector .w64 64 [(1, [0])] 0 0x10040000 .none (none)
    [none, none, none] (some 0) = true := by
  decide +kernel

/-- V11: `BITLEN B1` (word 0x10040000). -/
theorem test_bitlen_V11 : vector .w64 64 [(1, [0, 1])] 0 0x10040000 .none (none)
    [none, none, none] (some 65) = true := by
  decide +kernel

/-- V12: `BYTELEN B1` (word 0x14040000). -/
theorem test_bytelen_V12 : vector .w64 64 [(1, [0])] 0 0x14040000 .none (none)
    [none, none, none] (some 1) = true := by
  decide +kernel

/-- V16: `BYTELEN B1` (word 0x14040000). -/
theorem test_bytelen_V16 : vector .w64 64 [(1, [0x123456789abcdef])] 0 0x14040000 .none (none)
    [none, none, none] (some 8) = true := by
  decide +kernel

/-- V17: `GETBIT B1` (word 0x18040000). -/
theorem test_getbit_V17 : vector .w64 64 [(1, [1024])] 10 0x18040000 .none (none)
    [none, none, none] (some 1) = true := by
  decide +kernel

/-- V20: `GETBIT B1` (word 0x18040000). -/
theorem test_getbit_range_V20 : vector .w64 64 [(1, [1024])] 64 0x18040000 .range (none)
    [none, none, none] (none) = true := by
  decide +kernel

/-- V26: `SETBIT B1, 1` (word 0x1C400001). -/
theorem test_setbit_V26 : vector .w64 64 [(1, [0, 0])] 64 0x1C400001 .none (some (1, 0x10000000000000000, 2))
    [some false, none, none] (none) = true := by
  decide +kernel

/-- V27: `SETBIT B1, 0` (word 0x1C400000). -/
theorem test_setbit_V27 : vector .w64 64 [(1, [1, 1])] 64 0x1C400000 .none (some (1, 1, 1))
    [some false, none, none] (none) = true := by
  decide +kernel

/-- V29: `CMP B1, B2` (word 0x20048000). -/
theorem test_cmp_V29 : vector .w64 64 [(1, [0, 1]), (2, [0xffffffffffffffff])] 0 0x20048000 .none (none)
    [none, some false, some false] (none) = true := by
  decide +kernel

/-- V31: `CMP B1, B2` (word 0x20048000). -/
theorem test_cmp_V31 : vector .w64 64 [(1, [7, 0, 0]), (2, [7])] 0 0x20048000 .none (none)
    [none, some false, some true] (none) = true := by
  decide +kernel

/-- V36: `SHL B2, B1` (word 0x24840000). -/
theorem test_shl_V36 : vector .w64 2 [(1, [1])] 127 0x24840000 .none (some (2, 0x80000000000000000000000000000000, 2))
    [some false, none, none] (none) = true := by
  decide +kernel

/-- V37: `SHL B2, B1` (word 0x24840000). -/
theorem test_shl_capacity_V37 : vector .w64 2 [(1, [1])] 128 0x24840000 .capacity (none)
    [none, none, none] (none) = true := by
  decide +kernel

/-- V39: `SHR B2, B1` (word 0x28840000). -/
theorem test_shr_V39 : vector .w64 64 [(1, [0, 1])] 1 0x28840000 .none (some (2, 0x8000000000000000, 1))
    [some false, none, none] (none) = true := by
  decide +kernel

/-- V42: `SHR B2, B1` (word 0x28840000). -/
theorem test_shr_V42 : vector .w32 64 [(1, [0, 0, 0, 1])] 32 0x28840000 .none (some (2, 0x10000000000000000, 3))
    [some false, none, none] (none) = true := by
  decide +kernel

/-- V44: `ADDW B2, B1` (word 0x2C840000). -/
theorem test_addw_V44 : vector .w64 64 [(1, [0xffffffffffffffff, 0xffffffffffffffff])] 1 0x2C840000 .none (some (2, 0x100000000000000000000000000000000, 3))
    [some false, none, none] (none) = true := by
  decide +kernel

/-- V45: `ADDW B2, B1` (word 0x2C840000). -/
theorem test_addw_capacity_V45 : vector .w64 2 [(1, [0xffffffffffffffff, 0xffffffffffffffff])] 1 0x2C840000 .capacity (none)
    [none, none, none] (none) = true := by
  decide +kernel

/-- V47: `SUBW B2, B1` (word 0x30840000). -/
theorem test_subw_V47 : vector .w64 64 [(1, [0, 1])] 1 0x30840000 .none (some (2, 0xFFFFFFFFFFFFFFFF, 1))
    [some false, none, none] (none) = true := by
  decide +kernel

/-- V48: `SUBW B2, B1` (word 0x30840000). -/
theorem test_subw_subNeg_V48 : vector .w64 64 [(1, [3])] 5 0x30840000 .subNeg (none)
    [none, none, none] (none) = true := by
  decide +kernel

/-- V50: `MULW B2, B1` (word 0x34840000). -/
theorem test_mulw_V50 : vector .w64 64 [(1, [0xffffffffffffffff])] 0xFFFFFFFFFFFFFFFF 0x34840000 .none (some (2, 0xFFFFFFFFFFFFFFFE0000000000000001, 2))
    [some false, none, none] (some 0xFFFFFFFFFFFFFFFE) = true := by
  decide +kernel

/-- V53: `MULW B2, B1` (word 0x34840000). -/
theorem test_mulw_capacity_V53 : vector .w64 2 [(1, [0xffffffffffffffff, 0xffffffffffffffff])] 0xFFFFFFFFFFFFFFFF 0x34840000 .capacity (none)
    [none, none, none] (none) = true := by
  decide +kernel

/-- V63: `ADD B1, B1, B1` (word 0x40444000). -/
theorem test_add_V63 : vector .w64 64 [(1, [0x8000000000000000])] 0 0x40444000 .none (some (1, 0x10000000000000000, 2))
    [some false, none, none] (none) = true := by
  decide +kernel

/-- V64: `ADD B3, B1, B2` (word 0x40C48000). -/
theorem test_add_capacity_V64 : vector .w64 2 [(1, [0xffffffffffffffff, 0xffffffffffffffff]), (2, [1])] 0 0x40C48000 .capacity (none)
    [none, none, none] (none) = true := by
  decide +kernel

/-- V66: `SUB B3, B1, B2` (word 0x44C48000). -/
theorem test_sub_V66 : vector .w64 64 [(1, [0, 0, 1]), (2, [1])] 0 0x44C48000 .none (some (3, 0xFFFFFFFFFFFFFFFFFFFFFFFFFFFFFFFF, 2))
    [some false, none, none] (none) = true := by
  decide +kernel

/-- V69: `SUB B3, B1, B2` (word 0x44C48000). -/
theorem test_sub_subNeg_V69 : vector .w64 64 [(1, [5]), (2, [7])] 0 0x44C48000 .subNeg (none)
    [none, none, none] (none) = true := by
  decide +kernel

/-- V72: `MUL B2, B1, B1` (word 0x48844000). -/
theorem test_mul_V72 : vector .w64 64 [(1, [1, 1])] 0 0x48844000 .none (some (2, 0x100000000000000020000000000000001, 3))
    [some false, none, none] (none) = true := by
  decide +kernel

/-- V76: `MUL B3, B1, B2` (word 0x48C48000). -/
theorem test_mul_capacity_V76 : vector .w64 2 [(1, [0, 1]), (2, [0, 1])] 0 0x48C48000 .capacity (none)
    [none, none, none] (none) = true := by
  decide +kernel

/-- V97: `DIV B3, B1, B2` (word 0x60C48000). -/
theorem test_div_V97 : vector .w64 64 [(1, [0x8000000000000000, 0xfffffffffffffffe, 0x8000000000000000, 0x8000000000000001, 1]), (2, [0xfffffffffffffffe, 0x8000000000000000, 0x8000000000000000])] 0 0x60C48000 .none (some (3, 0x2FFFFFFFFFFFFFFFF, 2))
    [some false, none, none] (none) = true := by
  decide +kernel

/-- V88: `DIV B3, B1, B2` (word 0x60C48000). -/
theorem test_div_divZero_V88 : vector .w64 64 [(1, [7]), (2, [0])] 0 0x60C48000 .divZero (none)
    [none, none, none] (none) = true := by
  decide +kernel

/-- V96: `REM B3, B1, B2` (word 0x64C48000). -/
theorem test_rem_V96 : vector .w64 64 [(1, [2, 0x8000000000000000, 0x8000000000000000]), (2, [0xfffffffffffffffe, 0x8000000000000001])] 0 0x64C48000 .none (some (3, 0x7FFFFFFFFFFFFFFFC, 2))
    [some false, none, none] (none) = true := by
  decide +kernel

/-- V89: `REM B3, B1, B2` (word 0x64C48000). -/
theorem test_rem_divZero_V89 : vector .w64 64 [(1, [7]), (2, [0, 0])] 0 0x64C48000 .divZero (none)
    [none, none, none] (none) = true := by
  decide +kernel

/-- V113: `GCD B3, B1, B2` (word 0x80C48000). -/
theorem test_gcd_V113 : vector .w64 64 [(1, [0]), (2, [0])] 0 0x80C48000 .none (some (3, 0, 1))
    [some true, none, none] (none) = true := by
  decide +kernel

/-- V116: `GCD B3, B1, B2` (word 0x80C48000). -/
theorem test_gcd_V116 : vector .w64 64 [(1, [0, 0x3000000000]), (2, [0, 0x24000000])] 0 0x80C48000 .none (some (3, 0xC0000000000000000000000, 2))
    [some false, none, none] (none) = true := by
  decide +kernel

/-- V121: `MRHO B3` (word 0x84000C00). -/
theorem test_mrho_V121 : vector .w32 64 [(3, [497])] 0 0x84000C00 .none (none)
    [none, none, none] (some 0x28B130EF) = true := by
  decide +kernel

/-- V126: `MRHO B3` (word 0x84000C00). -/
theorem test_mrho_evenMod_V126 : vector .w64 64 [(3, [496])] 0 0x84000C00 .evenMod (none)
    [none, none, none] (none) = true := by
  decide +kernel

/-- V131: `MONTMUL B4, B1, B2, B3` (word 0x89048C00). -/
theorem test_montmul_V131 : vector .w32 64 [(1, [4]), (2, [13]), (3, [497])] 0 0x89048C00 .none (some (4, 132, 1))
    [some false, none, none] (none) = true := by
  decide +kernel

/-- V135: `MONTMUL B4, B1, B2, B3` (word 0x89048C00). -/
theorem test_montmul_evenMod_V135 : vector .w64 64 [(1, [600]), (2, [1]), (3, [496])] 0 0x89048C00 .evenMod (none)
    [none, none, none] (none) = true := by
  decide +kernel

/-- V141: `POW B3, B1, B2` (word 0x8CC48000). -/
theorem test_pow_V141 : vector .w64 64 [(1, [0]), (2, [0])] 0 0x8CC48000 .none (some (3, 1, 1))
    [some false, none, none] (none) = true := by
  decide +kernel

/-- V147: `POW B3, B1, B2` (word 0x8CC48000). -/
theorem test_pow_capacity_V147 : vector .w64 2 [(1, [2]), (2, [128])] 0 0x8CC48000 .capacity (none)
    [none, none, none] (none) = true := by
  decide +kernel

/-- V157: `POWMOD B4, B1, B2, B3` (word 0x91048C00). -/
theorem test_powmod_V157 : vector .w64 64 [(1, [3]), (2, [0, 1]), (3, [0xffffffffffffffff, 0x7fffffffffffffff])] 0 0x91048C00 .none (some (4, 0x7CFF0C8DD02923A6CB36B360F8483509, 2))
    [some false, none, none] (none) = true := by
  decide +kernel

/-- V156: `POWMOD B4, B1, B2, B3` (word 0x91048C00). -/
theorem test_powmod_divZero_V156 : vector .w64 64 [(1, [4]), (2, [13]), (3, [0])] 0 0x91048C00 .divZero (none)
    [none, none, none] (none) = true := by
  decide +kernel

/-- V177: `NOP with bit 32 set (W = 64)` (word 0x100000000). -/
theorem test_nop_illegal_V177 : vector .w64 64 [] 0 0x100000000 .illegal (none)
    [none, none, none] (none) = true := by
  decide +kernel

/-- V178: `DIV B3, B1, B2 with RSV bit 9 set, divisor 0` (word 0x60C48200). -/
theorem test_div_illegal_V178 : vector .w64 64 [(1, [7]), (2, [0])] 0 0x60C48200 .illegal (none)
    [none, none, none] (none) = true := by
  decide +kernel
/-- withFetchWord puts the word where the next step runs it: POWMOD of L1.5 from reset runs and completes. -/
theorem test_withFetchWord :
    onNext (step ((start .w64 64 [(1, [4]), (2, [13]), (3, [497])] 0).withFetchWord 32 0x91048C00))
      (fun t => t.val 4 == 445 && t.done) = true := by
  decide +kernel

/-! ## Port, lifecycle, interrupt and reset (section 4) -/

/-- The word a read of an index returns. -/
def reads (k : PortIndex) (s : State) : Option Word := (portRead k s).rdata

/-- A small block with B1 = 5 and B2 = 7. -/
def fiveSeven : State := start .w64 64 [(1, [5]), (2, [7])] 0

/-- V200, V201: ID, a write to it, and ID at W = 32. -/
theorem test_port_id_V200 :
    reads 0 State.reset = some 0x404001 ∧ reads 0 (portWrite 0 5 State.reset) = some 0x404001
      ∧ reads 0 (State.resetOf ⟨.w32, 64, 0⟩) = some 0x402001 := by decide +kernel

/-- V203: STATUS while NOP is in flight. -/
theorem test_status_while_busy_V203 : reads 2 (portWrite 3 0 State.reset) = some 1 := by decide +kernel

/-- V205: SUB of 5 and 7 ends with E_SUBNEG and writes nothing. -/
theorem test_error_completion_V205 :
    onNext (engineTurn (portWrite 3 0x44C48000 fiveSeven))
      (fun t => reads 2 t == some 0x52 && t.regs == fiveSeven.regs && t.res == 0 && reads 6 t == some 0) = true := by decide +kernel

/-- V207: an ADD submitted while a MUL is in flight is dropped and LOST is set. -/
theorem test_lost_V207 :
    reads 2 (portWrite 3 0x41048000 (portWrite 3 0x48C48000 fiveSeven)) = some 0x101
      ∧ onNext (engineTurn (portWrite 3 0x41048000 (portWrite 3 0x48C48000 fiveSeven)))
          (fun t => reads 2 t == some 0x102 && reads 3 t == some 0x48C48000 && t.val 3 == 35 && t.val 4 == 0) = true := by
  decide +kernel

/-- V208: writing 1 to LOST clears it and keeps DONE. -/
theorem test_status_clear_V208 :
    reads 2 (portWrite 2 0x100 { State.reset with done := true, lost := true }) = some 2 := by decide +kernel

/-- V209: LIMB, ARG and LEN writes while BUSY are dropped and set WERR. -/
theorem test_werr_V209 :
    onNext (engineTurn (portWrite 0x11 2 (portWrite 4 9 (portWrite 0x11000 9 (portWrite 3 0x48C48000 fiveSeven)))))
      (fun t => reads 2 t == some 0x202 && t.val 3 == 35 && t.val 1 == 5 && t.len 1 == 1 && reads 4 t == some 0) = true := by
  decide +kernel

/-- V210 to V212: LEN writes of 0, 65 and 64. -/
theorem test_len_write_V210 :
    reads 0x11 (portWrite 0x11 0 State.reset) = some 1 ∧ reads 2 (portWrite 0x11 0 State.reset) = some 0x200
      ∧ reads 0x11 (portWrite 0x11 65 State.reset) = some 1 ∧ reads 2 (portWrite 0x11 65 State.reset) = some 0x200
      ∧ reads 0x11 (portWrite 0x11 64 State.reset) = some 64 ∧ reads 2 (portWrite 0x11 64 State.reset) = some 0 := by decide +kernel

/-- V214: writing 0 to STATUS clears nothing. -/
theorem test_status_write_zero_V214 : reads 2 (portWrite 2 0 { State.reset with done := true }) = some 2 := by decide +kernel

/-- V215 to V217: reserved indices read 0 and ignore writes. -/
theorem test_reserved_V215 :
    [0x00007, 0x0000F, 0x00020, 0x0FFFF, 0x11040].map (fun k => reads k State.reset) = List.replicate 5 (some 0)
      ∧ portWrite 7 5 State.reset = State.reset := by decide +kernel

/-- V218: RES and FLAGS ignore writes. -/
theorem test_read_only_V218 : portWrite 6 7 (portWrite 5 7 State.reset) = State.reset := by decide +kernel

/-- V220 to V223: IRQ after a completion with IE = 1, and the three ways it falls. -/
theorem test_irq_V220 :
    onNext (engineTurn (portWrite 3 0 (portWrite 1 1 State.reset)))
      (fun t => t.irq && !(portWrite 2 2 t).irq && !(portWrite 1 0 t).irq && (portWrite 1 0 t).done && !(portWrite 3 0 t).irq) = true := by
  decide +kernel

/-- V224: CTRL keeps IE alone. -/
theorem test_ctrl_V224 : reads 1 (portWrite 1 0xFD State.reset) = some 1 := by decide +kernel

/-- V225 and V226: a soft reset discards bit 0 of its write and abandons the ADD in flight. -/
theorem test_soft_reset_V226 :
    reads 1 (portWrite 1 3 State.reset) = some 0
      ∧ (portWrite 1 2 (portWrite 3 0x40844000 (start .w64 64 [(1, [7])] 0))).regs = State.reset.regs
      ∧ reads 2 (portWrite 1 2 (portWrite 3 0x40844000 (start .w64 64 [(1, [7])] 0))) = some 0 := by decide +kernel

/-- V227: the reset input. -/
theorem test_hard_reset_V227 :
    onNext (turn .hardReset { fiveSeven with ie := true, done := true, err := .subNeg, lost := true, arg := 3, res := 4, flagZ := true })
      (fun t => t == State.reset && !t.irq) = true := by decide +kernel

/-- V228: NOP with bit 32 set ends with E_ILLEGAL, and CMD reads the word as written. -/
theorem test_illegal_word_V228 :
    onNext (engineTurn (portWrite 3 0x100000000 State.reset))
      (fun t => reads 3 t == some 0x100000000 && reads 2 t == some 0x12) = true := by decide +kernel

/-- R62: byte lanes, and limb 1 of B1 at its byte address of a block based at 0x40000000 (W = 32); R63 and R65: what is refused. -/
theorem test_byte_bus :
    lanes 4 0x12345678 = [0x78, 0x56, 0x34, 0x12]
      ∧ onNext (turn (.busWrite 0x40044004 [0x78, 0x56, 0x34, 0x12]) (State.resetOf ⟨.w32, 64, 0x40000000⟩))
          (fun t => t.limb 1 1 == 0x12345678 && reads 0x11001 t == some 0x12345678) = true
      ∧ refusedWith (turn (.busRead 0x40000000 2) (State.resetOf ⟨.w32, 64, 0x40000000⟩)) .busWidth = true
      ∧ refusedWith (turn (.busRead 0x40000002 4) (State.resetOf ⟨.w32, 64, 0x40000000⟩)) .busAlignment = true
      ∧ refusedWith (turn (.busRead 0x40080000 4) (State.resetOf ⟨.w32, 64, 0x40000000⟩)) .busAlignment = true := by decide +kernel

/-- The host's accesses run before and after the engine's turn as `pause` says (P6: the reset wins in either order). -/
theorem test_steps :
    onNext (Host.Core.run core 3 { start .w64 64 [(1, [5])] 0 with
        inputs := [.write 0x00003 0x40844000, .pause, .read 0x12000] })
      (fun t => t.rdata == some 10 && t.inputs == []) = true
      ∧ onNext (Host.Core.run core 3 { start .w64 64 [(1, [5])] 0 with
          inputs := [.write 0x00003 0x40844000, .write 0x00001 2, .read 0x00012] })
        (fun t => t.rdata == some 1 && !t.busy) = true := by decide +kernel

/-! ## The units on the spec's values (V101 to V103, V113, V116, V121, V130, V150 and V158) -/

/-- V101: two corrections, V102: the shift s = 63, V103: step 2 subtracts once. -/
theorem test_divUnit :
    divUnit 32 0x800000008000000000000002 0x80000001FFFFFFFE = some (0xFFFFFFFD, 0x7FFFFFFFC)
      ∧ divUnit 64 (3 * 2 ^ 64 + 5) (2 ^ 64 + 1) = some (3, 2)
      ∧ divUnit 32 (2 ^ 64 - 1) (2 ^ 63) = some (1, 2 ^ 63 - 1) := by decide +kernel

theorem test_gcdUnit :
    gcdUnit 0 0 = 0 ∧ gcdUnit 0x30000000000000000000000000 0x240000000000000000000000 = 0xC0000000000000000000000 := by
  decide +kernel

theorem test_rhoUnit : rhoUnit 32 497 = 0x28B130EF ∧ rhoUnit 64 497 = 0x8EAE19C128B130EF := by decide +kernel

theorem test_redcUnit : redcUnit 64 497 4 13 = 488 ∧ redcUnit 32 497 4 13 = 132 := by decide +kernel

theorem test_powmodUnit : powmodUnit 64 4 13 497 = 445 ∧ powmodUnit 32 4 13 496 = 64 ∧ powUnit 3 40 = 0xA8B8B452291FE821 := by
  decide +kernel

/-! ## A witness for the hypotheses of every statement, for each clause at a boundary of its range -/

/-- A block of two limbs at W = 64 with the operands the witnesses use:
B1 = 1, B2 = 2**128 - 1, B3 = 497, B4 = 0 with LEN 2, B5 = 496, B6 = 2**64, B7 = 127, B8 = 128, B9 = 2, B10 = 2**128 - 2. -/
def demo (arg : Nat) : State :=
  start .w64 2 [(1, [1]), (2, [2 ^ 64 - 1, 2 ^ 64 - 1]), (3, [497]), (4, [0, 0]), (5, [496]), (6, [0, 1]), (7, [127]), (8, [128]),
    (9, [2]), (10, [2 ^ 64 - 2, 2 ^ 64 - 1])] arg

/-- The same block with a command in flight. -/
def flying (arg word : Nat) : State := (demo arg).accept (BitVec.ofNat 64 word)

/-- A block at W = 32 with the largest MAX_LIMBS the test needs. -/
def demo32 (arg : Nat) : State := start .w32 3 [(1, [0xFFFFFFFF]), (2, [0, 0, 1]), (3, [497])] arg

/-- A check of the invariant that runs: the limbs are gone through as a list. -/
def checkInv (s : State) : Bool :=
  decide s.params.Legal
    && (List.finRange 16).all (fun r =>
      decide (1 ≤ s.regs[r].len) && decide (s.regs[r].len ≤ s.params.maxLimbs) && decide (s.regs[r].limbs.length = s.params.maxLimbs)
        && s.regs[r].limbs.all fun l => decide (l.toNat < 2 ^ s.params.limbWidth.bits))
    && decide (s.cmd.toNat < 2 ^ s.W) && decide (s.arg.toNat < 2 ^ s.W) && decide (s.res.toNat < 2 ^ s.W)
    && decide ((s.rdata.getD 0).toNat < 2 ^ s.W) && (!s.busy || (!s.done && s.err == .none)) && !(s.flagLT && s.flagEQ)
    && s.err != .internal

theorem inv_of_check {s : State} (h : checkInv s = true) : s.Inv := by
  simp only [checkInv, Bool.and_eq_true, Bool.or_eq_true, Bool.not_eq_true', List.all_eq_true, decide_eq_true_eq, beq_iff_eq,
    bne_iff_ne] at h
  obtain ⟨⟨⟨⟨⟨⟨⟨⟨hp, hr⟩, hc⟩, ha⟩, hres⟩, hd⟩, hb⟩, hf⟩, he⟩ := h
  refine ⟨hp, fun r => ?_, hc, ha, hres, hd, fun hbusy => ?_, ?_, he⟩
  · obtain ⟨⟨⟨h1, h2⟩, h3⟩, h4⟩ := hr r (List.mem_finRange r)
    exact ⟨h1, h2, h3, h4⟩
  · rcases hb with hb | hb
    · rw [hb] at hbusy; cases hbusy
    · exact hb
  · rintro ⟨h1, h2⟩
    rw [h1, h2] at hf
    cases hf

theorem demo_inv (arg : Nat) : (demo arg).Inv := by
  obtain ⟨hp, hr, hc, _, h⟩ := inv_of_check (s := demo 0) (by decide +kernel)
  exact ⟨hp, hr, hc, BitVec.isLt _, h⟩

theorem flying_inv (arg word : Nat) : (flying arg word).Inv := by
  have hW : (demo arg).W = 64 := rfl
  have hv : (BitVec.ofNat 64 word).toNat < 2 ^ (demo arg).W := by rw [hW]; exact BitVec.isLt _
  exact inv_accept (demo_inv arg) hv

/-- The accesses to come have no part in the invariant. -/
theorem inv_inputs {s : State} (h : s.Inv) (l : List HostEvent) : State.Inv { s with inputs := l } := h

theorem witness_demo32_inv : (demo32 31).Inv ∧ (demo32 (2 ^ 32 - 1)).Inv :=
  ⟨inv_of_check (by decide +kernel), inv_of_check (by decide +kernel)⟩

theorem witness_flying_inv : (flying 0 0x40C48000).Inv ∧ (flying 0 0x40C48002).Inv ∧ (flying 0 0x100000000).Inv :=
  ⟨flying_inv _ _, flying_inv _ _, flying_inv _ _⟩

theorem witness_DecodeEncodeRoundTrip :
    Instr.wellFormed .nop = true ∧ Instr.wellFormed (.setbit 15 true) = true ∧ Instr.wellFormed (.montmul 15 15 15 15) = true := by
  decide

theorem witness_DecodedWordIsTheOnlyEncoding :
    decode 0x93FB7000 = some (.powmod 15 14 13 12) ∧ decode 0 = some .nop := by decide

theorem witness_CommandWordFormula : (⟨0x07, 15, 0, 0, 0, 0, true⟩ : Fields).rsv = 0 := by decide

/-- Each way a word is illegal, at the edges of the reserved ranges, idle and in flight. -/
theorem witness_IllegalWordsCompleteWithEIllegal :
    (demo 0).Inv ∧ (flying 0 0x40C48002).Inv ∧ (demo 0).busy = false ∧ (flying 0 0x40C48002).busy = true ∧ (flying 0 0x40C48002).cmd = 0x40C48002
      ∧ [0x100000000, 0x38000000, 0x3C000000, 0x4C000000, 0x5C000000, 0x68000000, 0x7C000000, 0x94000000, 0xFC000000, 0x40C48002].map
          (decodeCmd .w64) = List.replicate 10 none
      ∧ (0x100000000 : Word).toNat < 2 ^ (demo 0).W ∧ (0xFC000000 : Word).toNat < 2 ^ (demo32 0).W :=
  ⟨demo_inv 0, flying_inv 0 _, by decide +kernel⟩

/-- ADD in flight, with no access left, with a pause first, and with a read first. -/
theorem witness_StepRunsTheDecodedCommand :
    (flying 0 0x40C48000).busy = true
      ∧ decodeCmd (flying 0 0x40C48000).params.limbWidth (flying 0 0x40C48000).cmd = some (.add 3 1 2)
      ∧ (flying 0 0x40C48000).inputs = []
      ∧ { flying 0 0x40C48000 with inputs := [.pause] }.inputs = .pause :: []
      ∧ { flying 0 0x40C48000 with inputs := [.read 2] }.inputs = .read 2 :: [] ∧ HostEvent.read 2 ≠ .pause := by decide +kernel

theorem witness_CmdWriteIsAcceptedOrLost :
    (0xFFFFFFFFFFFFFFFF : Word).toNat < 2 ^ (demo 0).W ∧ (demo 0).busy = false ∧ (flying 0 0).busy = true := by decide +kernel

/-- SUB of 1 and 497 in flight, and an illegal word in flight: both end in an error. -/
theorem witness_ErrorCompletionIsPrecise :
    (flying 0 0x4404C000).busy = true
      ∧ onNext (engineTurn (flying 0 0x4404C000)) (fun t => t.err == .subNeg) = true
      ∧ onNext (engineTurn (flying 0 0x38000000)) (fun t => t.err == .illegal) = true := by decide +kernel

/-- For the statements about `exec i s = .next t`: a success and an error of a command with a destination, of CMP, and of a
command that writes RES. -/
theorem witness_exec :
    (demo 1).Inv
      ∧ onNext (exec (.add 3 1 1) (demo 1)) (fun t => t.err == .none && t.val 3 == 2) = true
      ∧ onNext (exec (.addw 3 2) (demo 1)) (fun t => t.err == .capacity) = true
      ∧ onNext (exec (.cmp 1 3) (demo 1)) (fun t => t.err == .none && t.flagLT) = true
      ∧ onNext (exec (.getbit 1) (demo 64)) (fun t => t.err == .range) = true
      ∧ onNext (exec (.bitlen 2) (demo 1)) (fun t => t.err == .none && t.res == 128) = true
      ∧ Instr.dest? (.add 3 1 1) = some 3 ∧ Instr.dest? (.bitlen 2) = none ∧ Instr.dest? (.cmp 1 3) = none
      ∧ writesRes (.add 3 1 1) = false
      ∧ (demo 1).busy = false ∧ (portRead 0x00006 { demo 1 with flagLT := true }).rdata = some 2 :=
  ⟨demo_inv 1, by decide +kernel⟩

theorem witness_ResChangesOnlyByItsCommands : (demo 0).busy = false ∧ writesRes .nop = false := by decide +kernel

theorem witness_ResetMeetsTheInvariant :
    Params.Legal ⟨.w32, 2, 0⟩ ∧ Params.Legal ⟨.w64, 4096, 0x40000000⟩ ∧ Params.Legal Config.params := by decide

/-- A step that completes, a step that reads, and a step that resets, from states that meet the invariant. -/
theorem witness_StepKeepsTheInvariant :
    (flying 0 0x40C48000).Inv ∧ State.Inv { demo 0 with inputs := [.read 0x11000] }
      ∧ State.Inv { flying 0 0 with inputs := [.hardReset] }
      ∧ onNext (step (flying 0 0x40C48000)) (fun _ => true) = true
      ∧ onNext (step { demo 0 with inputs := [.read 0x11000] }) (fun t => t.rdata == some 1) = true
      ∧ onNext (step { flying 0 0 with inputs := [.hardReset] }) (fun t => !t.busy) = true :=
  ⟨flying_inv _ _, inv_inputs (demo_inv 0) _, inv_inputs (flying_inv _ _) _, by decide +kernel⟩

theorem witness_IdIsConstant : (demo32 31).Inv ∧ onNext (step (demo32 31)) (fun t => t.idWord == 0x32001) = true :=
  ⟨witness_demo32_inv.1, by decide +kernel⟩

/-- B1 = 7 clamped, and B1 = 7 with LEN 3. -/
theorem witness_UnclampedOperandsReadByValue :
    let s := start .w64 3 [(1, [7]), (2, [5])] 1
    let s' := start .w64 3 [(1, [7, 0, 0]), (2, [5])] 1
    s.Inv ∧ s'.Inv ∧ s'.params = s.params ∧ s'.arg = s.arg ∧ s'.res = s.res ∧ s'.flagZ = s.flagZ ∧ s'.flagLT = s.flagLT
      ∧ s'.flagEQ = s.flagEQ ∧ (∀ r, s'.val r = s.val r) ∧ s'.len 1 ≠ s.len 1
      ∧ onNext (exec (.mul 3 1 2) s) (fun t => t.val 3 == 35) = true ∧ onNext (exec (.mul 3 1 2) s') (fun t => t.val 3 == 35) = true
      ∧ onNext (exec (.sub 3 2 1) s) (fun t => t.err == .subNeg) = true
      ∧ onNext (exec (.sub 3 2 1) s') (fun t => t.err == .subNeg) = true :=
  ⟨inv_of_check (by decide +kernel), inv_of_check (by decide +kernel), by decide +kernel⟩

/-- The edges of the map's ranges (R39). -/
theorem witness_PortMapIsComplete :
    (demo 0).Inv ∧ [0x00006, 0x00007, 0x0000F, 0x00010, 0x0001F, 0x00020, 0x0FFFF, 0x10000, 0x10001, 0x10002, 0x10FFF, 0x11000,
        0x1F001, 0x1F002, 0x1FFFF].map (portReg (demo 0).maxLimbs)
      = [.flags, .reserved, .reserved, .len 0, .len 15, .reserved, .reserved, .limb 0 0, .limb 0 1, .reserved, .reserved, .limb 1 0,
        .limb 15 1, .reserved, .reserved] :=
  ⟨demo_inv 0, by decide +kernel⟩

theorem witness_ReadsAreExactUnlessBusy :
    (demo 0).Inv ∧ (flying 0 0).Inv ∧ (demo 0).busy = false ∧ (flying 0 0).busy = true
      ∧ portReg (flying 0 0).maxLimbs 0x00002 = .status ∧ portReg (flying 0 0).maxLimbs 0x11000 = .limb 1 0 :=
  ⟨demo_inv 0, flying_inv 0 0, by decide +kernel⟩

theorem witness_RepeatedAccessesAgree :
    (demo 0).busy = false ∧ portReg (demo 0).maxLimbs 0x11001 ∉ [.cmd, .ctrl, .status]
      ∧ portReg (demo 0).maxLimbs 0x00004 ∉ [.cmd, .ctrl, .status] := by decide +kernel

theorem witness_StatusFieldsAndWriteOneToClear :
    State.Inv { demo 0 with done := true, err := .capacity, lost := true, werr := true } ∧ (flying 0 0).Inv :=
  ⟨inv_of_check (by decide +kernel), flying_inv 0 0⟩

/-- LEN values 1, MAX_LIMBS, 0 and MAX_LIMBS + 1, the top limb, and both phases. -/
theorem witness_OperandWritesStoreOrDrop :
    (demo 0).Inv ∧ (flying 0 0).Inv ∧ (demo 0).busy = false ∧ (flying 0 0).busy = true
      ∧ ([0, 1, 2, 3, 0xFFFFFFFFFFFFFFFF].all fun v : Word => decide (v.toNat < 2 ^ (demo 0).W)) = true ∧ 1 < (demo 0).maxLimbs
      ∧ (1 ≤ (2 : Word).toNat ∧ (2 : Word).toNat ≤ (demo 0).maxLimbs) ∧ (demo 0).maxLimbs < (3 : Word).toNat :=
  ⟨demo_inv 0, flying_inv 0 0, by decide +kernel⟩

/-- A port write that is dropped, and the three resets: by the port, by the byte bus, by the reset input; and byte-bus writes that
are none, for their bit, their address or their byte. -/
theorem witness_OperandsStandWhileBusy :
    (flying 0 0x40C48000).busy = true ∧ HostEvent.write 0x11000 9 ≠ .pause ∧ HostEvent.write 1 2 ≠ .pause
      ∧ onNext (turn (.write 0x11000 9) (flying 0 0x40C48000)) (fun t => t.busy && t.val 1 == 1 && t.werr) = true
      ∧ onNext (turn (.write 1 2) (flying 0 0x40C48000)) (fun t => !t.busy) = true
      ∧ onNext (turn (.busWrite 8 [2, 0, 0, 0, 0, 0, 0, 0]) (flying 0 0x40C48000)) (fun t => !t.busy) = true
      ∧ onNext (turn (.busWrite 8 [0xFD, 2, 0, 0, 0, 0, 0, 0]) (flying 0 0x40C48000)) (fun t => t.busy && t.ie) = true
      ∧ [HostEvent.write 1 2, .busWrite 8 [2, 0, 0, 0, 0, 0, 0, 0], .hardReset].all (resetsBlock (flying 0 0x40C48000).params) = true
      ∧ [HostEvent.write 1 0xFD, .write 0x11000 9, .busWrite 8 [0xFD, 2, 0, 0, 0, 0, 0, 0], .busWrite 16 [2, 0, 0, 0, 0, 0, 0, 0],
          .busWrite 8 [2], .read 1, .busRead 8 8].any (resetsBlock (flying 0 0x40C48000).params) = false := by decide +kernel

theorem witness_ResetPutsEveryStateToItsValue :
    (2 : Word).getLsbD 1 = true ∧ (0xFD : Word).getLsbD 1 = false := by decide

theorem witness_IrqIsIeAndDone :
    (2 : Word).getLsbD 1 = true ∧ (0xFD : Word).getLsbD 1 = false ∧ (0xFE : Word).getLsbD 0 = false ∧ (demo 0).busy = false
      ∧ onNext (exec .nop { demo 0 with ie := true }) (fun t => t.irq) = true
      ∧ onNext (turn .hardReset { demo 0 with ie := true, done := true }) (fun t => !t.irq) = true := by decide +kernel

/-- The first and the last index, an address before the window, between two words, and after the window. -/
theorem witness_ByteBusUsesLittleEndianLanes :
    let s := State.resetOf ⟨.w64, 2, 0x100000⟩
    s.Inv ∧ (0xFFFFFFFFFFFFFFFF : Word).toNat < 2 ^ s.W
      ∧ onNext (turn (.busRead 0x100000 8) s) (fun t => t.rdata == some 0x24001) = true
      ∧ onNext (turn (.busRead 0x1FFFF8 8) s) (fun t => t.rdata == some 0) = true
      ∧ refusedWith (turn (.busRead 0xFFFF8 8) s) .busAlignment = true
      ∧ refusedWith (turn (.busRead 0x100004 8) s) .busAlignment = true
      ∧ refusedWith (turn (.busRead 0x200000 8) s) .busAlignment = true
      ∧ refusedWith (turn (.busWrite 0x100000 [0]) s) .busWidth = true
      ∧ [(0 : Byte)].length ≠ s.W / 8 :=
  ⟨inv_of_check (by decide +kernel), by decide +kernel⟩

theorem witness_LoadedLimbsAreTheValue :
    (demo 0).Inv ∧ (demo 0).busy = false
      ∧ ([[7], [0, 0xFFFFFFFFFFFFFFFF]].all fun ls : List Word => decide (1 ≤ ls.length) && decide (ls.length ≤ (demo 0).maxLimbs)
          && ls.all fun l => decide (l.toNat < 2 ^ (demo 0).W)) = true :=
  ⟨demo_inv 0, by decide +kernel⟩

theorem witness_AcceptedCommandCompletesUnlessReset :
    let events : List HostEvent :=
      [.read 2, .write 0x11000 9, .write 1 1, .busRead 16 8, .busRead 0xFFFF8 8, .busWrite 8 [1, 0, 0, 0, 0, 0, 0, 0], .pause]
    { flying 0 0x40C48000 with inputs := events }.busy = true
      ∧ (∀ e ∈ events, keepsCommand (flying 0 0x40C48000).params e = true)
      ∧ [HostEvent.write 1 2, .hardReset, .busWrite 8 [2, 0, 0, 0, 0, 0, 0, 0], .busRead 16 4, .busRead 12 8, .busRead 0x100000 8].any
          (keepsCommand (flying 0 0x40C48000).params) = false := by decide +kernel

theorem witness_RacesAdmitBothOrders : (flying 0 0x40C48000).busy = true ∧ (2 : Word).getLsbD 1 = true := by decide +kernel

/-- GROW to MAX_LIMBS and beyond; GETBIT and SETBIT at bit 63 and 64 of one limb. -/
theorem witness_GrowAndBits :
    (demo 2).arg.toNat ≤ (demo 2).maxLimbs ∧ (demo 2).maxLimbs < (demo 3).arg.toNat
      ∧ (demo 63).arg.toNat < (demo 63).W * (demo 63).len 1 ∧ (demo 64).W * (demo 64).len 1 ≤ (demo 64).arg.toNat := by decide +kernel

/-- SHL of 1 by 127 fits two limbs and by 128 does not (V36, V37); ADDW of 1 to 2**128 - 2 and to 2**128 - 1; SUBW of 1 from 1
and of 2 from 1; MULW of 2**64 by 1 and of 2**128 - 1 by 2. -/
theorem witness_WordCommands :
    clen 64 ((demo 127).val 1 * 2 ^ (demo 127).arg.toNat) ≤ (demo 127).maxLimbs
      ∧ (demo 128).maxLimbs < clen 64 ((demo 128).val 1 * 2 ^ (demo 128).arg.toNat)
      ∧ (demo 1).val 10 + (demo 1).arg.toNat < 2 ^ (demo 1).params.capBits
      ∧ 2 ^ (demo 1).params.capBits ≤ (demo 1).val 2 + (demo 1).arg.toNat
      ∧ (demo 1).arg.toNat ≤ (demo 1).val 1 ∧ (demo 2).val 1 < (demo 2).arg.toNat
      ∧ clen 64 ((demo 1).val 6 * (demo 1).arg.toNat) ≤ (demo 1).maxLimbs
      ∧ (demo 2).maxLimbs < clen 64 ((demo 2).val 2 * (demo 2).arg.toNat) := by decide +kernel

/-- ADD: 2**128 - 2 and 1, 2**128 - 1 and 1; SUB: 1 from 1, 497 from 1; MUL: 2**64 and 1, 2**64 and 2**64, a zero factor;
DIV and REM: divisors 1 and 0, the latter with LEN 2. -/
theorem witness_KernelAndDivision :
    (demo 0).val 10 + (demo 0).val 1 < 2 ^ (demo 0).params.capBits ∧ 2 ^ (demo 0).params.capBits ≤ (demo 0).val 2 + (demo 0).val 1
      ∧ (demo 0).val 1 ≤ (demo 0).val 1 ∧ (demo 0).val 1 < (demo 0).val 3
      ∧ clen 64 ((demo 0).val 6 * (demo 0).val 1) ≤ (demo 0).maxLimbs ∧ (demo 0).val 6 * (demo 0).val 1 ≠ 0
      ∧ (demo 0).val 6 * (demo 0).val 4 = 0 ∧ (demo 0).maxLimbs < clen 64 ((demo 0).val 6 * (demo 0).val 6)
      ∧ (demo 0).val 1 ≠ 0 ∧ (demo 0).val 4 = 0 ∧ (demo 0).len 4 = 2 := by decide +kernel

/-- MRHO: odd and even moduli; MONTMUL: operands below an odd modulus, an even modulus, an operand equal to the modulus, m = 1;
POW: 2**127 fits and 2**128 does not (V146, V147); POWMOD: a non-zero and a zero modulus. -/
theorem witness_Modular :
    (demo 0).val 3 % 2 = 1 ∧ (demo 0).val 4 % 2 = 0 ∧ (demo 0).val 5 % 2 = 0
      ∧ (demo 0).val 5 < (demo 0).val 3 ∧ (demo 0).val 1 < (demo 0).val 3 ∧ (demo 0).val 3 ≤ (demo 0).val 3
      ∧ (demo 0).val 1 % 2 = 1 ∧ (demo 0).val 0 < (demo 0).val 1
      ∧ clen 64 ((demo 0).val 9 ^ (demo 0).val 7) ≤ (demo 0).maxLimbs
      ∧ (demo 0).maxLimbs < clen 64 ((demo 0).val 9 ^ (demo 0).val 8)
      ∧ (demo 0).val 3 ≠ 0 ∧ (demo 0).val 4 = 0 := by decide +kernel

/-- Limbs at both ends of their range, divisors of one and two limbs, an odd modulus, at W = 32. -/
theorem witness_Units :
    ([0, 2 ^ 32 - 1].all fun x => decide (x < 2 ^ 32)) = true ∧ 0 < 1 ∧ 0 < 2 ^ 32 + 1 ∧ 1 % 2 = 1 ∧ 497 % 2 = 1 ∧ 4 < 497 ∧ 13 < 497
      ∧ (subUnit (2 ^ 32) [0, 1] [1] 0).2 = 0 ∧ (subUnit (2 ^ 32) [1] [0, 1] 0).2 = 1 := by decide +kernel

end Sys2Proof.Tests
end

section
/-! Proofs of the scope family: a command's result is clamped (R19, R24), and a command reads its operands by value (R19, R21). -/

namespace Sys2Proof.Machine

/-! ### Results are clamped -/

/-- A result write that fits leaves its register clamped (R24). -/
theorem State.clamped_writeResult {s : State} (d : Reg) {v : Nat} (hv : clen s.W v ≤ s.maxLimbs) :
    (s.writeResult d v).Clamped d := by
  simp only [State.Clamped, State.writeResult, State.len_setZ, State.val_setZ, State.W_setZ, State.W_writeB,
    State.len_writeB_self, State.val_writeB_self d hv]

/-- The destination of every effect but GROW's is clamped. -/
theorem Effect.clamped_dest {i : Instr} {s s' : State} {d : Reg} (he : Effect i s s') (hs : s.Inv) (hd : i.dest? = some d)
    (hg : ∀ d', i ≠ .grow d') : s'.Clamped d := by
  cases he with
  | nothing hi => subst hi; cases hd
  | result d' v hd' _ hv =>
    obtain rfl : d' = d := Option.some.inj (hd'.symm.trans hd)
    exact State.clamped_writeResult d' (hv hs)
  | scalar v hd' _ => rw [hd'] at hd; cases hd
  | compare a b hi => subst hi; cases hd
  | grown d' hi _ => exact absurd hi (hg d')
  | both d' a hi hv =>
    subst hi
    obtain rfl : d' = d := Option.some.inj hd
    exact State.clamped_writeResult d' hv

/-- Settles O18: a successful command is one of the shapes of `Effect`, and each but GROW's ends in a result write that fits. -/
theorem resultsAreClamped : Obligations.ResultsAreClamped := by
  intro i s t d hs ht herr hd hg
  obtain ⟨s', he, rfl⟩ | ⟨c, hc, _, rfl⟩ := exec_effect ht
  · exact he.clamped_dest hs hd hg
  · exact absurd herr hc

/-! ### Operands are read by value -/

/-- Two states that agree in all a command reads by number: the parameters, ARG and the registers' values, and in what it may
leave as it was: RES and the flags. LEN and the limbs are free. -/
structure SameNumbers (s s' : State) : Prop where
  params : s'.params = s.params
  arg    : s'.arg = s.arg
  res    : s'.res = s.res
  flagZ  : s'.flagZ = s.flagZ
  flagLT : s'.flagLT = s.flagLT
  flagEQ : s'.flagEQ = s.flagEQ
  val    : ∀ r, s'.val r = s.val r

section
variable {s s' : State}

theorem SameNumbers.W (h : SameNumbers s s') : s'.W = s.W := by rw [State.W, h.params, State.W]

theorem SameNumbers.maxLimbs (h : SameNumbers s s') : s'.maxLimbs = s.maxLimbs := by
  rw [State.maxLimbs, h.params, State.maxLimbs]

theorem SameNumbers.scalar (h : SameNumbers s s') : s'.scalar = s.scalar := by rw [State.scalar, h.arg, State.scalar]

theorem SameNumbers.fits (h : SameNumbers s s') (v : Nat) : s'.fits v = s.fits v := by
  rw [State.fits, h.W, h.maxLimbs, State.fits]

/-- `WriteB(d, v)` writes the same register whatever the state held (R24). -/
theorem SameNumbers.writeResult_dest (h : SameNumbers s s') (d : Reg) (v : Nat) :
    (s'.writeResult d v).regs[d] = (s.writeResult d v).regs[d] := by
  simp [h.W, h.maxLimbs]

theorem SameNumbers.writeResult (h : SameNumbers s s') (d : Reg) (v : Nat) :
    SameNumbers (s.writeResult d v) (s'.writeResult d v) where
  params := h.params
  arg := h.arg
  res := h.res
  flagZ := rfl
  flagLT := h.flagLT
  flagEQ := h.flagEQ
  val r := by
    by_cases hr : r = d
    · subst hr
      rw [State.val, h.writeResult_dest r v, State.W_writeResult, h.W]
      rfl
    · simp only [State.writeResult, State.val_setZ, State.val_writeB_ne _ hr, h.val]

theorem SameNumbers.setRes (h : SameNumbers s s') (v : Nat) : SameNumbers (s.setRes v) (s'.setRes v) :=
  { h with res := by rw [State.res_setRes, h.W, State.res_setRes] }

theorem SameNumbers.setCompare (h : SameNumbers s s') (a b : Nat) : SameNumbers (s.setCompare a b) (s'.setCompare a b) :=
  { h with flagLT := rfl, flagEQ := rfl }

theorem SameNumbers.complete (h : SameNumbers s s') (code : ErrCode) : SameNumbers (s.complete code) (s'.complete code) :=
  { h with }

/-- Two answers of a command's rule that agree: the same error, or effects with the same numbers and the same destination register. -/
inductive SameAnswer (dest : Option Reg) : Except ErrCode State → Except ErrCode State → Prop where
  | error (code : ErrCode) (hc : code ≠ .none := by decide) : SameAnswer dest (.error code) (.error code)
  | ok {r r' : State} (h : SameNumbers r r') (hd : ∀ d, dest = some d → r'.regs[d] = r.regs[d]) :
      SameAnswer dest (.ok r) (.ok r')

/-- A check on numbers selects the same branch of both answers. -/
theorem SameAnswer.ite {dest : Option Reg} {c : Prop} [Decidable c] {p q p' q' : Except ErrCode State}
    (hp : SameAnswer dest p p') (hq : SameAnswer dest q q') :
    SameAnswer dest (if c then p else q) (if c then p' else q') := by
  split
  · exact hp
  · exact hq

/-- An effect without a destination register. -/
theorem SameNumbers.okNone (h : SameNumbers s s') : SameAnswer none (.ok s) (.ok s') :=
  .ok h fun _ hd => nomatch hd

theorem SameNumbers.okResult (h : SameNumbers s s') (d : Reg) (v : Nat) :
    SameAnswer (some d) (.ok (s.writeResult d v)) (.ok (s'.writeResult d v)) :=
  .ok (h.writeResult d v) fun _ hd => Option.some.inj hd ▸ h.writeResult_dest d v

theorem SameNumbers.okBoth (h : SameNumbers s s') (d : Reg) (v x : Nat) :
    SameAnswer (some d) (.ok ((s.writeResult d v).setRes x)) (.ok ((s'.writeResult d v).setRes x)) :=
  .ok ((h.writeResult d v).setRes x) fun _ hd => Option.some.inj hd ▸ h.writeResult_dest d v

theorem SameNumbers.writeOrCapacity (h : SameNumbers s s') (d : Reg) (v : Nat) :
    SameAnswer (some d) (s.writeOrCapacity d v) (s'.writeOrCapacity d v) := by
  simp only [State.writeOrCapacity, h.fits]
  exact .ite (h.okResult d v) (.error _)

/-- Two completions that agree: the same code, the same numbers and, where there is no error, the same destination register. -/
def SameCompletion (dest : Option Reg) (o o' : Host.Outcome State Fault Refusal) : Prop :=
  ∀ t t', o = .next t → o' = .next t' →
    t'.err = t.err ∧ SameNumbers t t' ∧ ∀ d, dest = some d → t.err = .none → t'.regs[d] = t.regs[d]

/-- Agreeing answers complete alike (R181, R182). -/
theorem SameNumbers.completion (h : SameNumbers s s') {dest : Option Reg} {p p' : Except ErrCode State}
    (ha : SameAnswer dest p p') : SameCompletion dest (completion s p) (completion s' p') := by
  intro t t' ht ht'
  cases ha with
  | error code hc =>
    obtain rfl := Host.Outcome.next.inj ht
    obtain rfl := Host.Outcome.next.inj ht'
    exact ⟨rfl, h.complete _, fun _ _ he => absurd he hc⟩
  | ok hr hd =>
    obtain rfl := Host.Outcome.next.inj ht
    obtain rfl := Host.Outcome.next.inj ht'
    exact ⟨rfl, hr.complete _, fun d hdest _ => hd d hdest⟩

/-- Every command but GETBIT, SETBIT and GROW reads the registers by value alone, so its two completions agree (R19, R21). -/
theorem SameNumbers.exec_same (h : SameNumbers s s') (i : Instr) (hget : ∀ a, i ≠ .getbit a) (hset : ∀ d v, i ≠ .setbit d v)
    (hgrow : ∀ d, i ≠ .grow d) : SameCompletion i.dest? (exec i s) (exec i s') := by
  -- each rule's conditions and results in the numbers of the first state
  cases i <;> simp only [exec, execNop, execMov, execClamp, execGrow, execBitlen, execBytelen, execGetbit, execSetbit, execCmp,
    execShl, execShr, execAddw, execSubw, execMulw, execAdd, execSub, execMul, execDiv, execRem, execGcd, execMrho, execMontmul,
    execPow, execPowmod, h.val, h.scalar, h.W, h.fits, h.params] <;> apply h.completion
  case nop => exact h.okNone
  case mov d a => exact h.okResult d _
  case clamp d => exact h.okResult d _
  case grow d => exact absurd rfl (hgrow d)
  case bitlen a => exact (h.setRes _).okNone
  case bytelen a => exact (h.setRes _).okNone
  case getbit a => exact absurd rfl (hget a)
  case setbit d v => exact absurd rfl (hset d v)
  case cmp a b => exact (h.setCompare _ _).okNone
  case shl d a => exact .ite (h.okResult d _) (.error _)
  case shr d a => exact h.okResult d _
  case addw d a => exact h.writeOrCapacity d _
  case subw d a => exact .ite (.error _) (h.okResult d _)
  case mulw d a => exact .ite (h.okBoth d _ _) (.error _)
  case add d a b => exact h.writeOrCapacity d _
  case sub d a b => exact .ite (.error _) (h.okResult d _)
  case mul d a b => exact h.writeOrCapacity d _
  case div d a b => exact .ite (.error _) (h.okResult d _)
  case rem d a b => exact .ite (.error _) (h.okResult d _)
  case gcd d a b => exact h.okResult d _
  case mrho m => exact .ite (.error _) (h.setRes _).okNone
  case montmul d x y m => exact .ite (.error _) (.ite (.error _) (h.okResult d _))
  case pow d b e => exact .ite (h.writeOrCapacity d _) (.error _)
  case powmod d b e m => exact .ite (.error _) (h.okResult d _)

end

/-- Settles O19: the two runs' rules give agreeing answers, command by command, and agreeing answers complete alike. -/
theorem unclampedOperandsReadByValue : Obligations.UnclampedOperandsReadByValue := by
  intro i s s' t t' _ _ hparams harg hres hZ hLT hEQ hval hget hset hgrow ht ht'
  have h : SameNumbers s s' := ⟨hparams, harg, hres, hZ, hLT, hEQ, hval⟩
  obtain ⟨herr, hn, hdest⟩ := h.exec_same i hget hset hgrow t t' ht ht'
  exact ⟨herr, hn.res, hn.flagZ, hn.flagLT, hn.flagEQ, hn.val, hdest⟩

end Sys2Proof.Machine
end

section
/-! Proofs of the state family: what every step keeps (R20 to R41), what a command changes, and the port registers. -/

namespace Sys2Proof.Machine

/-! ### The invariant -/

/-- All the engine's turn can do: a command, the completion of an illegal word, or nothing (R181, R86). -/
theorem engineTurn_cases {s t : State} (h : engineTurn s = .next t) :
    (∃ i, exec i s = .next t) ∨ t = s.complete .illegal ∨ t = s := by
  unfold engineTurn at h
  split at h
  · split at h
    · next i _ => exact .inl ⟨i, h⟩
    · exact .inr (.inl (Host.Outcome.next.inj h).symm)
  · exact .inr (.inr (Host.Outcome.next.inj h).symm)

/-- All an event can do: a port read, a port write, the engine's turn, or the reset. -/
theorem turn_cases {s t : State} {e : HostEvent} (h : turn e s = .next t) :
    (∃ k, t = portRead k s) ∨ (∃ k v, t = portWrite k v s) ∨ engineTurn s = .next t ∨ t = s.toReset := by
  cases e with
  | read k => exact .inl ⟨k, (Host.Outcome.next.inj h).symm⟩
  | write k v => exact .inr (.inl ⟨k, v, (Host.Outcome.next.inj h).symm⟩)
  | busRead addr size =>
    obtain ⟨k, _, ht⟩ := busRead_cases h
    exact .inl ⟨k, ht⟩
  | busWrite addr bytes =>
    obtain ⟨k, _, ht⟩ := busWrite_cases h
    exact .inr (.inl ⟨k, _, ht⟩)
  | hardReset => exact .inr (.inr (.inr (Host.Outcome.next.inj h).symm))
  | pause => exact .inr (.inr (.inl h))

theorem inv_engineTurn {s t : State} (h : s.Inv) (ht : engineTurn s = .next t) : t.Inv := by
  obtain ⟨i, hi⟩ | rfl | rfl := engineTurn_cases ht
  · exact inv_exec h hi
  · exact inv_complete h (by decide)
  · exact h

/-- Every event keeps the invariant. -/
theorem inv_turn {s t : State} {e : HostEvent} (h : s.Inv) (ht : turn e s = .next t) : t.Inv := by
  obtain ⟨k, rfl⟩ | ⟨k, v, rfl⟩ | ht | rfl := turn_cases ht
  · exact inv_portRead h k
  · exact inv_portWrite h k v
  · exact inv_engineTurn h ht
  · exact inv_toReset h

/-- All a step can do: the engine's turn where no event is left, else the next event from the state without it. -/
theorem step_cases {s t : State} (h : step s = .next t) :
    (s.inputs = [] ∧ engineTurn s = .next t)
      ∨ ∃ e rest, s.inputs = e :: rest ∧ turn e { s with inputs := rest } = .next t := by
  unfold step at h
  split at h
  · next hn => exact .inl ⟨hn, h⟩
  · next e rest hc => exact .inr ⟨e, rest, hc, h⟩

/-- Settles O16: a step is the engine's turn or one event, each of which keeps the invariant, and the accesses still to come
have no part in it. -/
theorem stepKeepsTheInvariant : Obligations.StepKeepsTheInvariant := by
  intro s t hs ht
  obtain ⟨_, ht⟩ | ⟨e, rest, _, ht⟩ := step_cases ht
  · exact inv_engineTurn hs ht
  · exact inv_turn (show State.Inv { s with inputs := rest } from hs) ht

/-- Settles O15: the reset state of every legal block meets the invariant, and the default parameters are legal. -/
theorem resetMeetsTheInvariant : Obligations.ResetMeetsTheInvariant :=
  ⟨inv_resetOf (by decide), fun _ hp => inv_resetOf hp⟩

/-- MAX_LIMBS is at most 4096 (R9). -/
theorem State.maxLimbs_le {s : State} (h : s.Inv) : s.maxLimbs ≤ 4096 := by
  obtain ⟨⟨_, hm, _⟩, _⟩ := h
  exact hm

/-! ### What no command writes -/

/-- The fields no command writes are as they were (R15). -/
structure CommandFrame (s t : State) : Prop where
  params : t.params = s.params
  ie     : t.ie = s.ie
  lost   : t.lost = s.lost
  werr   : t.werr = s.werr
  cmd    : t.cmd = s.cmd
  arg    : t.arg = s.arg
  inputs : t.inputs = s.inputs
  rdata  : t.rdata = s.rdata

theorem Effect.frame {i : Instr} {s s' : State} (he : Effect i s s') : CommandFrame s s' := by
  cases he <;> exact ⟨rfl, rfl, rfl, rfl, rfl, rfl, rfl, rfl⟩

theorem exec_frame {i : Instr} {s t : State} (h : exec i s = .next t) : CommandFrame s t := by
  obtain ⟨s', he, rfl⟩ | ⟨c, _, _, rfl⟩ := exec_effect h
  · exact { he.frame with }
  · exact ⟨rfl, rfl, rfl, rfl, rfl, rfl, rfl, rfl⟩

/-- An effect leaves every register but the command's destination (R26). -/
theorem Effect.regs_of_not_dest {i : Instr} {s s' : State} (he : Effect i s s') {r : Reg} (hr : i.dest? ≠ some r) :
    s'.regs[r] = s.regs[r] := by
  cases he with
  | nothing _ => rfl
  | result d v hd _ _ => exact s.regs_setReg_ne _ fun e => hr (e ▸ hd)
  | scalar v _ _ => rfl
  | compare a b _ => rfl
  | grown d hi _ => exact s.regs_setReg_ne _ fun e => hr (by rw [hi, e]; rfl)
  | both d a hi _ => exact s.regs_setReg_ne _ fun e => hr (by rw [hi, e]; rfl)

/-- Settles O12: every effect writes at most the destination register, and an error writes no register. -/
theorem onlyTheDestinationRegisterChanges : Obligations.OnlyTheDestinationRegisterChanges := by
  intro i s t ht
  have hf := exec_frame ht
  refine ⟨fun r hr => ?_, hf.params, hf.ie, hf.lost, hf.werr, hf.cmd, hf.arg, hf.inputs, hf.rdata⟩
  obtain ⟨s', he, rfl⟩ | ⟨c, _, _, rfl⟩ := exec_effect ht
  · exact he.regs_of_not_dest hr
  · rfl

/-! ### Words of the port, and reads and writes of one register -/

/-- A bit of a port word, by the number the word is made of. -/
theorem ofNat_getLsbD {n j : Nat} {b : Bool} (hj : j < 64) (h : n / 2 ^ j % 2 = b.toNat) :
    (BitVec.ofNat 64 n).getLsbD j = b := by
  rw [BitVec.getLsbD, BitVec.toNat_ofNat, Nat.testBit_mod_two_pow, Nat.testBit_eq_decide_div_mod_eq, h]
  cases b <;> simp [hj]

/-- A field of a port word, by the number the word is made of. -/
theorem ofNat_extractLsb_toNat (n hi lo : Nat) :
    ((BitVec.ofNat 64 n).extractLsb hi lo).toNat = n % 2 ^ 64 / 2 ^ lo % 2 ^ (hi - lo + 1) := by
  simp [Nat.shiftRight_eq_div_pow]

/-- A read is exact while BUSY = 0, and at every time for a register that is not one of R206's (R67, R206). -/
theorem portRead_exact {s : State} {k : PortIndex} (h : s.busy = false ∨ (portReg s.maxLimbs k).anyWhileBusy = false) :
    portRead k s = { s with rdata := some (s.readReg (portReg s.maxLimbs k)) } := by
  refine if_neg ?_
  rcases h with h | h <;> simp [h]

theorem portRead_rdata {s : State} {k : PortIndex} {t : PortReg} (hk : portReg s.maxLimbs k = t)
    (h : s.busy = false ∨ t.anyWhileBusy = false) : (portRead k s).rdata = some (s.readReg t) := by
  subst hk
  rw [portRead_exact h]

/-- All a CTRL write does: SRST and IE are bits of every W-bit word, so the cut to W bits is not seen (R32, R201). -/
theorem portWrite_ctrl (s : State) (v : Word) :
    portWrite 0x00001 v s = if v.getLsbD 1 then s.toReset else { s with ie := v.getLsbD 0 } := by
  change s.writeCtrl (wordOf s.W v.toNat) = _
  simp only [State.writeCtrl, wordOf_getLsbD s v (show 0 < 32 by decide), wordOf_getLsbD s v (show 1 < 32 by decide)]

/-- All a STATUS write does, whether BUSY or not (R33). -/
theorem portWrite_status (s : State) (v : Word) : portWrite 0x00002 v s =
    { s with done := s.done && !v.getLsbD 1, lost := s.lost && !v.getLsbD 8, werr := s.werr && !v.getLsbD 9 } := by
  change s.writeStatus (wordOf s.W v.toNat) = _
  simp only [State.writeStatus, wordOf_getLsbD s v (show 1 < 32 by decide), wordOf_getLsbD s v (show 8 < 32 by decide),
    wordOf_getLsbD s v (show 9 < 32 by decide)]
  cases v.getLsbD 1 <;> simp [State.acknowledge]

/-! ### FLAGS -/

/-- Z after an effect of a command with a destination is the zero test of the destination's value (R29). -/
theorem Effect.flagZ_of_dest {i : Instr} {s s' : State} {d : Reg} (he : Effect i s s') (hs : s.Inv) (hd : i.dest? = some d) :
    s'.flagZ = decide (s'.val d = 0) := by
  cases he with
  | nothing hi => subst hi; cases hd
  | result d' v hd' _ hv =>
    obtain rfl : d' = d := Option.some.inj (hd'.symm.trans hd)
    rw [State.flagZ_writeResult, State.writeResult, State.val_setZ, State.val_writeB_self d' (hv hs), beq_eq_decide]
  | scalar v hd' _ => rw [hd'] at hd; cases hd
  | compare a b hi => subst hi; cases hd
  | grown d' hi _ =>
    subst hi
    obtain rfl : d' = d := Option.some.inj hd
    rw [State.flagZ_setZ, State.val_setZ, beq_eq_decide]
  | both d' a hi hv =>
    subst hi
    obtain rfl : d' = d := Option.some.inj hd
    rw [State.flagZ_setRes, State.flagZ_writeResult, State.val_setRes, State.writeResult, State.val_setZ,
      State.val_writeB_self d' hv, beq_eq_decide]

/-- A command without a destination leaves Z (R29). -/
theorem Effect.flagZ_of_no_dest {i : Instr} {s s' : State} (he : Effect i s s') (hd : i.dest? = none) : s'.flagZ = s.flagZ := by
  cases he with
  | nothing _ => rfl
  | result d v hd' _ _ => rw [hd'] at hd; cases hd
  | scalar v _ _ => rfl
  | compare a b _ => rfl
  | grown d hi _ => subst hi; cases hd
  | both d a hi _ => subst hi; cases hd

/-- Only CMP writes LT and EQ (R30). -/
theorem Effect.compareFlags_of_not_cmp {i : Instr} {s s' : State} (he : Effect i s s') (hi : ∀ a b, i ≠ .cmp a b) :
    s'.flagLT = s.flagLT ∧ s'.flagEQ = s.flagEQ := by
  cases he with
  | compare a b hc => exact absurd hc (hi a b)
  | _ => exact ⟨rfl, rfl⟩

/-- CMP always completes with LT and EQ from the two values (R30, R108). -/
theorem exec_cmp (a b : Reg) (s : State) : exec (.cmp a b) s = .next ((s.setCompare (s.val a) (s.val b)).complete .none) := rfl

/-- FLAGS as read: Z, LT and EQ in bits 0, 1 and 2, and 0 above (R28). -/
theorem State.flagsWord_fields (s : State) :
    s.flagsWord.getLsbD 0 = s.flagZ ∧ s.flagsWord.getLsbD 1 = s.flagLT ∧ s.flagsWord.getLsbD 2 = s.flagEQ
      ∧ (s.flagsWord.extractLsb 63 3).toNat = 0 := by
  have hz := s.flagZ.toNat_lt
  have hl := s.flagLT.toNat_lt
  have he := s.flagEQ.toNat_lt
  unfold State.flagsWord
  refine ⟨ofNat_getLsbD ?_ ?_, ofNat_getLsbD ?_ ?_, ofNat_getLsbD ?_ ?_, (ofNat_extractLsb_toNat _ _ _).trans ?_⟩ <;> omega

/-- Settles O13: the flags' rules hold for each shape of effect, and an error leaves them. -/
theorem flagsFollowTheirRules : Obligations.FlagsFollowTheirRules := by
  refine ⟨fun i s t hs ht => ?_, fun s hb => ⟨_, portRead_rdata (t := .flags) rfl (.inl hb), s.flagsWord_fields⟩, fun _ _ => rfl⟩
  have hcmp : ∀ a b, i = .cmp a b → t.flagLT = decide (s.val a < s.val b) ∧ t.flagEQ = decide (s.val a = s.val b) := by
    rintro a b rfl
    obtain rfl := Host.Outcome.next.inj ((exec_cmp a b s).symm.trans ht)
    exact ⟨rfl, beq_eq_decide _ _⟩
  obtain ⟨_, _, _, _, _, _, _, hnever, _⟩ := inv_exec hs ht
  obtain ⟨s', he, rfl⟩ | ⟨c, hc, _, rfl⟩ := exec_effect ht
  · exact ⟨fun h => absurd rfl h, fun _ d hd => he.flagZ_of_dest hs hd, he.flagZ_of_no_dest, hcmp,
      he.compareFlags_of_not_cmp, hnever⟩
  · exact ⟨fun _ => ⟨rfl, rfl, rfl⟩, fun h => absurd h hc, fun _ => rfl, hcmp, fun _ => ⟨rfl, rfl⟩, hnever⟩

/-! ### RES -/

/-- A command that is not one of R36's leaves RES. -/
theorem Effect.res_of_not_writesRes {i : Instr} {s s' : State} (he : Effect i s s') (hi : writesRes i = false) : s'.res = s.res := by
  cases he with
  | nothing _ => rfl
  | result d v _ _ _ => rfl
  | scalar v _ hr => rw [hr] at hi; cases hi
  | compare a b _ => rfl
  | grown d _ _ => rfl
  | both d a hm _ => subst hm; cases hi

/-- Settles O14: writes to RES's index are ignored, and an effect that changes RES is one of its commands'. -/
theorem resChangesOnlyByItsCommands : Obligations.ResChangesOnlyByItsCommands := by
  refine ⟨rfl, fun _ _ => rfl, fun s hb => portRead_rdata (t := .res) rfl (.inl hb), fun i s t ht h => ?_⟩
  obtain ⟨s', he, rfl⟩ | ⟨c, _, _, rfl⟩ := exec_effect ht
  · exact he.res_of_not_writesRes (h.resolve_right fun hn => hn rfl)
  · rfl

/-! ### ID -/

theorem engineTurn_params {s t : State} (h : engineTurn s = .next t) : t.params = s.params := by
  obtain ⟨i, hi⟩ | rfl | rfl := engineTurn_cases h
  · exact (exec_frame hi).params
  · rfl
  · rfl

theorem turn_params {s t : State} {e : HostEvent} (h : turn e s = .next t) : t.params = s.params := by
  obtain ⟨k, rfl⟩ | ⟨k, v, rfl⟩ | h | rfl := turn_cases h
  · exact portRead_params k s
  · exact portWrite_params k v s
  · exact engineTurn_params h
  · rfl

/-- No step changes the block's parameters (R8, R9, R68). -/
theorem step_params {s t : State} (h : step s = .next t) : t.params = s.params := by
  obtain ⟨_, h⟩ | ⟨e, rest, _, h⟩ := step_cases h
  · exact engineTurn_params h
  · have hp := turn_params h
    exact hp

/-- ID shows the parameters alone (R31). -/
theorem State.idWord_congr {s t : State} (h : t.params = s.params) : t.idWord = s.idWord := by
  unfold State.idWord State.W State.maxLimbs
  rw [h]

/-- ID as read: VERSION in 7:0, LIMBW in 15:8, MAXL in 31:16, and 0 above (R31). -/
theorem State.idWord_fields {s : State} (h : s.Inv) :
    (s.idWord.extractLsb 7 0).toNat = 1 ∧ (s.idWord.extractLsb 15 8).toNat = s.W ∧ (s.idWord.extractLsb 31 16).toNat = s.maxLimbs
      ∧ (s.idWord.extractLsb 63 32).toNat = 0 := by
  have hw := s.W_le
  have hm := State.maxLimbs_le h
  unfold State.idWord
  simp only [ofNat_extractLsb_toNat, Config.version]
  refine ⟨?_, ?_, ?_, ?_⟩ <;> omega

/-- Settles O17: ID shows the parameters alone, and no step changes them. -/
theorem idIsConstant : Obligations.IdIsConstant :=
  ⟨fun s hs => ⟨s.idWord, portRead_rdata (t := .id) rfl (.inr rfl), State.idWord_fields hs⟩, fun _ _ => rfl,
    fun _ _ h => State.idWord_congr (step_params h), rfl⟩

/-! ### The scratch -/

/-- The same state with other scratch (R40). -/
def State.withScratch (s : State) (x : Option Scratch) : State := { s with scratch := x }

/-- The same answer of a rule with other scratch in its effect. -/
def answerWithScratch (x : Option Scratch) (p : Except ErrCode State) : Except ErrCode State := p.map (·.withScratch x)

/-- A check selects the same branch of an answer with other scratch. -/
theorem answerWithScratch_ite (x : Option Scratch) (c : Prop) [Decidable c] (p q : Except ErrCode State) :
    answerWithScratch x (if c then p else q) = if c then answerWithScratch x p else answerWithScratch x q :=
  apply_ite _ c p q

theorem State.writeOrCapacity_withScratch (s : State) (x : Option Scratch) (d : Reg) (v : Nat) :
    (s.withScratch x).writeOrCapacity d v = answerWithScratch x (s.writeOrCapacity d v) := by
  simp only [State.writeOrCapacity, answerWithScratch_ite]
  rfl

/-- A completion carries the scratch along (R181, R182). -/
theorem completion_withScratch {s t : State} {p : Except ErrCode State} (x : Option Scratch) (h : completion s p = .next t) :
    completion (s.withScratch x) (answerWithScratch x p) = .next (t.withScratch x) := by
  obtain ⟨s', rfl, rfl⟩ | ⟨c, rfl, rfl⟩ := completion_cases h <;> rfl

/-- Every command's rule reads no scratch: with other scratch it gives the same answer with that scratch in it. -/
theorem exec_rule_withScratch (i : Instr) (s : State) (x : Option Scratch) :
    ∃ p, exec i s = completion s p ∧ exec i (s.withScratch x) = completion (s.withScratch x) (answerWithScratch x p) := by
  cases i
  -- no check
  case nop | mov | clamp | bitlen | bytelen | cmp | shr | gcd => exact ⟨.ok _, rfl, rfl⟩
  -- the capacity check alone
  case addw | add | mul => exact ⟨_, rfl, congrArg (completion _) (State.writeOrCapacity_withScratch s x _ _)⟩
  -- checks of the rule's own, POW's before the capacity check
  case grow | getbit | setbit | shl | subw | mulw | sub | div | rem | mrho | montmul | powmod =>
    refine ⟨_, rfl, ?_⟩
    simp only [answerWithScratch_ite]
    rfl
  case pow =>
    refine ⟨_, rfl, ?_⟩
    simp only [answerWithScratch_ite, ← State.writeOrCapacity_withScratch]
    rfl

/-- Settles O20: each rule gives the same answer whatever the scratch, and completing the answer carries the scratch along. -/
theorem scratchHasNoEffect : Obligations.ScratchHasNoEffect := by
  intro i s t x ht
  obtain ⟨p, hp, hp'⟩ := exec_rule_withScratch i s x
  rw [hp] at ht
  exact hp'.trans (completion_withScratch x ht)

/-! ### The address map -/

/-- The index of a LEN register (R37, R39). -/
theorem portReg_of_len {maxLimbs : Nat} {k : PortIndex} {r : Reg} (hk : k.toNat = 0x10 + r.val) : portReg maxLimbs k = .len r := by
  have he : k = (PortReg.len r).index := BitVec.eq_of_toNat_eq (by rw [hk, PortReg.index, BitVec.toNat_ofNat]; omega)
  rw [he, portReg_index_len]

/-- The index of a limb: position i of register r, reserved at and above MAX_LIMBS (R38, R39). -/
theorem portReg_of_limb {maxLimbs : Nat} {k : PortIndex} (hm : maxLimbs ≤ 4096) {r : Reg} {i : Nat} (hi : i < 0x1000)
    (hk : k.toNat = 0x10000 + r.val * 0x1000 + i) : portReg maxLimbs k = if i < maxLimbs then .limb r i else .reserved := by
  split
  · next hlt =>
    have he : k = (PortReg.limb r i).index := BitVec.eq_of_toNat_eq (by rw [hk, PortReg.index, BitVec.toNat_ofNat]; omega)
    rw [he, portReg_index_limb hm r hlt]
  · next hge =>
    have hmod : k.toNat % 0x1000 = i := by omega
    simp only [portReg, hmod]
    rw [if_pos (by omega), if_neg hge]

/-- The reserved indices between FLAGS and the LENs, and between the LENs and the limbs (R39). -/
theorem portReg_of_gap (maxLimbs : Nat) {k : PortIndex}
    (hk : (0x7 ≤ k.toNat ∧ k.toNat ≤ 0xF) ∨ (0x20 ≤ k.toNat ∧ k.toNat ≤ 0xFFFF)) : portReg maxLimbs k = .reserved := by
  unfold portReg
  simp only
  rw [if_neg (by omega), if_neg (by omega), if_neg (by omega), if_neg (by omega), if_neg (by omega), if_neg (by omega),
    if_neg (by omega), if_neg (by omega), if_neg (by omega)]

theorem portWrite_reserved {s : State} {k : PortIndex} (hk : portReg s.maxLimbs k = .reserved) (v : Word) : portWrite k v s = s := by
  rw [portWrite_eq, hk]

/-- Settles O21: each range of the map, and the reserved indices' reads and writes. -/
theorem portMapIsComplete : Obligations.PortMapIsComplete := by
  intro s hs k
  have hm := State.maxLimbs_le hs
  refine ⟨?_, ?_, ?_, ?_, ?_, ?_, ?_, fun hk => portReg_of_gap _ (.inl hk), fun r hk => portReg_of_len hk,
    fun hk => portReg_of_gap _ (.inr hk), fun r i hi hk => portReg_of_limb hm hi hk,
    fun hk => ⟨portRead_rdata hk (.inr rfl), portWrite_reserved hk⟩⟩
  all_goals
    rintro rfl
    rfl

/-! ### STATUS -/

/-- STATUS as read: its fields in their places, and 0 in the reserved bits (R33). -/
theorem State.statusWord_fields (s : State) :
    s.statusWord.getLsbD 0 = s.busy ∧ s.statusWord.getLsbD 1 = s.done ∧ (s.statusWord.extractLsb 3 2).toNat = 0
      ∧ (s.statusWord.extractLsb 7 4).toNat = s.err.code ∧ s.statusWord.getLsbD 8 = s.lost ∧ s.statusWord.getLsbD 9 = s.werr
      ∧ (s.statusWord.extractLsb 63 10).toNat = 0 := by
  have hb := s.busy.toNat_lt
  have hd := s.done.toNat_lt
  have hl := s.lost.toNat_lt
  have hw := s.werr.toNat_lt
  have he : s.err.code ≤ 8 := by cases s.err <;> decide
  unfold State.statusWord
  refine ⟨ofNat_getLsbD ?_ ?_, ofNat_getLsbD ?_ ?_, (ofNat_extractLsb_toNat _ _ _).trans ?_, (ofNat_extractLsb_toNat _ _ _).trans ?_,
    ofNat_getLsbD ?_ ?_, ofNat_getLsbD ?_ ?_, (ofNat_extractLsb_toNat _ _ _).trans ?_⟩ <;> omega

/-- Settles O24: the codes by definition, the read by the word's fields, the write by `portWrite_status`. -/
theorem statusFieldsAndWriteOneToClear : Obligations.StatusFieldsAndWriteOneToClear :=
  ⟨⟨rfl, rfl, rfl, rfl, rfl, rfl, rfl, rfl, rfl⟩,
    fun s _ => ⟨⟨s.statusWord, portRead_rdata (t := .status) rfl (.inr rfl), s.statusWord_fields⟩, portWrite_status s⟩⟩

/-! ### Operand writes -/

section
variable {s : State} {v : Word} {r : Reg} {i : Nat}

theorem portWrite_arg (hv : v.toNat < 2 ^ s.W) : portWrite PortReg.arg.index v s = s.writeArg v := by
  rw [portWrite_eq, portReg_index_arg, wordOf_eq_self hv]

theorem portWrite_len (hv : v.toNat < 2 ^ s.W) : portWrite (PortReg.len r).index v s = s.writeLen r v := by
  rw [portWrite_eq, portReg_index_len, wordOf_eq_self hv]

theorem portWrite_limb (hs : s.Inv) (hv : v.toNat < 2 ^ s.W) (hi : i < s.maxLimbs) :
    portWrite (PortReg.limb r i).index v s = s.writeLimb r i v := by
  rw [portWrite_eq, portReg_index_limb (State.maxLimbs_le hs) r hi, wordOf_eq_self hv]

theorem portRead_len (hb : s.busy = false) : (portRead (PortReg.len r).index s).rdata = some (BitVec.ofNat 64 (s.len r)) :=
  portRead_rdata (portReg_index_len _ r) (.inl hb)

theorem portRead_limb (hm : s.maxLimbs ≤ 4096) (hi : i < s.maxLimbs) (hb : s.busy = false) :
    (portRead (PortReg.limb r i).index s).rdata = some (s.limb r i) :=
  portRead_rdata (portReg_index_limb hm r hi) (.inl hb)

/-- A LEN that is out of range is dropped, whether BUSY or not (R37). -/
theorem State.writeLen_of_bad (h : v.toNat = 0 ∨ s.maxLimbs < v.toNat) : s.writeLen r v = s.dropWrite := by
  unfold State.writeLen
  rw [if_pos h, ite_self]

theorem State.writeLen_of_good (hb : s.busy = false) (h1 : 1 ≤ v.toNat) (h2 : v.toNat ≤ s.maxLimbs) :
    s.writeLen r v = s.setReg r { s.regs[r] with len := v.toNat } := by
  unfold State.writeLen
  rw [if_neg (Bool.eq_false_iff.1 hb), if_neg (by omega)]

theorem State.writeArg_idle (hb : s.busy = false) : s.writeArg v = { s with arg := v } := if_neg (Bool.eq_false_iff.1 hb)

theorem State.writeLimb_idle (hb : s.busy = false) :
    s.writeLimb r i v = s.setReg r { s.regs[r] with limbs := s.regs[r].limbs.set i v } := if_neg (Bool.eq_false_iff.1 hb)

/-- While BUSY = 1 every operand write is dropped (R35, R37, R38). -/
theorem State.operandWrites_busy (hb : s.busy = true) :
    s.writeArg v = s.dropWrite ∧ s.writeLen r v = s.dropWrite ∧ s.writeLimb r i v = s.dropWrite :=
  ⟨if_pos hb, if_pos hb, if_pos hb⟩

/-- A limb write stores the word at its position, and the other positions and LEN stay (R38). -/
theorem State.limb_setLimb_self (hs : s.Inv) (hi : i < s.maxLimbs) :
    (s.setReg r { s.regs[r] with limbs := s.regs[r].limbs.set i v }).limb r i = v := by
  obtain ⟨_, hregs, _⟩ := hs
  obtain ⟨_, _, hcount, _⟩ := hregs r
  have hlen : i < s.regs[r].limbs.length := hcount.symm ▸ hi
  simp only [State.limb, State.regs_setReg_self]
  rw [List.getD_eq_getElem _ _ (by simpa using hlen), List.getElem_set_self]

theorem State.limb_setLimb_ne {j : Nat} (hj : j ≠ i) :
    (s.setReg r { s.regs[r] with limbs := s.regs[r].limbs.set i v }).limb r j = s.limb r j := by
  simp only [State.limb, State.regs_setReg_self, List.getD_eq_getElem?_getD, List.getElem?_set_ne hj.symm]

end

/-- Settles O25: each operand write is the write of its register, stored while idle and dropped while BUSY. -/
theorem operandWritesStoreOrDrop : Obligations.OperandWritesStoreOrDrop := by
  intro s v r i hs hv hi
  refine ⟨fun hb => ?_, fun hb h1 h2 => ?_, fun h => ?_, fun hb => ?_, fun hb => ?_⟩
  · refine ⟨_, rfl, ?_, ?_⟩ <;> rw [portWrite_arg hv, State.writeArg_idle hb]
    exact portRead_rdata (t := .arg) rfl (.inr rfl)
  · refine ⟨_, rfl, ?_, ?_⟩ <;> rw [portWrite_len hv, State.writeLen_of_good hb h1 h2]
    rw [portRead_len, State.len, State.regs_setReg_self, BitVec.ofNat_toNat, BitVec.setWidth_eq]
    exact hb
  · rw [portWrite_len hv, State.writeLen_of_bad h]
    rfl
  · have hm := State.maxLimbs_le hs
    have hlimb := State.limb_setLimb_self (v := v) (r := r) hs hi
    rw [portWrite_limb hs hv hi, State.writeLimb_idle hb]
    refine ⟨_, rfl, hlimb, by simp only [State.len, State.regs_setReg_self], fun j hj => State.limb_setLimb_ne hj,
      fun r' hr => s.regs_setReg_ne _ hr, rfl, ?_⟩
    exact (portRead_limb (s := s.setReg r _) hm hi hb).trans (congrArg some hlimb)
  · obtain ⟨harg, hlen, hlimb⟩ := State.operandWrites_busy (v := v) (r := r) (i := i) hb
    simp only [List.forall_mem_cons, portWrite_arg hv, portWrite_len hv, portWrite_limb hs hv hi, harg, hlen, hlimb]
    exact ⟨rfl, rfl, rfl, fun _ h => (nomatch h)⟩

/-! ### Operands in flight -/

/-- The operand values are read from the registers, ARG and CMD (R40). -/
theorem State.operandValues_congr {s t : State} (hp : t.params = s.params) (hr : t.regs = s.regs) (ha : t.arg = s.arg)
    (hc : t.cmd = s.cmd) (hb : t.busy = s.busy) : t.operandValues = s.operandValues := by
  have hval : t.val = s.val := by
    funext r
    rw [State.val, State.W, hr, hp, State.val, State.W]
  rw [State.operandValues, State.inFlight, State.scalar, hval, hp, ha, hc, hb, State.operandValues, State.inFlight, State.scalar]

/-- A byte-bus write of a legal size and address resets the block exactly when it is a CTRL write with bit 1 set (R62, R201). -/
theorem resetsBlock_busWrite {p : Params} {addr : Nat} {bytes : List Byte} {k : PortIndex}
    (h : busIndex p addr bytes.length = .ok k) :
    resetsBlock p (.busWrite addr bytes) = resetsBlock p (.write k (BitVec.ofNat 64 (lanesValue bytes))) := by
  obtain ⟨hsize, rfl⟩ := busIndex_eq_ok.1 h
  have hw : 0 < p.wordBytes := by unfold Params.wordBytes; cases p.limbWidth <;> decide
  have hk : (p.baseAddr + k.toNat * p.wordBytes == p.baseAddr + 1 * p.wordBytes) = (k == 0x00001) := by
    rw [Bool.eq_iff_iff, beq_iff_eq, beq_iff_eq, Nat.add_left_cancel_iff, Nat.mul_left_inj hw.ne', ← BitVec.toNat_inj]
    rfl
  simp only [resetsBlock, hk, hsize, beq_self_eq_true, Bool.and_true, lanesValue_getLsbD bytes (show 1 < 8 by decide)]

/-- The operands and the command in flight are as they were. -/
def SameOperands (s t : State) : Prop :=
  t.regs = s.regs ∧ t.arg = s.arg ∧ t.cmd = s.cmd ∧ t.busy = true ∧ t.operandValues = s.operandValues

theorem sameOperands_portRead {s : State} (hb : s.busy = true) (k : PortIndex) : SameOperands s (portRead k s) := by
  obtain ⟨v, n, h⟩ := portRead_eq k s
  rw [h]
  exact ⟨rfl, rfl, rfl, hb, rfl⟩

/-- While BUSY = 1 a port write is a reset, or leaves the operands (R27, R201, R205). -/
theorem portWrite_resets_or_sameOperands {s : State} (hb : s.busy = true) (k : PortIndex) (v : Word) :
    (resetsBlock s.params (.write k v) = true → portWrite k v s = s.toReset)
      ∧ (resetsBlock s.params (.write k v) = false → SameOperands s (portWrite k v s)) := by
  obtain ⟨hreset, hkeep⟩ := portWrite_busy hb k v
  refine ⟨hreset, fun h => ?_⟩
  obtain ⟨hr, ha, hc, hbusy⟩ := hkeep h
  exact ⟨hr, ha, hc, hbusy, State.operandValues_congr (portWrite_params k v s) hr ha hc (hbusy.trans hb.symm)⟩

/-- Settles O26: a read leaves the operands, a write at the port or on the byte bus resets the block or leaves them. -/
theorem operandsStandWhileBusy : Obligations.OperandsStandWhileBusy := by
  intro s t e hb hne ht
  cases e with
  | read k =>
    obtain rfl := Host.Outcome.next.inj ht
    exact ⟨(nomatch ·), fun _ => sameOperands_portRead hb k⟩
  | write k v =>
    obtain rfl := Host.Outcome.next.inj ht
    exact portWrite_resets_or_sameOperands hb k v
  | busRead addr size =>
    obtain ⟨k, _, rfl⟩ := busRead_cases ht
    exact ⟨(nomatch ·), fun _ => sameOperands_portRead hb k⟩
  | busWrite addr bytes =>
    obtain ⟨k, hk, rfl⟩ := busWrite_cases ht
    rw [resetsBlock_busWrite hk]
    exact portWrite_resets_or_sameOperands hb k _
  | hardReset =>
    obtain rfl := Host.Outcome.next.inj ht
    exact ⟨fun _ => rfl, (nomatch ·)⟩
  | pause => exact absurd rfl hne

/-! ### Reset and IRQ -/

/-- A register after reset: LEN 1, value 0, clamped, every limb 0 (R43). -/
theorem State.toReset_reg (s : State) (r : Reg) :
    s.toReset.len r = 1 ∧ s.toReset.val r = 0 ∧ s.toReset.Clamped r ∧ s.toReset.regs[r].limbs = List.replicate s.maxLimbs 0 := by
  have hreg : s.toReset.regs[r] = BigReg.zero s.maxLimbs := by simp [State.maxLimbs]
  have hlen : s.toReset.len r = 1 := by rw [State.len, hreg]; rfl
  have hval : s.toReset.val r = 0 := by
    rw [State.val, hreg, BigReg.zero, List.take_replicate, limbsValue_replicate_zero]
  refine ⟨hlen, hval, ?_, by rw [hreg]; rfl⟩
  rw [State.Clamped, hlen, hval, clen, bitlen, if_pos rfl, Nat.zero_add,
    Nat.div_eq_of_lt (Nat.sub_lt s.toReset.W_pos Nat.one_pos)]
  rfl

/-- CTRL as read: IE in bit 0, and 0 above (R32). -/
theorem State.ctrlWord_fields (s : State) : s.ctrlWord.getLsbD 0 = s.ie ∧ (s.ctrlWord.extractLsb 63 1).toNat = 0 := by
  have hie := s.ie.toNat_lt
  unfold State.ctrlWord
  refine ⟨ofNat_getLsbD ?_ ?_, (ofNat_extractLsb_toNat _ _ _).trans ?_⟩ <;> omega

/-- Settles O27: both resets are `toReset`, whose fields are R43's, and a CTRL write without SRST stores IE. -/
theorem resetPutsEveryStateToItsValue : Obligations.ResetPutsEveryStateToItsValue := by
  intro s v
  refine ⟨⟨s.toReset, rfl, s.toReset_reg, rfl, rfl, rfl, rfl, rfl, rfl, rfl, rfl, rfl, rfl, rfl, rfl, rfl, rfl, rfl, fun hv => ?_⟩,
    fun hv => ?_, s.ctrlWord, portRead_rdata (t := .ctrl) rfl (.inr rfl), s.ctrlWord_fields⟩
  · rw [turn, portWrite_ctrl, if_pos hv]
  · rw [turn, portWrite_ctrl, if_neg (Bool.eq_false_iff.1 hv)]

/-- Settles O28: each access's IRQ by what it leaves in IE and DONE. -/
theorem irqIsIeAndDone : Obligations.IrqIsIeAndDone := by
  refine ⟨fun _ => rfl, fun i s t ht => ?_, fun s v hv => ?_, fun s v hv => ?_, fun s c hb => ?_, fun s v hv => ?_, fun s t ht => ?_⟩
  · have hdone : t.done = true := by
      obtain ⟨s', _, rfl⟩ | ⟨c, _, _, rfl⟩ := exec_effect ht <;> rfl
    rw [State.irq, hdone, Bool.and_true, (exec_frame ht).ie]
  · simp only [portWrite_status, State.irq, hv, Bool.not_true, Bool.and_false]
  · simp only [portWrite_status, State.irq, hv, Bool.not_false, Bool.and_true]
  · change (s.writeCmd (wordOf s.W c.toNat)).irq = false
    rw [State.writeCmd, if_neg (Bool.eq_false_iff.1 hb)]
    exact Bool.and_false _
  · rw [portWrite_ctrl]
    split
    · rfl
    · simp only [State.irq, hv, Bool.false_and]
  · obtain rfl := Host.Outcome.next.inj ht
    rfl

end Sys2Proof.Machine
end

section
/-! Proofs of the memory family: repeated port accesses (R67), the byte bus (R62, R63, R65), operand loads (R61), and the command a
step runs (R70, R181). -/

namespace Sys2Proof.Machine

/-! ### Repeated accesses -/

section
variable (s : State)

/-- Of two writes to one register the second stands. -/
theorem State.setReg_setReg (r : Reg) (b b' : BigReg) : (s.setReg r b).setReg r b' = s.setReg r b' := by
  rw [State.setReg, State.regs_setReg, Vector.set_set]
  rfl

/-- A register written with what it holds leaves the state. -/
theorem State.setReg_regs (r : Reg) : s.setReg r s.regs[r] = s := by
  rw [State.setReg, Fin.getElem_fin, Vector.set_getElem_self]

theorem State.writeArg_writeArg (v : Word) : (s.writeArg v).writeArg v = s.writeArg v := by
  cases hb : s.busy with
  | true => simp only [State.writeArg, hb, State.dropWrite, if_true]
  | false =>
    rw [State.writeArg_idle hb]
    exact State.writeArg_idle (s := { s with arg := v }) hb

theorem State.writeLen_writeLen (r : Reg) (v : Word) : (s.writeLen r v).writeLen r v = s.writeLen r v := by
  by_cases hv : v.toNat = 0 ∨ s.maxLimbs < v.toNat
  · rw [State.writeLen_of_bad hv]
    exact State.writeLen_of_bad (s := s.dropWrite) hv
  · cases hb : s.busy with
    | true => simp only [State.writeLen, hb, State.dropWrite, if_true]
    | false =>
      have h1 : 1 ≤ v.toNat := by omega
      have h2 : v.toNat ≤ s.maxLimbs := by omega
      rw [State.writeLen_of_good hb h1 h2, State.writeLen_of_good (s := s.setReg r _) hb h1 h2, State.regs_setReg_self,
        State.setReg_setReg]

theorem State.writeLimb_writeLimb (r : Reg) (i : Nat) (v : Word) : (s.writeLimb r i v).writeLimb r i v = s.writeLimb r i v := by
  cases hb : s.busy with
  | true => simp only [State.writeLimb, hb, State.dropWrite, if_true]
  | false =>
    rw [State.writeLimb_idle hb, State.writeLimb_idle (s := s.setReg r _) hb, State.regs_setReg_self, State.setReg_setReg,
      List.set_set]

end

/-- A read while BUSY = 0 leaves nothing that a second read of the index would see (R67). -/
theorem portRead_portRead {s : State} (hb : s.busy = false) (k : PortIndex) : portRead k (portRead k s) = portRead k s := by
  have hread : ∀ t, (portRead k s).readReg t = s.readReg t := by
    intro t
    rw [portRead_exact (.inl hb)]
    cases t <;> rfl
  rw [portRead_exact (s := portRead k s) (.inl ((portRead_busy k s).trans hb)), hread, portRead_exact (.inl hb)]
  rfl

/-- A write to any register but CMD, CTRL and STATUS does the same a second time (R67). -/
theorem portWrite_portWrite {s : State} {k : PortIndex} (hk : portReg s.maxLimbs k ∉ [.cmd, .ctrl, .status]) (v : Word) :
    portWrite k v (portWrite k v s) = portWrite k v s := by
  have hW : (portWrite k v s).W = s.W := congrArg (·.limbWidth.bits) (portWrite_params k v s)
  have hm : (portWrite k v s).maxLimbs = s.maxLimbs := congrArg (·.maxLimbs) (portWrite_params k v s)
  rw [portWrite_eq k v (portWrite k v s), hW, hm, portWrite_eq k v s]
  cases ht : portReg s.maxLimbs k with
  | ctrl => simp [ht] at hk
  | status => simp [ht] at hk
  | cmd => simp [ht] at hk
  | arg => exact s.writeArg_writeArg _
  | len r => exact s.writeLen_writeLen r _
  | limb r i => exact s.writeLimb_writeLimb r i _
  | id => rfl
  | res => rfl
  | flags => rfl
  | reserved => rfl

/-- Settles O23: a second access finds the state the first one leaves. -/
theorem repeatedAccessesAgree : Obligations.RepeatedAccessesAgree :=
  fun _ k v => ⟨fun hb => portRead_portRead hb k, fun hk => portWrite_portWrite hk v⟩

/-! ### The byte bus -/

@[simp] theorem lanes_length (n : Nat) (v : Word) : (lanes n v).length = n := by simp [lanes]

/-- Byte j of a word is in lane j (R62). -/
theorem lanes_getD {n j : Nat} (hj : j < n) (v : Word) : ((lanes n v).getD j 0).toNat = v.toNat / 2 ^ (8 * j) % 2 ^ 8 := by
  rw [List.getD_eq_getElem _ _ (by rwa [lanes_length])]
  simp [lanes, BitVec.extractLsb'_toNat, Nat.shiftRight_eq_div_pow]

/-- The first lane is the low byte, and the others are the lanes of the word without it (R62). -/
theorem lanes_succ (n : Nat) (v : Word) : lanes (n + 1) v = v.extractLsb' 0 8 :: lanes n (v >>> 8) := by
  rw [lanes, List.range_succ_eq_map, List.map_cons, List.map_map, lanes]
  congr 2
  funext j
  apply BitVec.eq_of_toNat_eq
  simp only [Function.comp_apply, BitVec.extractLsb'_toNat, BitVec.toNat_ushiftRight, ← Nat.shiftRight_add]
  rw [Nat.succ_eq_add_one, Nat.mul_add_one, Nat.add_comm (8 * j)]

/-- The lanes of a word carry its low bytes (R62). -/
theorem lanesValue_lanes (n : Nat) (v : Word) : lanesValue (lanes n v) = v.toNat % 2 ^ (8 * n) := by
  induction n generalizing v with
  | zero => rw [Nat.mul_zero, Nat.pow_zero, Nat.mod_one]; rfl
  | succ n ih =>
    rw [lanes_succ, lanesValue, ih, BitVec.extractLsb'_toNat, BitVec.toNat_ushiftRight, Nat.shiftRight_zero,
      Nat.shiftRight_eq_div_pow, Nat.mul_add_one, Nat.add_comm (8 * n), Nat.pow_add, Nat.mod_mul]

/-- W is a whole number of bytes (R8, R63). -/
theorem State.eight_mul_wordBytes (s : State) : 8 * s.params.wordBytes = s.W := by
  unfold State.W Params.wordBytes
  cases s.params.limbWidth <;> rfl

/-- A W-bit word comes over the bus as it was sent: its lanes carry all of it (R62). -/
theorem ofNat_lanesValue_lanes {s : State} {v : Word} (hv : v.toNat < 2 ^ s.W) :
    BitVec.ofNat 64 (lanesValue (lanes s.params.wordBytes v)) = v := by
  rw [lanesValue_lanes, s.eight_mul_wordBytes, Nat.mod_eq_of_lt hv, BitVec.ofNat_toNat, BitVec.setWidth_eq]

theorem busIndex_of_size {p : Params} {size : Nat} (h : size ≠ p.wordBytes) (addr : Nat) :
    busIndex p addr size = .error .busWidth := if_pos h

/-- An access of W bits at no byte address of a word index is refused for its address (R65). -/
theorem busIndex_of_no_index {p : Params} {addr : Nat} (h : ∀ k : PortIndex, addr ≠ p.baseAddr + k.toNat * p.wordBytes) :
    busIndex p addr p.wordBytes = .error .busAlignment := by
  have hne : ∀ k, busIndex p addr p.wordBytes ≠ .ok k := fun k hk => h k (busIndex_eq_ok.1 hk).2
  unfold busIndex at hne ⊢
  rw [if_neg (not_not_intro rfl)] at hne ⊢
  split at hne
  · next hbad => exact if_pos hbad
  · exact absurd rfl (hne _)

section
variable {s : State} {addr size : Nat} {k : PortIndex} {e : Refusal}

theorem busRead_of_ok (h : busIndex s.params addr size = .ok k) : busRead addr size s = .next (portRead k s) := by
  rw [busRead, h]

theorem busRead_of_error (h : busIndex s.params addr size = .error e) : busRead addr size s = .refused e := by
  rw [busRead, h]

theorem busWrite_of_ok {bytes : List Byte} (h : busIndex s.params addr bytes.length = .ok k) :
    busWrite addr bytes s = .next (portWrite k (BitVec.ofNat 64 (lanesValue bytes)) s) := by
  rw [busWrite, h]

theorem busWrite_of_error {bytes : List Byte} (h : busIndex s.params addr bytes.length = .error e) :
    busWrite addr bytes s = .refused e := by
  rw [busWrite, h]

end

/-- The lanes of a W-bit word, written at the byte address of index k, write the word there (R62). -/
theorem busWrite_lanes {s : State} {v : Word} (hv : v.toNat < 2 ^ s.W) (k : PortIndex) :
    busWrite (s.params.baseAddr + k.toNat * s.params.wordBytes) (lanes s.params.wordBytes v) s = .next (portWrite k v s) := by
  have hindex := busIndex_of_index (p := s.params) k
  rw [busWrite_of_ok (k := k) (by rwa [lanes_length]), ofNat_lanesValue_lanes hv]

/-- What a read returns stands in the lanes, byte j in lane j (R62). -/
theorem portRead_readLanes (k : PortIndex) (s : State) :
    ∃ d, (portRead k s).rdata = some d ∧ (portRead k s).readLanes = some (lanes s.params.wordBytes d) := by
  obtain ⟨d, n, h⟩ := portRead_eq k s
  rw [h]
  exact ⟨d, rfl, rfl⟩

/-- Settles O29: a transaction reaches a word index exactly at its byte address with W/8 bytes, and its lanes carry the word. -/
theorem byteBusUsesLittleEndianLanes : Obligations.ByteBusUsesLittleEndianLanes := by
  intro s _ n
  refine ⟨fun k v hv => ⟨lanes_length _ v, fun j hj => lanes_getD hj v, busWrite_lanes hv k,
      busRead_of_ok (busIndex_of_index k), ?_⟩,
    fun addr size hsize => busRead_of_error (busIndex_of_size hsize addr),
    fun addr bytes hsize => busWrite_of_error (busIndex_of_size hsize addr), fun addr haddr => ?_⟩
  · obtain ⟨d, hd, hlanes⟩ := portRead_readLanes k s
    exact ⟨d, _, hd, hlanes, lanes_length _ d, fun j hj => lanes_getD hj d⟩
  · have hbad := busIndex_of_no_index haddr
    exact ⟨busRead_of_error hbad, fun bytes hlen => busWrite_of_error (by rw [hlen]; exact hbad)⟩

/-! ### Operand loads -/

/-- The number of a list of limbs as the sum of R21. -/
theorem limbsValue_eq_sum (w : Nat) (ls : List Word) :
    limbsValue w ls = ∑ i ∈ Finset.range ls.length, (ls.getD i 0).toNat * 2 ^ (w * i) := by
  induction ls with
  | nil => rfl
  | cons l ls ih =>
    rw [limbsValue, ih, List.length_cons, Finset.sum_range_succ', Finset.mul_sum, Nat.add_comm]
    congr 1
    · refine Finset.sum_congr rfl fun i _ => ?_
      rw [List.getD_cons_succ, Nat.mul_add_one, Nat.add_comm (w * i), pow_add]
      ring
    · simp

/-- A register with limbs written over its own from position i on, and LEN as it was. -/
def BigReg.overwrite (b : BigReg) (i : Nat) (ls : List Word) : BigReg :=
  { b with limbs := b.limbs.take i ++ ls ++ b.limbs.drop (i + ls.length) }

/-- Limbs written from position 0 on are the low limbs. -/
theorem BigReg.overwrite_take (b : BigReg) (ls : List Word) : (b.overwrite 0 ls).limbs.take ls.length = ls := by
  simp [BigReg.overwrite]

/-- Writing limb i and then the limbs after it is writing them all. -/
theorem BigReg.overwrite_cons {b : BigReg} {i : Nat} (hi : i < b.limbs.length) (l : Word) (ls : List Word) :
    BigReg.overwrite { b with limbs := b.limbs.set i l } (i + 1) ls = b.overwrite i (l :: ls) := by
  have htake : (b.limbs.set i l).take (i + 1) = b.limbs.take i ++ [l] := by
    rw [List.take_add_one, List.take_set_of_le (Nat.le_refl i), List.getElem?_set_self hi]
    rfl
  have hdrop : (b.limbs.set i l).drop (i + 1 + ls.length) = b.limbs.drop (i + 1 + ls.length) :=
    List.drop_set_of_lt (by omega)
  simp only [BigReg.overwrite, htake, hdrop, List.append_assoc, List.singleton_append, List.length_cons]
  rw [Nat.add_assoc, Nat.add_comm 1]

/-- What a host's limb writes do while BUSY = 0: they overwrite limbs of the one register, and nothing else (R61, R38). -/
theorem loadLimbs_eq {s : State} {r : Reg} {ls : List Word} {i : Nat} (hs : s.Inv) (hb : s.busy = false)
    (hlen : i + ls.length ≤ s.maxLimbs) (hls : ∀ l ∈ ls, l.toNat < 2 ^ s.W) :
    loadLimbs r i ls s = s.setReg r (s.regs[r].overwrite i ls) := by
  induction ls generalizing i s with
  | nil =>
    have hself : s.regs[r].overwrite i [] = s.regs[r] := by simp [BigReg.overwrite]
    rw [loadLimbs, hself, State.setReg_regs]
  | cons l ls ih =>
    rw [List.length_cons] at hlen
    obtain ⟨hl, hrest⟩ := List.forall_mem_cons.1 hls
    have hi : i < s.maxLimbs := by omega
    have hcount : i < s.regs[r].limbs.length := by
      obtain ⟨_, hregs, _⟩ := hs
      obtain ⟨_, _, hcount, _⟩ := hregs r
      exact hcount.symm ▸ hi
    have hinv := inv_portWrite hs (PortReg.limb r i).index l
    rw [loadLimbs]
    rw [portWrite_limb hs hl hi, State.writeLimb_idle hb] at hinv ⊢
    rw [ih hinv hb (by simp only [State.maxLimbs_setReg]; omega) hrest, State.regs_setReg_self, State.setReg_setReg,
      BigReg.overwrite_cons hcount]

/-- A LEN write of a legal length while BUSY = 0 (R37). -/
theorem portWrite_len_ofNat {s : State} {r : Reg} {n : Nat} (hm : s.maxLimbs ≤ 4096) (hb : s.busy = false) (h1 : 1 ≤ n)
    (hn : n ≤ s.maxLimbs) :
    portWrite (PortReg.len r).index (BitVec.ofNat 64 n) s = s.setReg r { s.regs[r] with len := n } := by
  have hnat : (BitVec.ofNat 64 n).toNat = n := by rw [BitVec.toNat_ofNat]; omega
  have hW : (BitVec.ofNat 64 n).toNat < 2 ^ s.W := by
    have := Nat.pow_le_pow_right (show 0 < 2 by decide) s.W_ge
    omega
  rw [portWrite_len hW, State.writeLen_of_good hb (by rwa [hnat]) (by rwa [hnat]), hnat]

/-- Settles O30: in either order the loads leave register r with LEN = n and the limbs written in its low positions. -/
theorem loadedLimbsAreTheValue : Obligations.LoadedLimbsAreTheValue := by
  intro s r ls hs hb h1 hmax hls
  have hm := State.maxLimbs_le hs
  have hlen := portWrite_len_ofNat (r := r) hm hb h1 hmax
  have hlast : portWrite (PortReg.len r).index (BitVec.ofNat 64 ls.length) (loadLimbs r 0 ls s)
      = s.setReg r { s.regs[r].overwrite 0 ls with len := ls.length } := by
    rw [loadLimbs_eq hs hb (by omega) hls, portWrite_len_ofNat (s := s.setReg r _) hm hb h1 hmax, State.regs_setReg_self,
      State.setReg_setReg]
  have hfirst : loadLimbs r 0 ls (portWrite (PortReg.len r).index (BitVec.ofNat 64 ls.length) s)
      = s.setReg r { s.regs[r].overwrite 0 ls with len := ls.length } := by
    have hinv := inv_portWrite hs (PortReg.len r).index (BitVec.ofNat 64 ls.length)
    rw [hlen] at hinv ⊢
    rw [loadLimbs_eq hinv hb (by simp only [State.maxLimbs_setReg]; omega) hls, State.regs_setReg_self, State.setReg_setReg]
    rfl
  rw [hlast, hfirst]
  refine ⟨?_, rfl, by rw [State.len, State.regs_setReg_self], rfl, fun r' hr => s.regs_setReg_ne _ hr⟩
  rw [State.val, State.regs_setReg_self, State.W_setReg, BigReg.overwrite_take, limbsValue_eq_sum]

/-! ### The command a step runs -/

/-- The engine's turn with a legal command in flight is the command (R181). -/
theorem engineTurn_of_decodeCmd {s : State} {i : Instr} (hb : s.busy = true)
    (hi : decodeCmd s.params.limbWidth s.cmd = some i) : engineTurn s = exec i s := by
  rw [engineTurn, if_pos hb, hi]

theorem step_of_no_input {s : State} (h : s.inputs = []) : step s = engineTurn s := by
  rw [step, h]

theorem step_of_input {s : State} {e : HostEvent} {rest : List HostEvent} (h : s.inputs = e :: rest) :
    step s = turn e { s with inputs := rest } := by
  rw [step, h]

/-- Settles O7: a step is the engine's turn where no event is left, else the first event, of which `pause` is the engine's turn. -/
theorem stepRunsTheDecodedCommand : Obligations.StepRunsTheDecodedCommand := by
  intro s i hb hi
  refine ⟨fun hn => ?_, fun rest hp => ?_, fun e rest he _ => step_of_input he⟩
  · rw [step_of_no_input hn, engineTurn_of_decodeCmd hb hi]
  · rw [step_of_input hp]
    exact engineTurn_of_decodeCmd (s := { s with inputs := rest }) hb hi

end Sys2Proof.Machine
end

section
/-! Proofs of the encoding family: decode and encode (R80, R81), the mask and match of each row of the opcode map (R84, R85), and
the illegal words (R86). -/

namespace Sys2Proof

/-! ### Decode and encode -/

/-- A word decodes to a command exactly when its fields are the command's (R84, R85). -/
theorem decode_eq_some_iff {w : CmdWord} {i : Instr} : decode w = some i ↔ i.fields = Fields.ofWord w := by
  constructor
  · intro h
    obtain ⟨op, hc, ha, rfl⟩ := decodeFields_some h
    exact Opcode.fields_assemble hc ha
  · intro h
    rw [decode, ← h, decodeFields_fields]

theorem decode_encode (i : Instr) : decode (encode i) = some i :=
  decode_eq_some_iff.2 (Fields.ofWord_toWord i.fields).symm

/-- A command word in the low half of CMD decodes as the word at both widths (R80). -/
theorem decodeCmd_setWidth (lw : LimbWidth) (w : CmdWord) : decodeCmd lw (w.setWidth 64) = decode w := by
  have hlow : (w.setWidth 64).setWidth 32 = w := by rw [BitVec.setWidth_setWidth_of_le w (by decide), BitVec.setWidth_eq]
  have hlt : (w.setWidth 64).toNat < 2 ^ 32 := by
    rw [BitVec.toNat_setWidth_of_le (by decide)]
    exact w.isLt
  cases lw with
  | w32 => rw [decodeCmd, hlow]
  | w64 => rw [decodeCmd, if_pos hlt, hlow]

/-- Settles O1: the fields of a command go to its word and back, and the upper half of CMD is zero. -/
theorem decodeEncodeRoundTrip : Obligations.DecodeEncodeRoundTrip :=
  fun i _ => ⟨decode_encode i, fun lw => (decodeCmd_setWidth lw (encode i)).trans (decode_encode i)⟩

/-- Settles O2: the decoded command has the fields of the word, and they make up the word. -/
theorem decodedWordIsTheOnlyEncoding : Obligations.DecodedWordIsTheOnlyEncoding := by
  intro w i h
  rw [encode, decode_eq_some_iff.1 h, Fields.toWord_ofWord]

/-- Settles O6: the decoder evaluated on the spec's words. -/
theorem specWordsDecode : Obligations.SpecWordsDecode := by
  unfold Obligations.SpecWordsDecode
  decide

/-! ### Mask and match -/

theorem Fields.toWord_injective : Function.Injective Fields.toWord :=
  Function.LeftInverse.injective Fields.ofWord_toWord

/-- The fields a format's mask has its ones in: OPC, RSV, and each field outside the format (R84). -/
def Format.maskFields (fmt : Format) : Fields where
  opc := 63
  rd  := if fmt.usesRd then 0 else 15
  rs1 := if fmt.usesRs1 then 0 else 15
  rs2 := if fmt.usesRs2 then 0 else 15
  rs3 := if fmt.usesRs3 then 0 else 15
  rsv := 511
  v   := !fmt.usesV

/-- The fields of a word with those of its format set to zero: what R84's mask leaves. -/
def Fields.outside (f : Fields) (fmt : Format) : Fields where
  opc := f.opc
  rd  := if fmt.usesRd then 0 else f.rd
  rs1 := if fmt.usesRs1 then 0 else f.rs1
  rs2 := if fmt.usesRs2 then 0 else f.rs2
  rs3 := if fmt.usesRs3 then 0 else f.rs3
  rsv := f.rsv
  v   := !fmt.usesV && f.v

/-- The masks R84 lists are the words of the mask fields. -/
theorem Format.mask_eq_toWord (fmt : Format) : fmt.mask = fmt.maskFields.toWord := by
  cases fmt <;> rfl

/-- The match values R85 lists are the words of the opcode alone. -/
theorem Opcode.matchWord_eq_toWord (op : Opcode) : op.matchWord = Fields.toWord ⟨op.code, 0, 0, 0, 0, 0, false⟩ := by
  cases op <;> rfl

theorem Opcode.matchWord_eq_shiftLeft (op : Opcode) : op.matchWord = BitVec.ofNat 32 op.code.val <<< 26 := by
  cases op <;> rfl

/-- A register field under a mask that is zero where the format uses the field and ones elsewhere. -/
theorem reg_and_mask (r : Reg) (uses : Bool) :
    r.val &&& (if uses then 0 else 15 : Reg).val = (if uses then 0 else r : Reg).val := by
  cases uses with
  | true => exact Nat.and_zero _
  | false => exact Nat.and_two_pow_sub_one_of_lt_two_pow (n := 4) r.isLt

/-- Masking a word leaves the opcode and the fields outside the format (R84). -/
theorem Fields.toWord_and_mask (f : Fields) (fmt : Format) : f.toWord &&& fmt.mask = (f.outside fmt).toWord := by
  have hopc : f.opc.val &&& (63 : Fin 64).val = f.opc.val := Nat.and_two_pow_sub_one_of_lt_two_pow (n := 6) f.opc.isLt
  have hrsv : f.rsv.val &&& (511 : Fin 512).val = f.rsv.val := Nat.and_two_pow_sub_one_of_lt_two_pow (n := 9) f.rsv.isLt
  have hv : f.v.toNat &&& (!fmt.usesV).toNat = (!fmt.usesV && f.v).toNat := by
    cases f.v <;> cases fmt.usesV <;> rfl
  apply BitVec.eq_of_toNat_eq
  rw [Format.mask_eq_toWord, Fields.toWord_and, Fields.toWord_toNat]
  simp only [Format.maskFields, Fields.outside, reg_and_mask, hopc, hrsv, hv]

/-- Nothing but the opcode is left outside the format exactly when the format admits the fields (R84, R86 item 3). -/
theorem Fields.outside_eq_iff {f : Fields} {fmt : Format} {c : Fin 64} :
    f.outside fmt = ⟨c, 0, 0, 0, 0, 0, false⟩ ↔ c = f.opc ∧ fmt.admits f = true := by
  have hv : (!fmt.usesV && f.v) = false ↔ fmt.usesV = true ∨ (!f.v) = true := by cases fmt.usesV <;> cases f.v <;> decide
  simp only [Fields.outside, Fields.mk.injEq, hv, Format.admits, Bool.and_eq_true, Bool.or_eq_true, beq_iff_eq,
    ite_eq_left_iff, ← or_iff_not_imp_left, and_assoc, eq_comm (a := c)]

/-- A word has a row's match value under its mask exactly when it has the row's opcode and fields its format admits (R85). -/
theorem and_mask_eq_matchWord_iff {w : CmdWord} {op : Opcode} :
    w &&& op.format.mask = op.matchWord ↔ op.code = (Fields.ofWord w).opc ∧ op.format.admits (Fields.ofWord w) = true := by
  have hw := Fields.toWord_and_mask (Fields.ofWord w) op.format
  rw [Fields.toWord_ofWord] at hw
  rw [hw, op.matchWord_eq_toWord, Fields.toWord_injective.eq_iff, Fields.outside_eq_iff]

/-- A word decodes to a command of a row exactly when it has the row's opcode and fields its format admits (R84, R85). -/
theorem exists_decode_opcode_iff {w : CmdWord} {op : Opcode} :
    (∃ i, decode w = some i ∧ i.opcode = op) ↔
      op.code = (Fields.ofWord w).opc ∧ op.format.admits (Fields.ofWord w) = true := by
  constructor
  · rintro ⟨i, hi, rfl⟩
    obtain ⟨op, hc, ha, rfl⟩ := decodeFields_some hi
    rw [op.opcode_assemble]
    exact ⟨hc, ha⟩
  · rintro ⟨hc, ha⟩
    exact ⟨op.assemble (Fields.ofWord w), decode_eq_some_iff.2 (Opcode.fields_assemble hc ha), op.opcode_assemble _⟩

/-- Settles O3: the masked word is the word of the fields outside the format, which is the match value where they are zero. -/
theorem maskAndMatchSelectTheRow : Obligations.MaskAndMatchSelectTheRow :=
  fun _ op => ⟨op.matchWord_eq_shiftLeft, and_mask_eq_matchWord_iff.trans exists_decode_opcode_iff.symm⟩

/-! ### The formula of the command word -/

/-- A field of a word, read from its bit positions, is a quotient of the word's number. -/
theorem extractLsb_toNat_eq_div_mod {n : Nat} (w : BitVec n) (hi lo : Nat) :
    (w.extractLsb hi lo).toNat = w.toNat / 2 ^ lo % 2 ^ (hi - lo + 1) := by
  rw [BitVec.extractLsb_toNat, Nat.shiftRight_eq_div_pow]

/-- Settles O4: R81's formula is the word of its fields, a word gives its fields back, and each field is a quotient of the word. -/
theorem commandWordFormula : Obligations.CommandWordFormula := by
  intro f
  refine ⟨fun hrsv => ?_, Fields.ofWord_toWord f, fun w => ?_⟩
  · rw [commandWord_eq, ← hrsv]
  · simp only [extractLsb_toNat_eq_div_mod]
    refine ⟨rfl, rfl, rfl, rfl, rfl, rfl, ?_⟩
    rw [BitVec.getLsbD, Nat.testBit_zero]
    exact beq_eq_decide (a := w.toNat % 2) (b := 1)

/-! ### Illegal words -/

/-- The reserved opcodes of R86 item 2 are the values of OPC the map has no row for (R85). -/
theorem Opcode.ofCode_eq_none_iff (c : Fin 64) :
    Opcode.ofCode c = none ↔
      c.val ∈ [0x0E, 0x0F] ∨ (0x13 ≤ c.val ∧ c.val ≤ 0x17) ∨ (0x1A ≤ c.val ∧ c.val ≤ 0x1F) ∨ (0x25 ≤ c.val ∧ c.val ≤ 0x3F) := by
  revert c
  decide

theorem Opcode.code_injective : Function.Injective Opcode.code := fun a b h =>
  Option.some.inj (by rw [← Opcode.ofCode_code a, h, Opcode.ofCode_code b])

/-- A 32-bit word is illegal where its opcode is reserved or it misses the match value of its opcode's row (R86 items 2 and 3). -/
theorem decode_eq_none_iff {w : CmdWord} :
    decode w = none ↔ Opcode.ofCode (Fields.ofWord w).opc = none
      ∨ ∃ op : Opcode, op.code = (Fields.ofWord w).opc ∧ w &&& op.format.mask ≠ op.matchWord := by
  constructor
  · intro h
    cases hop : Opcode.ofCode (Fields.ofWord w).opc with
    | none => exact .inl rfl
    | some op =>
      refine .inr ⟨op, Opcode.code_of_ofCode hop, fun hm => ?_⟩
      obtain ⟨i, hi, _⟩ := exists_decode_opcode_iff.2 (and_mask_eq_matchWord_iff.1 hm)
      rw [h] at hi
      cases hi
  · intro h
    rw [Option.eq_none_iff_forall_ne_some]
    intro i hi
    -- the row of a decoded word is its opcode's, and the word has its match value
    obtain ⟨hc, ha⟩ := exists_decode_opcode_iff.1 ⟨i, hi, rfl⟩
    obtain hr | ⟨op, hop, hne⟩ := h
    · rw [← hc, Opcode.ofCode_code] at hr
      cases hr
    · obtain rfl : op = i.opcode := Opcode.code_injective (hop.trans hc.symm)
      exact hne (and_mask_eq_matchWord_iff.2 ⟨hc, ha⟩)

/-- A word has only its low 32 bits exactly when its upper half is zero. -/
theorem lt_two_pow_32_iff (c : Word) : c.toNat < 2 ^ 32 ↔ c.extractLsb 63 32 = 0 := by
  have hc := c.isLt
  rw [← BitVec.toNat_inj, extractLsb_toNat_eq_div_mod, BitVec.ofNat_eq_ofNat, BitVec.toNat_ofNat, Nat.zero_mod]
  omega

/-- The word in CMD is illegal where a bit above 31 is set at W = 64, or its low 32 bits are an illegal word (R80, R86). -/
theorem decodeCmd_eq_none_iff {lw : LimbWidth} {c : Word} :
    decodeCmd lw c = none ↔ (lw.bits = 64 ∧ c.extractLsb 63 32 ≠ 0) ∨ decode (c.setWidth 32) = none := by
  cases lw with
  | w32 => simp [decodeCmd, LimbWidth.bits]
  | w64 =>
    rw [decodeCmd, ne_eq, ← lt_two_pow_32_iff]
    split
    · next h => simp only [h, not_true, and_false, false_or]
    · next h => simp only [h, LimbWidth.bits, not_false_eq_true, and_true, true_or]

end Sys2Proof

namespace Sys2Proof.Machine

/-- A CMD write while BUSY = 0 is the accept of the word (R180). -/
theorem portWrite_cmd_idle {s : State} {c : Word} (hb : s.busy = false) (hc : c.toNat < 2 ^ s.W) :
    portWrite PortReg.cmd.index c s = (s.accept c).startEngine := by
  rw [portWrite_eq, portReg_index_cmd, wordOf_eq_self hc]
  exact if_neg (Bool.eq_false_iff.1 hb)

/-- The engine's turn with an illegal word in flight is the completion with E_ILLEGAL (R86, R181). -/
theorem engineTurn_of_illegal {s : State} (hb : s.busy = true) (h : decodeCmd s.params.limbWidth s.cmd = none) :
    engineTurn s = .next (s.complete .illegal) := by
  rw [engineTurn, if_pos hb, h]
  rfl

/-- Settles O5: the three items of R86 are the words the decoder refuses, every word is accepted, and a refused one completes
with E_ILLEGAL. -/
theorem illegalWordsCompleteWithEIllegal : Obligations.IllegalWordsCompleteWithEIllegal := by
  intro s _ c hc w opc illegal
  have hopc : (Fields.ofWord w).opc.val = opc := (extractLsb_toNat_eq_div_mod w 31 26).symm
  have hill : illegal ↔ decodeCmd s.params.limbWidth c = none := by
    rw [decodeCmd_eq_none_iff, decode_eq_none_iff, Opcode.ofCode_eq_none_iff]
    simp only [Fin.ext_iff]
    rw [hopc]
    simp only [or_assoc]
    rfl
  refine ⟨hill, fun hb => ?_, fun hb hcmd h => ?_⟩
  · rw [portWrite_cmd_idle hb hc]
    exact ⟨rfl, rfl, rfl⟩
  · exact ⟨_, engineTurn_of_illegal hb (by rw [hcmd, hill.1 h]), failsWith_complete s _⟩

end Sys2Proof.Machine
end

section
/-! Proofs of the magnitude family: NOP to MULW write what their rules say (R100 to R114), and the comparison unit (R109). -/

namespace Sys2Proof

/-- The word R81's formula makes of a command's fields decodes to the command (R81, R84, R85). -/
theorem decode_commandWord (i : Instr) :
    decode (Machine.commandWord i.fields.opc.val i.fields.rd i.fields.rs1 i.fields.rs2 i.fields.rs3 i.fields.v) = some i := by
  have hrsv : i.fields.rsv = 0 := by cases i <;> rfl
  rw [← (commandWordFormula i.fields).1 hrsv]
  exact decode_encode i

end Sys2Proof

namespace Sys2Proof.Machine

/-! ### The two endings of a rule -/

/-- A rule that answers an error code ends in its error completion (R182). -/
theorem completion_failsWith {s : State} {rule : Except ErrCode State} {code : ErrCode} (h : rule = .error code) :
    ∃ t, completion s rule = .next t ∧ FailsWith s t code :=
  ⟨_, by rw [h, completion_error], failsWith_complete s code⟩

/-- A rule that answers a result write that fits ends in its completion (R24, R181). -/
theorem completion_writesResult {s : State} {rule : Except ErrCode State} {d : Reg} {v : Nat} (h : rule = .ok (s.writeResult d v))
    (hv : clen s.W v ≤ s.maxLimbs) : ∃ t, completion s rule = .next t ∧ WritesResult s t d v :=
  ⟨_, by rw [h, completion_ok], writesResult_complete d hv⟩

/-- A rule that answers a RES write of a W-bit number ends in its completion (R36, R181). -/
theorem completion_writesRes {s : State} {rule : Except ErrCode State} {v : Nat} (h : rule = .ok (s.setRes v))
    (hv : v < 2 ^ s.W) : ∃ t, completion s rule = .next t ∧ WritesRes s t v :=
  ⟨_, by rw [h, completion_ok], writesRes_complete hv⟩

/-- Settles O33: a word that decodes to NOP is NOP's encoding, the zero word, and NOP's effect is none. -/
theorem nopOnlyCompletes : Obligations.NopOnlyCompletes := by
  refine ⟨fun w => ⟨fun h => (decodedWordIsTheOnlyEncoding w .nop h).symm, ?_⟩, fun s => rfl⟩
  rintro rfl
  exact decode_encode .nop

/-- Settles O34: both write a register's value, which fits every register. -/
theorem movAndClampWriteTheValue : Obligations.MovAndClampWriteTheValue :=
  fun s d a hs =>
    ⟨decode_commandWord (.mov d a), decode_commandWord (.clamp d), completion_writesResult rfl (s.clen_val_le hs a),
      completion_writesResult rfl (s.clen_val_le hs d), rfl⟩

/-! ### GROW -/

theorem BigReg.len_grow (b : BigReg) (n : Nat) : (b.grow n).len = max b.len n := by
  unfold BigReg.grow
  split
  · next h => exact (max_eq_right h.le).symm
  · next h => exact (max_eq_left (Nat.not_lt.1 h)).symm

/-- GROW zeroes the limbs from LEN up to n and leaves the others (R103). -/
theorem BigReg.limb_grow {b : BigReg} (h : b.len ≤ b.limbs.length) (n i : Nat) :
    (b.grow n).limbs.getD i 0 = if b.len ≤ i ∧ i < n then 0 else b.limbs.getD i 0 := by
  unfold BigReg.grow
  split
  · next hn =>
    have hlow : (b.limbs.take b.len).length = b.len := by rw [List.length_take, min_eq_left h]
    have hmid : (b.limbs.take b.len ++ List.replicate (n - b.len) 0).length = n := by
      rw [List.length_append, hlow, List.length_replicate]; omega
    simp only [List.getD_eq_getElem?_getD]
    rcases lt_or_ge i b.len with h1 | h1
    · rw [if_neg (by omega), List.getElem?_append_left (by omega), List.getElem?_append_left (by omega),
        List.getElem?_take_of_lt h1]
    rcases lt_or_ge i n with h2 | h2
    · rw [if_pos ⟨h1, h2⟩, List.getElem?_append_left (by omega), List.getElem?_append_right (by omega), hlow,
        List.getElem?_replicate_of_lt (by omega), Option.getD_some]
    · rw [if_neg (by omega), List.getElem?_append_right (by omega), hmid, List.getElem?_drop]
      congr 2; omega
  · rw [if_neg (by omega)]

/-- The register GROW writes has the value it had (R103). -/
theorem State.val_setReg_grow {s : State} (hs : s.Inv) (d : Reg) (n : Nat) :
    (s.setReg d (s.regs[d].grow n)).val d = s.val d := by
  rw [State.val, State.regs_setReg_self, State.W_setReg, BigReg.grow_value (hs.2.1 d), State.val]

/-- GROW within MAX_LIMBS completes with its register grown and Z from the value (R103). -/
theorem exec_grow_of_le {s : State} {d : Reg} (hs : s.Inv) (hn : s.scalar ≤ s.maxLimbs) :
    exec (.grow d) s = .next (((s.setReg d (s.regs[d].grow s.scalar)).setZ (s.val d)).complete .none) := by
  rw [← State.val_setReg_grow hs d s.scalar]
  exact congrArg (completion s) (if_neg (Nat.not_lt.2 hn))

/-- Settles O35: within MAX_LIMBS the register is the grown one, whose length, limbs and value are known. -/
theorem growRaisesLenAndKeepsTheValue : Obligations.GrowRaisesLenAndKeepsTheValue := by
  intro s d hs
  have hlegal := hs.2.1 d
  have ⟨_, hle, hcount, _⟩ := hlegal
  refine ⟨decode_commandWord (.grow d), fun hn => ?_, fun hn => completion_failsWith (if_pos hn)⟩
  have hreg := s.regs_setReg_self d (s.regs[d].grow s.scalar)
  refine ⟨_, exec_grow_of_le hs hn, succeeds_complete rfl rfl rfl rfl rfl rfl rfl rfl rfl rfl, ?_, ?_, fun i _ => ?_, ?_,
    fun r hr => s.regs_setReg_ne _ hr, beq_eq_decide _ _, rfl, rfl, rfl⟩
  · exact (congrArg BigReg.len hreg).trans (BigReg.len_grow _ _)
  · exact State.val_setReg_grow hs d _
  · exact (congrArg (·.limbs.getD i 0) hreg).trans (BigReg.limb_grow (by omega) _ i)
  · obtain ⟨_, _, hgrown, _⟩ := BigReg.legal_grow hlegal hn
    exact (congrArg (·.limbs.length) hreg).trans hgrown

/-! ### Bits -/

/-- Settles O36: the bit length is at most k exactly below `2**k`, and the byte length is the clamped count of 8-bit limbs. -/
theorem bitlenAndBytelenMeasureTheValue : Obligations.BitlenAndBytelenMeasureTheValue := by
  intro s a hs
  have hbits := State.bits_lt hs
  have hbit := State.bitlen_val_le hs a
  have hpos : 1 ≤ s.W * s.maxLimbs := Nat.mul_pos s.W_pos (Nat.zero_lt_of_lt hs.1.1)
  have hbyte : clen 8 (s.val a) ≤ s.W * s.maxLimbs := by unfold clen; omega
  obtain ⟨t, ht, hw⟩ := completion_writesRes (s := s) rfl (hbit.trans_lt hbits)
  obtain ⟨t', ht', hw'⟩ := completion_writesRes (s := s) rfl (hbyte.trans_lt hbits)
  exact ⟨decode_commandWord (.bitlen a), decode_commandWord (.bytelen a), ⟨t, _, ht, hw, hbit, bitlen_le_iff _⟩,
    ⟨t', _, ht', hw', clen_pos _ _, fun j hj => clen_le_iff (by decide) hj _⟩⟩

/-- Settles O37: a bit is a W-bit number, and the range check is the rule's. -/
theorem getbitReadsTheBitInRange : Obligations.GetbitReadsTheBitInRange := by
  intro s a _
  refine ⟨decode_commandWord (.getbit a), fun hp => ?_, fun hp => completion_failsWith (if_pos hp)⟩
  have hbit : bitAt (s.val a) s.scalar < 2 ^ s.W :=
    (bitAt_le_one _ _).trans_lt (Nat.one_lt_two_pow s.W_pos.ne')
  rw [← bitAt_eq]
  exact completion_writesRes (if_neg (Nat.not_le.2 hp)) hbit

/-- A number that has bit p equal to b, and the bits above and below p of v. -/
theorem testBit_of_div_mod {n v p : Nat} {b : Bool} (hdiv : n / 2 ^ p = 2 * (v / 2 ^ p / 2) + b.toNat)
    (hmod : n % 2 ^ p = v % 2 ^ p) (q : Nat) : n.testBit q = if q = p then b else v.testBit q := by
  rcases lt_trichotomy q p with h | rfl | h
  · have low : ∀ x : Nat, x.testBit q = (x % 2 ^ p).testBit q := fun x => by simp [Nat.testBit_mod_two_pow, h]
    rw [if_neg h.ne, low n, low v, hmod]
  · rw [if_pos rfl, Nat.testBit_eq_decide_div_mod_eq, hdiv]
    cases b <;> simp
  · have high : ∀ x : Nat, x.testBit q = (x / 2 ^ p / 2).testBit (q - (p + 1)) := fun x => by
      rw [Nat.div_div_eq_div_mul, ← pow_succ, Nat.testBit_div_two_pow]
      congr 1; omega
    have hb := b.toNat_lt
    rw [if_neg h.ne', high n, high v, hdiv]
    congr 1; omega

/-- Adding the missing bit p of v sets it and leaves the others (R107). -/
theorem testBit_add_bit (v p q : Nat) :
    (v + (1 - bitAt v p) * 2 ^ p).testBit q = if q = p then true else v.testBit q := by
  refine testBit_of_div_mod ?_ (Nat.add_mul_mod_self_right _ _ _) q
  rw [Nat.add_mul_div_right _ _ (by positivity), bitAt_eq, Bool.toNat_true]
  omega

/-- Taking away bit p of v clears it and leaves the others (R107). -/
theorem testBit_sub_bit (v p q : Nat) : (v - bitAt v p * 2 ^ p).testBit q = if q = p then false else v.testBit q := by
  have hle : bitAt v p * 2 ^ p ≤ v := by
    rw [bitAt_eq]
    exact (Nat.mul_le_mul_right _ (Nat.mod_le _ _)).trans (Nat.div_mul_le_self v _)
  rw [mul_comm] at hle ⊢
  refine testBit_of_div_mod ?_ (Nat.sub_mul_mod hle) q
  rw [Nat.sub_mul_div, bitAt_eq, Bool.toNat_false]
  omega

/-- Settles O38: V = 1 adds the bit where it is missing, V = 0 takes it away, and both results fit. -/
theorem setbitMakesTheBitV : Obligations.SetbitMakesTheBitV := by
  intro s d v hs
  refine ⟨decode_commandWord (.setbit d v), fun hp => ?_, fun hp => completion_failsWith (if_pos hp)⟩
  have hin : ¬ s.scalar ≥ s.W * s.len d := Nat.not_le.2 hp
  cases v with
  | true =>
    obtain ⟨t, ht, hw⟩ := completion_writesResult (if_neg hin) (setbit_fits hs d hp)
    exact ⟨t, _, ht, hw, fun _ => by rw [bitAt_eq], nofun, testBit_add_bit _ _⟩
  | false =>
    obtain ⟨t, ht, hw⟩ := completion_writesResult (if_neg hin) (State.clen_le_of_le_val (r := d) hs (Nat.sub_le _ _))
    exact ⟨t, _, ht, hw, nofun, fun _ => by rw [bitAt_eq]; rfl, testBit_sub_bit _ _⟩

/-! ### Comparison -/

/-- Settles O39: CMP completes with LT and EQ from the two values, and neither of them is the third order. -/
theorem cmpOrdersTheValues : Obligations.CmpOrdersTheValues := by
  intro s a b _
  refine ⟨decode_commandWord (.cmp a b), _, exec_cmp a b s, succeeds_complete rfl rfl rfl rfl rfl rfl rfl rfl rfl rfl, rfl, rfl,
    rfl, ?_⟩
  rw [State.flagLT_complete, State.flagEQ_complete, State.flagLT_setCompare, State.flagEQ_setCompare]
  simp only [decide_eq_true_eq, decide_eq_false_iff_not, beq_iff_eq, beq_eq_false_iff_ne, true_and]
  omega

/-- Settles O54: a shorter clamped length is a smaller number, and equal lengths compare as all their limbs do. -/
theorem comparisonUnitGivesNumericOrder : Obligations.ComparisonUnitGivesNumericOrder := by
  intro w a b hw
  have shorter : ∀ {x y : Nat}, clen w x < clen w y → x < y := fun {x y} h => by
    by_contra hle
    exact absurd (clen_mono hw (Nat.not_lt.1 hle)) (Nat.not_le.2 h)
  unfold compareUnit
  split
  · next h => exact (Nat.compare_eq_lt.2 (shorter h)).symm
  · next h1 =>
    split
    · next h2 => exact (Nat.compare_eq_gt.2 (shorter h2)).symm
    · next h2 =>
      have hlen : clen w b = clen w a := by omega
      have whole : ∀ {x : Nat}, clen w x = clen w a → x % (2 ^ w) ^ clen w a = x := fun {x} h => by
        rw [← h, ← pow_mul, Nat.mod_eq_of_lt (lt_two_pow_clen hw x)]
      rw [compareDown_eq (by positivity), whole rfl, whole hlen]

/-! ### Shifts and single-word arithmetic -/

/-- Settles O40: the check in bits is the check in limbs, and the shift is the product. -/
theorem shlMultipliesByThePowerOfTwo : Obligations.ShlMultipliesByThePowerOfTwo := by
  intro s d a hs v
  have hfits : shiftUpFits s.params.capBits (s.val a) s.scalar = true ↔ clen s.W v ≤ s.maxLimbs :=
    (shiftUpFits_iff _ _ _).trans (State.clen_le_maxLimbs_iff hs.1 v).symm
  refine ⟨decode_commandWord (.shl d a), fun hv => completion_writesResult ?_ hv, fun hv => completion_failsWith (if_neg ?_)⟩
  · rw [if_pos (hfits.2 hv), shiftUp_eq]; rfl
  · rw [hfits]; omega

/-- Settles O41: the shift is the quotient, which is no greater than the value. -/
theorem shrDividesByThePowerOfTwo : Obligations.ShrDividesByThePowerOfTwo := by
  intro s d a hs
  rw [← shiftDown_eq]
  refine ⟨decode_commandWord (.shr d a), completion_writesResult rfl (State.clen_le_of_le_val (r := a) hs ?_)⟩
  rw [shiftDown_eq]
  exact Nat.div_le_self _ _

/-- Settles O42: ADDW ends in the write with a capacity check, which is the bound `2**CAP_BITS`. -/
theorem addwAddsTheWord : Obligations.AddwAddsTheWord := by
  intro s d a hs v
  have hcap := State.clen_le_maxLimbs_iff hs.1 v
  have hover : s.maxLimbs < clen s.W v ↔ 2 ^ s.params.capBits ≤ v := by rw [← not_le, hcap, not_lt]
  exact ⟨decode_commandWord (.addw d a), fun hv => writeOrCapacity_fits d (hcap.2 hv),
    fun hv => writeOrCapacity_overflows d (hover.2 hv), hover⟩

/-- Settles O43: the difference is no greater than the value, so it fits. -/
theorem subwSubtractsTheWord : Obligations.SubwSubtractsTheWord := by
  intro s d a hs
  refine ⟨decode_commandWord (.subw d a), fun hv => ?_, fun hv => completion_failsWith (if_pos hv)⟩
  obtain ⟨t, ht, hw⟩ := completion_writesResult (if_neg (Nat.not_lt.2 hv)) (State.clen_le_of_le_val (r := a) hs (Nat.sub_le _ _))
  exact ⟨t, _, ht, Nat.sub_add_cancel hv, hw⟩

/-- The carry limb of a product with a word is a word (R114). -/
theorem mul_div_two_pow_clen_lt {w : Nat} (hw : 0 < w) (u : Nat) {k : Nat} (hk : k < 2 ^ w) :
    u * k / 2 ^ (w * clen w u) < 2 ^ w := by
  rw [Nat.div_lt_iff_lt_mul (by positivity), mul_comm (2 ^ w)]
  exact Nat.mul_lt_mul'' (lt_two_pow_clen hw u) hk

/-- Settles O44: the product's write and the carry limb's write land together, or neither does. -/
theorem mulwWritesProductAndCarryLimb : Obligations.MulwWritesProductAndCarryLimb := by
  intro s d a hs p c
  obtain ⟨_, _, _, harg, _⟩ := hs
  have hc : c < 2 ^ s.W := mul_div_two_pow_clen_lt s.W_pos _ harg
  refine ⟨decode_commandWord (.mulw d a), hc, fun hp => ?_, fun hp => completion_failsWith (if_neg ?_)⟩
  · refine ⟨((s.writeResult d p).setRes c).complete .none, ?_, succeeds_complete rfl rfl rfl rfl rfl rfl rfl rfl rfl rfl,
      holds_writeB hp rfl rfl, ?_, beq_eq_decide _ _, rfl, rfl⟩
    · exact congrArg (completion s) (if_pos ((State.fits_iff p).2 hp))
    · exact (wordOf_toNat s.W_le c).trans (Nat.mod_eq_of_lt hc)
  · rw [State.fits_iff]
    exact Nat.not_le.2 hp

end Sys2Proof.Machine
end

section
/-! Proofs of the kernel family: ADD, SUB and MUL write what their rules say (R140 to R144), and the ripple adder and subtractor and
the schoolbook multiplier are exact. -/

namespace Sys2Proof.Machine

/-! ### ADD and SUB -/

/-- A value overflows the limbs exactly when it overflows the bits (R9, R24). -/
theorem State.maxLimbs_lt_clen_iff {s : State} (h : s.params.Legal) (v : Nat) :
    s.maxLimbs < clen s.W v ↔ 2 ^ s.params.capBits ≤ v := by
  rw [← not_le, State.clen_le_maxLimbs_iff h, not_lt]

/-- Settles O45: ADD ends in the write with a capacity check, which is the bound `2**CAP_BITS`. -/
theorem addWritesTheSum : Obligations.AddWritesTheSum := by
  intro s d a b hs v
  have hover := State.maxLimbs_lt_clen_iff hs.1 v
  exact ⟨decode_commandWord (.add d a b), fun hv => writeOrCapacity_fits d ((State.clen_le_maxLimbs_iff hs.1 v).2 hv),
    fun hv => writeOrCapacity_overflows d (hover.2 hv), hover⟩

/-- SUB of a subtrahend that is no greater writes the difference, which fits because the minuend does (R141). -/
theorem exec_sub_of_le {s : State} {a b : Reg} (hs : s.Inv) (d : Reg) (h : s.val b ≤ s.val a) :
    ∃ t, exec (.sub d a b) s = .next t ∧ WritesResult s t d (s.val a - s.val b) :=
  completion_writesResult (if_neg (Nat.not_lt.2 h)) (State.clen_le_of_le_val (r := a) hs (Nat.sub_le _ _))

/-- Settles O46: the comparison decides between the difference and the error, and a register is never below itself. -/
theorem subWritesTheDifference : Obligations.SubWritesTheDifference := by
  intro s d a b hs
  refine ⟨decode_commandWord (.sub d a b), fun h => ?_, fun h => completion_failsWith (if_pos h), ?_⟩
  · obtain ⟨t, ht, hw⟩ := exec_sub_of_le hs d h
    exact ⟨t, _, ht, Nat.sub_add_cancel h, hw⟩
  · simpa only [Nat.sub_self] using exec_sub_of_le hs d (le_refl (s.val d))

/-! ### MUL -/

/-- A product of non-zero numbers has as many limbs as both factors together, or one less (R144). -/
theorem clen_mul {w u v : Nat} (hw : 0 < w) (hu : 0 < u) (hv : 0 < v) :
    clen w (u * v) = clen w u + clen w v ∨ clen w (u * v) + 1 = clen w u + clen w v := by
  have hcu := clen_pos w u
  have hcv := clen_pos w v
  have hupper : clen w (u * v) ≤ clen w u + clen w v := by
    rw [clen_le_iff hw (by omega), Nat.mul_add, pow_add]
    exact Nat.mul_lt_mul'' (lt_two_pow_clen hw u) (lt_two_pow_clen hw v)
  have hlower : clen w u - 1 + (clen w v - 1) < clen w (u * v) := by
    have hle : 2 ^ (w * (clen w u - 1 + (clen w v - 1))) ≤ u * v := by
      rw [Nat.mul_add, pow_add]
      exact Nat.mul_le_mul (two_pow_le_of_clen hw hu) (two_pow_le_of_clen hw hv)
    have hlt := (Nat.pow_lt_pow_iff_right one_lt_two).1 (hle.trans_lt (lt_two_pow_clen hw (u * v)))
    exact Nat.lt_of_mul_lt_mul_left hlt
  omega

/-- Settles O47: MUL ends in the write with a capacity check, and the LEN it stores is the product's clamped length. -/
theorem mulWritesTheProduct : Obligations.MulWritesTheProduct := by
  intro s d a b _ v
  refine ⟨decode_commandWord (.mul d a b), fun hv => ?_, fun hv => writeOrCapacity_overflows d hv⟩
  obtain ⟨t, ht, hw⟩ := writeOrCapacity_fits d hv
  refine ⟨t, ht, hw, fun h0 => ?_, fun h0 => ?_⟩ <;> rw [hw.dest.len]
  · rw [h0, clen_zero s.W s.W_pos]
  · obtain ⟨ha, hb⟩ := Nat.mul_ne_zero_iff.1 h0
    exact clen_mul s.W_pos (Nat.pos_of_ne_zero ha) (Nat.pos_of_ne_zero hb)

/-! ### Ripple adder and subtractor -/

/-- Settles O55: the subtractor's value equation and bounds make its borrow out the test of a greater subtrahend. -/
theorem rippleAdderAndSubtractorAreExact : Obligations.RippleAdderAndSubtractorAreExact := by
  intro w xs ys hw hx hy B
  have hB : 1 < B := Nat.one_lt_two_pow (by omega)
  obtain ⟨haddLen, haddLt⟩ := addUnit_limbs xs ys 0 hB zero_le_one hx hy
  obtain ⟨hsubLen, hsubLt⟩ := subUnit_limbs (zero_lt_one.trans hB) xs ys 0
  obtain ⟨hvalue, hborrow, hbound⟩ := subUnit_value (zero_lt_one.trans hB) xs ys 0 zero_le_one hx hy
  refine ⟨addUnit_value B xs ys 0, haddLen, haddLt, hsubLen, hsubLt, ?_⟩
  obtain hout | hout : (subUnit B xs ys 0).2 = 0 ∨ (subUnit B xs ys 0).2 = 1 := by omega
  all_goals
    rw [hout] at hvalue ⊢
    omega

/-! ### Schoolbook multiplier -/

/-- Multiply-accumulate of one limb fits two limbs (R143): `(B-1) + (B-1)**2 + (B-1) = B**2 - 1`. -/
theorem mulAccumulate_lt {B x a b c : Nat} (hx : x < B) (ha : a < B) (hb : b < B) (hc : c < B) : x + a * b + c < B * B := by
  obtain ⟨B, rfl⟩ := Nat.exists_eq_add_one_of_ne_zero (Nat.ne_zero_of_lt hx)
  have hab : a * b ≤ B * B := Nat.mul_le_mul (Nat.le_of_lt_succ ha) (Nat.le_of_lt_succ hb)
  have hsquare : (B + 1) * (B + 1) = B * B + 2 * B + 1 := by ring
  omega

/-- The accumulator limb a row reads or settles is below B, also where there is none. -/
theorem headD_lt {B : Nat} {ls : List Nat} (hB : 0 < B) (hls : ∀ x ∈ ls, x < B) : ls.headD 0 < B := by
  cases ls with
  | nil => exact hB
  | cons x xs => exact hls x List.mem_cons_self

/-- The inner loop's limbs and carry are below B (R143). -/
theorem mulRow_lt {B a : Nat} {bs acc : List Nat} {c : Nat} (ha : a < B) (hc : c < B) (hb : ∀ b ∈ bs, b < B)
    (hacc : ∀ x ∈ acc, x < B) : ∀ x ∈ mulRow B a bs acc c, x < B := by
  have hB : 0 < B := Nat.zero_lt_of_lt ha
  induction bs generalizing acc c with
  | nil => simpa [mulRow] using hc
  | cons b bs ih =>
    obtain ⟨hb0, hbs⟩ := List.forall_mem_cons.1 hb
    exact List.forall_mem_cons.2 ⟨Nat.mod_lt _ hB,
      ih (Nat.div_lt_of_lt_mul (mulAccumulate_lt (headD_lt hB hacc) ha hb0 hc)) hbs fun x hx => hacc x (List.mem_of_mem_tail hx)⟩

/-- The outer loop's limbs are below B (R143). -/
theorem mulLoop_lt {B : Nat} {as bs acc : List Nat} (ha : ∀ a ∈ as, a < B) (hb : ∀ b ∈ bs, b < B) (hacc : ∀ x ∈ acc, x < B) :
    ∀ x ∈ mulLoop B as bs acc, x < B := by
  induction as generalizing acc with
  | nil => exact hacc
  | cons a as ih =>
    obtain ⟨ha0, has⟩ := List.forall_mem_cons.1 ha
    have hB := Nat.zero_lt_of_lt ha0
    have hrow := mulRow_lt ha0 hB hb hacc
    exact List.forall_mem_cons.2 ⟨headD_lt hB hrow, ih has fun x hx => hrow x (List.mem_of_mem_tail hx)⟩

theorem natValue_replicate_zero (B n : Nat) : natValue B (List.replicate n 0) = 0 := by
  induction n with
  | zero => rfl
  | succ n ih => rw [List.replicate_succ, natValue, ih, Nat.mul_zero]

/-- Settles O56: the double loop starts from a zero accumulator of `Lb` limbs. -/
theorem schoolbookMultiplierIsExact : Obligations.SchoolbookMultiplierIsExact := by
  intro w as bs _ ha hb
  have hlen : (List.replicate bs.length 0).length = bs.length := List.length_replicate
  refine ⟨?_, mulLoop_length _ as bs _ hlen, mulLoop_lt ha hb fun x hx => ?_⟩
  · rw [mulUnit, mulLoop_value _ as bs _ hlen, natValue_replicate_zero, Nat.add_zero]
  · rw [List.eq_of_mem_replicate hx]
    positivity

end Sys2Proof.Machine
end

section
/-! Proofs of the division family: DIV and REM write the quotient and the remainder (R150 to R152), and the long-division engine is
exact (R153 to R155). -/

namespace Sys2Proof.Machine

/-! ### DIV and REM -/

/-- Settles O48: neither result exceeds the dividend, so both fit. -/
theorem divAndRemWriteQuotientAndRemainder : Obligations.DivAndRemWriteQuotientAndRemainder := by
  intro s d a b hs
  refine ⟨decode_commandWord (.div d a b), decode_commandWord (.rem d a b), fun hb => ?_, fun hb => ?_⟩
  · obtain ⟨t, ht, hw⟩ := completion_writesResult (d := d) (if_neg hb) (State.clen_le_of_le_val (r := a) hs (Nat.div_le_self _ _))
    obtain ⟨t', ht', hw'⟩ := completion_writesResult (d := d) (if_neg hb) (State.clen_le_of_le_val (r := a) hs (Nat.mod_le _ _))
    exact ⟨t, t', _, _, ht, ht', hw, hw', (Nat.div_add_mod' _ _).symm, Nat.mod_lt _ (Nat.pos_of_ne_zero hb)⟩
  · obtain ⟨t, ht, hf⟩ := completion_failsWith (s := s) (if_pos hb)
    obtain ⟨t', ht', hf'⟩ := completion_failsWith (s := s) (if_pos hb)
    exact ⟨t, t', ht, ht', hf, hf'⟩

/-! ### Long division -/

section
variable {B n v : Nat} (hB : 2 ≤ B) (hn : 1 ≤ n) (hv : v < B ^ n) (hnorm : B ^ n ≤ 2 * v)
include hB hn hv hnorm

/-- The loop over the quotient limbs keeps `q * v + u`, u the working remainder below `v * B**j`, and ends in its exact quotient
and remainder by v (R153 step 3). -/
theorem divLoop_eq {j u : Nat} (q : Nat) (hu : u < v * B ^ j) :
    divLoop B n v j q u = some ((q * v + u) / v, (q * v + u) % v) := by
  induction j generalizing q u with
  | zero =>
    have hlt : u < v := by rwa [pow_zero, Nat.mul_one] at hu
    rw [divLoop, Nat.mul_add_mod', Nat.mod_eq_of_lt hlt, Nat.add_comm, Nat.add_mul_div_right _ _ (Nat.zero_lt_of_lt hlt),
      Nat.div_eq_of_lt hlt, Nat.zero_add]
  | succ j ih =>
    obtain ⟨qj, r, hstep, hval, hr⟩ := divStep_spec hB hn hv hnorm hu
    have hkept : (q + qj * B ^ j) * v + r = q * v + u := by rw [hval]; ring
    simp only [divLoop, hstep]
    rw [ih _ hr, hkept]

/-- With the top quotient limb taken out first, the loop divides the whole number exactly (R153 steps 2 and 3). -/
theorem divLoop_of_top {m u top : Nat} (hle : top * v * B ^ m ≤ u) (hlt : u < (top + 1) * v * B ^ m) :
    divLoop B n v m (top * B ^ m) (u - top * v * B ^ m) = some (u / v, u % v) := by
  have hrest : u - top * v * B ^ m < v * B ^ m := by
    rw [Nat.succ_mul, Nat.add_mul] at hlt
    omega
  have hkept : top * B ^ m * v + (u - top * v * B ^ m) = u := by
    rw [Nat.mul_right_comm, Nat.add_sub_cancel' hle]
  rw [divLoop_eq hB hn hv hnorm _ hrest, hkept]

/-- The seed of the top quotient limb is 0 or 1, because the normalized divisor is at least half of `B**n` (R153 step 2). -/
theorem divLoop_of_seed {m u : Nat} (hu : u < B ^ (m + n)) :
    let top := if v ≤ u / B ^ m then 1 else 0
    divLoop B n v m (top * B ^ m) (u - top * v * B ^ m) = some (u / v, u % v) := by
  have hBm : 0 < B ^ m := by positivity
  refine divLoop_of_top hB hn hv hnorm ?_ ?_ <;> split
  · next h => rw [Nat.one_mul]; exact (Nat.le_div_iff_mul_le hBm).1 h
  · rw [Nat.zero_mul, Nat.zero_mul]; exact Nat.zero_le u
  · calc u < B ^ n * B ^ m := by rwa [← pow_add, Nat.add_comm]
      _ ≤ 2 * v * B ^ m := Nat.mul_le_mul_right _ hnorm
  · next h => rw [Nat.zero_add, Nat.one_mul]; exact (Nat.div_lt_iff_lt_mul hBm).1 (Nat.not_le.1 h)

end

/-- Settles O57: the loop divides the normalized numbers exactly, and the common shift drops out of the quotient and is undone in
the remainder. -/
theorem longDivisionEngineIsExact : Obligations.LongDivisionEngineIsExact := by
  intro w u v hw hv
  have hshift : 0 < 2 ^ normShift w v := Nat.two_pow_pos _
  obtain ⟨hlimbs, hnorm⟩ := normShift_spec hw hv
  unfold divUnit
  dsimp only
  split
  · next h =>
    have huv : u < v := Nat.lt_of_mul_lt_mul_right h
    rw [Nat.div_eq_of_lt huv, Nat.mod_eq_of_lt huv]
  · next h =>
    have hclen : clen w v ≤ clen w (u * 2 ^ normShift w v) :=
      clen_mono hw ((Nat.le_mul_of_pos_right v hshift).trans (Nat.not_lt.1 h))
    have hu : u * 2 ^ normShift w v < (2 ^ w) ^ (clen w (u * 2 ^ normShift w v) - clen w v + clen w v) := by
      rw [Nat.sub_add_cancel hclen, ← pow_mul]
      exact lt_two_pow_clen hw _
    rw [divLoop_of_seed (Nat.le_self_pow (Nat.ne_of_gt hw) 2) (clen_pos w v) hlimbs hnorm hu, Option.map_some,
      Nat.mul_div_mul_right _ _ hshift, Nat.mul_mod_mul_right, Nat.mul_div_cancel _ hshift]

end Sys2Proof.Machine
end

section
/-! Proofs of the modular family: GCD, MRHO, MONTMUL, POW and POWMOD write what their rules say (R160 to R170), and binary GCD,
Newton's rho, REDC and the exponentiation paths compute those values. -/

namespace Sys2Proof.Machine

/-! ### GCD -/

/-- The greatest common divisor divides an operand, so it fits (R160: GCD cannot fail). -/
theorem State.clen_gcd_le {s : State} (hs : s.Inv) (a b : Reg) : clen s.W (Nat.gcd (s.val a) (s.val b)) ≤ s.maxLimbs := by
  rcases Nat.eq_zero_or_pos (s.val a) with ha | ha
  · rw [ha, Nat.gcd_zero_left]
    exact State.clen_val_le hs b
  · exact State.clen_le_of_le_val hs (Nat.gcd_le_left _ ha)

/-- Settles O49: the greatest common divisor fits, and it is 0 only where both operands are. -/
theorem gcdWritesTheGreatestCommonDivisor : Obligations.GcdWritesTheGreatestCommonDivisor := by
  intro s d a b hs
  obtain ⟨t, ht, hw⟩ := completion_writesResult (d := d) rfl (State.clen_gcd_le hs a b)
  exact ⟨decode_commandWord (.gcd d a b), t, _, ht, hw, Nat.gcd_dvd_left _ _, Nat.gcd_dvd_right _ _,
    fun _ => Nat.dvd_gcd, Nat.gcd_eq_zero_iff⟩

/-! ### Binary GCD -/

/-- Stripping twos from one operand keeps the greatest common divisor with an odd number. -/
theorem gcd_stripTwos {x y : Nat} (hx : 0 < x) (hy : y % 2 = 1) : Nat.gcd (stripTwos (bitlen x) x) y = Nat.gcd x y := by
  obtain ⟨-, -, k, hk⟩ := stripTwos_spec (bitlen x) x hx (lt_two_pow_bitlen x)
  conv_rhs => rw [hk, gcd_strip hy]

/-- Stripping twos from both operands keeps their greatest common divisor where one of them is odd. -/
theorem gcd_stripTwos_stripTwos {x y : Nat} (hx : 0 < x) (hy : 0 < y) (hodd : x % 2 = 1 ∨ y % 2 = 1) :
    Nat.gcd (stripTwos (bitlen x) x) (stripTwos (bitlen y) y) = Nat.gcd x y := by
  obtain ⟨hx', -⟩ := stripTwos_spec (bitlen x) x hx (lt_two_pow_bitlen x)
  obtain ⟨hy', -⟩ := stripTwos_spec (bitlen y) y hy (lt_two_pow_bitlen y)
  rcases hodd with h | h
  · rw [gcd_stripTwos hx hy', Nat.gcd_comm, gcd_stripTwos hy h, Nat.gcd_comm]
  · rw [Nat.gcd_comm, gcd_stripTwos hy hx', Nat.gcd_comm, gcd_stripTwos hx h]

theorem bitlen_mono {u v : Nat} (h : u ≤ v) : bitlen u ≤ bitlen v :=
  (bitlen_le_iff u _).2 (h.trans_lt (lt_two_pow_bitlen v))

/-- Half of a difference is shorter than its minuend by a bit at least. -/
theorem bitlen_half_sub_lt {u v : Nat} (hv : 0 < v) (x : Nat) (hu : u ≤ v) : bitlen ((u - x) / 2) < bitlen v := by
  have hpos := bitlen_pos hv
  have hlt := lt_two_pow_bitlen v
  have hdouble : 2 ^ bitlen v = 2 * 2 ^ (bitlen v - 1) := by rw [← pow_succ', Nat.sub_add_cancel hpos]
  have := (bitlen_le_iff ((u - x) / 2) (bitlen v - 1)).2 (by omega)
  omega

/-- The main loop gives the greatest common divisor where one operand is odd: each pass leaves the smaller odd number in place and
shortens the larger by a bit. -/
theorem gcdLoop_eq {fuel x y : Nat} (hodd : x % 2 = 1 ∨ y % 2 = 1) (hf : bitlen x + bitlen y ≤ fuel) :
    gcdLoop fuel x y = Nat.gcd x y := by
  induction fuel generalizing x y with
  | zero =>
    have hx := (bitlen_le_iff x 0).1 (by omega)
    have hy := (bitlen_le_iff y 0).1 (by omega)
    omega
  | succ n ih =>
    unfold gcdLoop
    split
    · next hx => rw [hx, Nat.gcd_zero_left]
    · next hx =>
      split
      · next hy => rw [hy, Nat.gcd_zero_right]
      · next hy =>
        have hx := Nat.pos_of_ne_zero hx
        have hy := Nat.pos_of_ne_zero hy
        obtain ⟨hxo, hxle, -⟩ := stripTwos_spec (bitlen x) x hx (lt_two_pow_bitlen x)
        obtain ⟨hyo, hyle, -⟩ := stripTwos_spec (bitlen y) y hy (lt_two_pow_bitlen y)
        rw [← gcd_stripTwos_stripTwos hx hy hodd]
        dsimp only
        split
        · next h =>
          have := bitlen_half_sub_lt hx (stripTwos (bitlen y) y) hxle
          have := bitlen_mono hyle
          rw [ih (.inr hyo) (by omega), gcd_halfDiff hxo hyo h]
        · next h =>
          have := bitlen_half_sub_lt hy (stripTwos (bitlen x) x) hyle
          have := bitlen_mono hxle
          rw [ih (.inl hxo) (by omega), Nat.gcd_comm, gcd_halfDiff hyo hxo (Nat.le_of_not_ge h), Nat.gcd_comm]

/-- Settles O58: the common twos come out as a factor, the loop does the rest, and the guards answer a zero operand. -/
theorem binaryGcdPipelineIsExact : Obligations.BinaryGcdPipelineIsExact := by
  intro x y
  unfold gcdUnit
  split
  · next hx => rw [hx, Nat.gcd_zero_left]
  · next hx =>
    split
    · next hy => rw [hy, Nat.gcd_zero_right]
    · obtain ⟨j, hj, hxj, hyj, hodd⟩ := commonTwos_spec (bitlen x) x y 0 (Nat.pos_of_ne_zero hx) (lt_two_pow_bitlen x)
      dsimp only
      rw [gcdLoop_eq hodd le_rfl, hj, Nat.zero_add, ← Nat.gcd_mul_right, ← hxj, ← hyj]

/-! ### rho -/

/-- The seed's 4 correct bits fit the width, and doubled four times they fill it (R163). -/
theorem limbWidth_bits_bounds (lw : LimbWidth) : 4 ≤ lw.bits ∧ lw.bits ≤ 4 * 2 ^ 4 := by
  cases lw <;> decide

theorem coprime_two_pow_of_odd {m : Nat} (hm : m % 2 = 1) (k : Nat) : Nat.Coprime m (2 ^ k) :=
  Nat.Coprime.pow_right k (Nat.coprime_two_right.2 (Nat.odd_iff.2 hm))

/-- The low limb of an odd modulus has an inverse modulo `2**W` (R162). -/
theorem modInv_lowLimb {w m : Nat} (hw : 0 < w) (hm : m % 2 = 1) :
    m % 2 ^ w * modInv (m % 2 ^ w) (2 ^ w) % 2 ^ w = 1 ∧ modInv (m % 2 ^ w) (2 ^ w) < 2 ^ w :=
  modInv_spec (Nat.one_lt_two_pow hw.ne') ((Nat.mod_modEq m (2 ^ w)).gcd_eq.trans (coprime_two_pow_of_odd hm w))

/-- Settles O50: rho is the negated inverse of the low limb, which is a word. -/
theorem mrhoGivesTheMontgomeryConstant : Obligations.MrhoGivesTheMontgomeryConstant := by
  intro s m _
  refine ⟨decode_commandWord (.mrho m), fun hm => ?_, fun hm => completion_failsWith (if_pos hm)⟩
  obtain ⟨hinv, hlt⟩ := modInv_lowLimb s.W_pos hm
  have hodd : ¬ s.val m % 2 = 0 := by omega
  obtain ⟨t, ht, hw⟩ := completion_writesRes (if_neg hodd) (Nat.mod_lt _ (Nat.two_pow_pos s.W))
  exact ⟨t, _, ht, hlt, hinv, hw⟩

/-- k steps double the 4 correct low bits of the seed k times, up to the width (R163). -/
theorem newtonIter_spec {w m : Nat} (hw : 4 ≤ w) (hm : m % 2 = 1) (k : Nat) :
    m * newtonIter w m k ≡ 1 [MOD 2 ^ min (4 * 2 ^ k) w] := by
  induction k with
  | zero => simpa [hw] using newtonSeed_spec hw hm
  | succ k ih =>
    have hmin : min (2 * min (4 * 2 ^ k) w) w = min (4 * 2 ^ (k + 1)) w := by omega
    exact hmin ▸ newtonStep_spec ih

theorem newtonIter_lt (w m k : Nat) : newtonIter w m k < 2 ^ w := by
  cases k <;> exact Nat.mod_lt _ (Nat.two_pow_pos w)

/-- Four steps give rho at every width up to 64, because an inverse modulo `2**W` is unique. -/
theorem rhoUnit_eq {w m : Nat} (hw : 4 ≤ w) (hw' : w ≤ 4 * 2 ^ 4) (hm : m % 2 = 1) : rhoUnit w m = rhoOf w m := by
  obtain ⟨hinv, hlt⟩ := modInv_lowLimb (show 0 < w by omega) hm
  have hm0 : m % 2 ^ w % 2 = 1 := by rw [Nat.mod_mod_of_dvd _ (dvd_pow_self 2 (by omega)), hm]
  have hiter := newtonIter_spec hw hm0 4
  rw [min_eq_right hw'] at hiter
  have hone : 1 < 2 ^ w := Nat.one_lt_two_pow (by omega)
  have hmodEq : m % 2 ^ w * newtonIter w (m % 2 ^ w) 4 ≡ m % 2 ^ w * modInv (m % 2 ^ w) (2 ^ w) [MOD 2 ^ w] :=
    hiter.trans (Nat.ModEq.symm (hinv.trans (Nat.mod_eq_of_lt hone).symm))
  have heq := (Nat.ModEq.cancel_left_of_coprime (coprime_two_pow_of_odd hm0 w).symm hmodEq).eq_of_lt_of_lt (newtonIter_lt _ _ _) hlt
  rw [rhoUnit, heq, rhoOf]

/-- What REDC asks of rho: `rho * m = -1` modulo `2**W` (R162, R165). -/
theorem rhoOf_mul {w m : Nat} (hw : 0 < w) (hm : m % 2 = 1) : rhoOf w m * m % 2 ^ w = 2 ^ w - 1 := by
  obtain ⟨hinv, hlt⟩ := modInv_lowLimb hw hm
  have hone : 1 < 2 ^ w := Nat.one_lt_two_pow hw.ne'
  set x := modInv (m % 2 ^ w) (2 ^ w)
  have hxm : 1 ≡ x * m [MOD 2 ^ w] := by
    calc 1 ≡ m % 2 ^ w * x [MOD 2 ^ w] := (hinv.trans (Nat.mod_eq_of_lt hone).symm).symm
      _ ≡ m * x [MOD 2 ^ w] := Nat.ModEq.mul_right x (Nat.mod_modEq m _)
      _ = x * m := mul_comm m x
  have hneg : rhoOf w m * m + 1 ≡ 2 ^ w - 1 + 1 [MOD 2 ^ w] := by
    calc rhoOf w m * m + 1 ≡ (2 ^ w - x) * m + x * m [MOD 2 ^ w] :=
          Nat.ModEq.add (Nat.ModEq.mul_right m (Nat.mod_modEq _ _)) hxm
      _ = 2 ^ w * m := by rw [← Nat.add_mul, Nat.sub_add_cancel hlt.le]
      _ ≡ 2 ^ w * 1 [MOD 2 ^ w] := by simp [Nat.ModEq]
      _ = 2 ^ w - 1 + 1 := by omega
  have := Nat.ModEq.add_right_cancel' 1 hneg
  rwa [Nat.ModEq, Nat.mod_eq_of_lt (show 2 ^ w - 1 < 2 ^ w by omega)] at this

/-! ### Montgomery multiplication -/

/-- r is the Montgomery product of x and y: below m, and `r * R = x * y` modulo m (R164). -/
def IsMontProduct (w m x y r : Nat) : Prop := r < m ∧ r * montRadix w m ≡ x * y [MOD m]

theorem coprime_montRadix {m : Nat} (w : Nat) (hm : m % 2 = 1) : Nat.Coprime m (montRadix w m) :=
  coprime_two_pow_of_odd hm _

theorem IsMontProduct.unique {w m x y r r' : Nat} (hm : m % 2 = 1) (h : IsMontProduct w m x y r) (h' : IsMontProduct w m x y r') :
    r = r' :=
  (Nat.ModEq.cancel_right_of_coprime (coprime_montRadix w hm) (h.2.trans h'.2.symm)).eq_of_lt_of_lt h.1 h'.1

/-- The radix has an inverse modulo an odd m above 1 (R163, R164). -/
theorem modInv_montRadix {m : Nat} (w : Nat) (hm : m % 2 = 1) (h1 : 1 < m) :
    montRadix w m % m * modInv (montRadix w m % m) m % m = 1 ∧ modInv (montRadix w m % m) m < m :=
  modInv_spec h1 ((Nat.mod_modEq _ m).gcd_eq.trans (coprime_montRadix w hm).symm)

theorem isMontProduct_montMul {m : Nat} (w x y : Nat) (hm : m % 2 = 1) : IsMontProduct w m x y (montMul w x y m) := by
  refine ⟨Nat.mod_lt _ (by omega), ?_⟩
  rcases (show m = 1 ∨ 1 < m by omega) with rfl | h1
  · exact Nat.modEq_one
  · obtain ⟨hinv, -⟩ := modInv_montRadix w hm h1
    unfold montMul
    set ri := modInv (montRadix w m % m) m
    calc x * y * ri % m * montRadix w m ≡ x * y * ri * (montRadix w m % m) [MOD m] :=
          Nat.ModEq.mul (Nat.mod_modEq _ m) (Nat.mod_modEq _ m).symm
      _ = x * y * (montRadix w m % m * ri) := by ring
      _ ≡ x * y * 1 [MOD m] := Nat.ModEq.mul_left _ (hinv.trans (Nat.mod_eq_of_lt h1).symm)
      _ = x * y := mul_one _

/-- Settles O51: the value of the rule is the Montgomery product, and it is below the modulus, so it fits. -/
theorem montmulWritesTheMontgomeryProduct : Obligations.MontmulWritesTheMontgomeryProduct := by
  intro s d x y m hs n R
  refine ⟨decode_commandWord (.montmul d x y m), fun hm hx hy => ?_, fun hm => completion_failsWith (if_pos hm), fun hm hxy => ?_⟩
  · obtain ⟨hlt, hmul⟩ := isMontProduct_montMul s.W (s.val x) (s.val y) hm
    have hodd : ¬ s.val m % 2 = 0 := by omega
    have hsmall : ¬ (s.val x ≥ s.val m ∨ s.val y ≥ s.val m) := by omega
    obtain ⟨t, ht, hw⟩ := completion_writesResult (d := d) ((if_neg hodd).trans (if_neg hsmall)) (State.clen_le_of_le_val hs hlt.le)
    refine ⟨t, _, ht, hw, hlt, hmul, fun h1 => ?_⟩
    obtain ⟨hinv, hilt⟩ := modInv_montRadix s.W hm h1
    exact ⟨_, hilt, hinv, rfl⟩
  · have hodd : ¬ s.val m % 2 = 0 := by omega
    exact completion_failsWith ((if_neg hodd).trans (if_pos hxy))

/-- REDC with rho gives the Montgomery product: the loop clears `clen(m)` limbs and ends below `x + m`, so one subtraction is
enough (R165). -/
theorem isMontProduct_redcUnit (lw : LimbWidth) {m x y : Nat} (hm : m % 2 = 1) (hx : x < m) (hy : y < montRadix lw.bits m) :
    IsMontProduct lw.bits m x y (redcUnit lw.bits m x y) := by
  obtain ⟨hw, hw'⟩ := limbWidth_bits_bounds lw
  have hrho : rhoUnit lw.bits m * m % 2 ^ lw.bits = 2 ^ lw.bits - 1 := by
    rw [rhoUnit_eq hw hw' hm, rhoOf_mul (by omega) hm]
  have hR : (2 ^ lw.bits) ^ clen lw.bits m = montRadix lw.bits m := (pow_mul 2 _ _).symm
  obtain ⟨⟨q, hq⟩, hlt⟩ := redcLoop_spec hrho (Nat.one_lt_two_pow (by omega)) (clen lw.bits m) y 0 (hR ▸ hy)
    (show 0 < x + m by omega)
  rw [hR, Nat.zero_add] at hq
  have hmul : redcLoop (2 ^ lw.bits) (rhoUnit lw.bits m) m x (clen lw.bits m) y 0 * montRadix lw.bits m ≡ x * y [MOD m] := by
    rw [hq]
    simp [Nat.ModEq]
  unfold redcUnit
  dsimp only
  split
  · next h => exact ⟨by omega, (Nat.ModEq.mul_right _ (Nat.mod_eq_sub_mod h).symm).trans hmul⟩
  · next h => exact ⟨Nat.not_le.1 h, hmul⟩

/-- A number is below its Montgomery radix, which has a limb for each of its limbs (R163). -/
theorem lt_montRadix (lw : LimbWidth) (m : Nat) : m < montRadix lw.bits m :=
  lt_two_pow_clen (Nat.lt_of_lt_of_le (by decide) (limbWidth_bits_bounds lw).1) m

/-- Settles O59: rho is the unique inverse Newton's steps find, and REDC's value is the unique Montgomery product. -/
theorem rhoAndRedcUnitsAreExact : Obligations.RhoAndRedcUnitsAreExact := by
  intro lw m x y hm
  obtain ⟨hw, hw'⟩ := limbWidth_bits_bounds lw
  exact ⟨rhoUnit_eq hw hw' hm, fun hx hy =>
    (isMontProduct_redcUnit lw hm hx (hy.trans (lt_montRadix lw m))).unique hm (isMontProduct_montMul _ x y hm)⟩

/-! ### Powers -/

/-- POW ends in the write with a capacity check: its early test says no only where the power overflows (R166). -/
theorem exec_pow {s : State} (hs : s.Inv) (d b e : Reg) :
    exec (.pow d b e) s = completion s (s.writeOrCapacity d (s.val b ^ s.val e)) := by
  rw [exec, execPow, natPow_eq]
  split
  · rfl
  · next h =>
    have hover := (State.maxLimbs_lt_clen_iff hs.1 _).2 (two_pow_le_of_not_powMayFit (Bool.eq_false_iff.2 h))
    rw [State.writeOrCapacity_eq, if_neg (Nat.not_le.2 hover)]

/-- Settles O52: the capacity check of the write decides, by the final result. -/
theorem powWritesThePower : Obligations.PowWritesThePower := by
  intro s d b e hs v
  rw [exec_pow hs]
  exact ⟨decode_commandWord (.pow d b e), writeOrCapacity_fits d, writeOrCapacity_overflows d⟩

/-- Settles O53: the value is the power's remainder, which is below the modulus, so it fits. -/
theorem powmodWritesThePowerModM : Obligations.PowmodWritesThePowerModM := by
  intro s d b e m hs
  refine ⟨decode_commandWord (.powmod d b e m), fun hm => ?_, fun hm => completion_failsWith (if_pos hm)⟩
  rw [← powMod_eq]
  refine completion_writesResult (if_neg hm) (State.clen_le_of_le_val (r := m) hs ?_)
  rw [powMod_eq]
  exact (Nat.mod_lt _ (Nat.pos_of_ne_zero hm)).le

/-! ### Square and multiply -/

/-- Over all the exponent's bits, from a start that stands for 1, square and multiply gives what stands for the power (R169). -/
theorem squareMultiply_pow {prod : Nat → Nat → Nat} {Rel : Nat → Nat → Prop}
    (hprod : ∀ x y a c, Rel x a → Rel y c → Rel (prod x y) (a * c)) {b β acc : Nat} (e : Nat) (hb : Rel b β) (hacc : Rel acc 1) :
    Rel (squareMultiply prod b e (bitlen e) acc) (β ^ e) := by
  simpa [Nat.mod_eq_of_lt (lt_two_pow_bitlen e)] using squareMultiply_spec hprod b β e hb (bitlen e) acc 1 hacc

/-- POW's algorithm forms the power itself (R169). -/
theorem powUnit_eq (b e : Nat) : powUnit b e = b ^ e :=
  squareMultiply_pow (Rel := Eq) (fun _ _ _ _ hx hy => hx ▸ hy ▸ rfl) e rfl rfl

/-- On the plain path a number stands for every number it is the remainder of (R169). -/
theorem plainPath_eq (b e m : Nat) : plainPath b e m = b ^ e % m :=
  squareMultiply_pow (Rel := fun x a => x = a % m)
    (fun _ _ a c hx hy => by rw [hx, hy, ← Nat.mul_mod]) e rfl rfl

/-- x is the Montgomery form of a: below m, and `x = a * R` modulo m (R169). -/
def IsMontForm (w m x a : Nat) : Prop := x < m ∧ x ≡ a * montRadix w m [MOD m]

/-- REDC of two Montgomery forms is the Montgomery form of the product. -/
theorem isMontForm_redcUnit {lw : LimbWidth} {m x y a c : Nat} (hm : m % 2 = 1) (hx : IsMontForm lw.bits m x a)
    (hy : IsMontForm lw.bits m y c) : IsMontForm lw.bits m (redcUnit lw.bits m x y) (a * c) := by
  obtain ⟨hlt, hmul⟩ := isMontProduct_redcUnit lw hm hx.1 (hy.1.trans (lt_montRadix lw m))
  refine ⟨hlt, Nat.ModEq.cancel_right_of_coprime (coprime_montRadix lw.bits hm) ?_⟩
  set R := montRadix lw.bits m
  calc redcUnit lw.bits m x y * R ≡ x * y [MOD m] := hmul
    _ ≡ a * R * (c * R) [MOD m] := hx.2.mul hy.2
    _ = a * c * R * R := by ring

/-- The conversion into Montgomery form: REDC against `R**2 mod m` (R169). -/
theorem isMontForm_convert (lw : LimbWidth) (b : Nat) {m : Nat} (hm : m % 2 = 1) :
    IsMontForm lw.bits m (redcUnit lw.bits m (b % m) (montRadix lw.bits m ^ 2 % m)) b := by
  have hpos : 0 < m := by omega
  obtain ⟨hlt, hmul⟩ := isMontProduct_redcUnit lw hm (Nat.mod_lt b hpos)
    ((Nat.mod_lt (montRadix lw.bits m ^ 2) hpos).trans (lt_montRadix lw m))
  refine ⟨hlt, Nat.ModEq.cancel_right_of_coprime (coprime_montRadix lw.bits hm) (hmul.trans ?_)⟩
  rw [mul_assoc, ← pow_two]
  exact Nat.ModEq.mul (Nat.mod_modEq _ _) (Nat.mod_modEq _ _)

/-- The conversion out of Montgomery form: REDC against 1 (R169). -/
theorem redcUnit_one {lw : LimbWidth} {m x a : Nat} (hm : m % 2 = 1) (hx : IsMontForm lw.bits m x a) :
    redcUnit lw.bits m x 1 = a % m := by
  have hpos : 0 < m := by omega
  obtain ⟨hlt, hmul⟩ := isMontProduct_redcUnit lw (y := 1) hm hx.1 (Nat.lt_of_le_of_lt hpos (lt_montRadix lw m))
  rw [mul_one] at hmul
  have := Nat.ModEq.cancel_right_of_coprime (coprime_montRadix lw.bits hm) (hmul.trans hx.2)
  rwa [Nat.ModEq, Nat.mod_eq_of_lt hlt] at this

/-- The Montgomery path gives the power modulo an odd m (R169). -/
theorem montPath_eq (lw : LimbWidth) (b e : Nat) {m : Nat} (hm : m % 2 = 1) : montPath lw.bits b e m = b ^ e % m := by
  have hone : IsMontForm lw.bits m (montRadix lw.bits m % m) 1 :=
    ⟨Nat.mod_lt _ (by omega), by rw [one_mul]; exact Nat.mod_modEq _ _⟩
  exact redcUnit_one hm (squareMultiply_pow (fun _ _ _ _ hx hy => isMontForm_redcUnit hm hx hy) e (isMontForm_convert lw b hm) hone)

/-- Settles O60: either path gives the power modulo m, so the controller does whatever the parity of m. -/
theorem exponentiationPathsAgree : Obligations.ExponentiationPathsAgree := by
  intro lw b e m _
  refine ⟨plainPath_eq b e m, montPath_eq lw b e, ?_, powUnit_eq b e⟩
  unfold powmodUnit
  split
  · next hm => exact montPath_eq lw b e hm
  · exact plainPath_eq b e m

end Sys2Proof.Machine
end

section
/-! Proofs of the exceptions family: acceptance of a CMD write (R180), completion (R181), the error completion (R182, R183) and the
races at a completion (R185). -/

namespace Sys2Proof.Machine

/-! ### Acceptance -/

/-- A CMD write while BUSY = 1 is dropped and recorded in LOST (R180). -/
theorem portWrite_cmd_busy {s : State} (hb : s.busy = true) (c : Word) :
    portWrite PortReg.cmd.index c s = { s with lost := true } := by
  rw [portWrite_eq, portReg_index_cmd]
  exact if_pos hb

/-- A read of CMD returns the last accepted word, whether BUSY or not (R34, R206). -/
theorem portRead_cmd (s : State) : (portRead PortReg.cmd.index s).rdata = some s.cmd :=
  portRead_rdata (portReg_index_cmd _) (.inr rfl)

/-- Settles O8: an idle CMD write is `accept` and the start of the engine, a busy one sets LOST, and CMD reads the state's word. -/
theorem cmdWriteIsAcceptedOrLost : Obligations.CmdWriteIsAcceptedOrLost := by
  refine fun s c hc => ⟨fun hb => ?_, fun hb => ?_, portRead_cmd s⟩
  · have ht : portWrite 0x00003 c s = (s.accept c).startEngine := portWrite_cmd_idle hb hc
    rw [ht]
    exact ⟨⟨_, _, rfl⟩, portRead_cmd _⟩
  · have ht : portWrite 0x00003 c s = { s with lost := true } := portWrite_cmd_busy hb c
    rw [ht]
    exact ⟨rfl, portRead_cmd _⟩

/-! ### Every command ends in the completion step of its rule -/

/-- A rule's answer reports no error but the listed ones. -/
def ReportsOnly (codes : List ErrCode) (rule : Except ErrCode State) : Prop := ∀ c, rule = .error c → c ∈ codes

section
variable {codes : List ErrCode}

theorem ReportsOnly.ok (s : State) : ReportsOnly codes (.ok s) := nofun

theorem ReportsOnly.error {c : ErrCode} (h : c ∈ codes) : ReportsOnly codes (.error c) := by
  rintro _ ⟨⟩
  exact h

/-- A check reports what its two branches report. -/
theorem ReportsOnly.ite {c : Prop} [Decidable c] {p q : Except ErrCode State} (hp : ReportsOnly codes p) (hq : ReportsOnly codes q) :
    ReportsOnly codes (if c then p else q) := by
  split
  · exact hp
  · exact hq

theorem ReportsOnly.writeOrCapacity (h : .capacity ∈ codes) (s : State) (d : Reg) (v : Nat) :
    ReportsOnly codes (s.writeOrCapacity d v) := .ite (.ok _) (.error h)

end

/-- Every command is the completion of a rule that reports only the errors R183 lists for the command. -/
theorem exec_eq_completion (i : Instr) (s : State) :
    ∃ rule, exec i s = completion s rule ∧ ReportsOnly (errorsOf i) rule := by
  cases i
  -- no error
  case nop | mov | clamp | bitlen | bytelen | cmp | shr | gcd => exact ⟨_, rfl, .ok _⟩
  -- the capacity check of the shared ending alone
  case addw | add | mul => exact ⟨_, rfl, .writeOrCapacity (.head _) _ _ _⟩
  -- one check of the rule's own, before the result or after it
  case grow | getbit | subw | sub | div | rem | mrho | powmod => exact ⟨_, rfl, .ite (.error (.head _)) (.ok _)⟩
  case shl | mulw => exact ⟨_, rfl, .ite (.ok _) (.error (.head _))⟩
  -- the range check, then one of two results
  case setbit => exact ⟨_, rfl, .ite (.error (.head _)) (.ite (.ok _) (.ok _))⟩
  -- two checks
  case montmul => exact ⟨_, rfl, .ite (.error (.head _)) (.ite (.error (.tail _ (.head _))) (.ok _))⟩
  case pow => exact ⟨_, rfl, .ite (.writeOrCapacity (.head _) _ _ _) (.error (.head _))⟩

/-- A completion always answers a next state with DONE = 1 and BUSY = 0 (R181, R182). -/
theorem completion_completes (s : State) (rule : Except ErrCode State) :
    ∃ t, completion s rule = .next t ∧ t.done = true ∧ t.busy = false := by
  obtain ⟨t, ht⟩ := completion_next s rule
  obtain ⟨s', _, rfl⟩ | ⟨c, _, rfl⟩ := completion_cases ht <;> exact ⟨_, ht, rfl, rfl⟩

/-- Settles O9: a command is the completion of its rule, and every completion answers. -/
theorem everyCommandCompletes : Obligations.EveryCommandCompletes := by
  intro i s
  obtain ⟨rule, he, _⟩ := exec_eq_completion i s
  rw [he]
  exact completion_completes s rule

/-- E_INTERNAL is never reported (R155). -/
theorem exec_err_ne_internal {i : Instr} {s t : State} (h : exec i s = .next t) : t.err ≠ .internal := by
  obtain ⟨s', _, rfl⟩ | ⟨c, _, hc, rfl⟩ := exec_effect h
  · exact nofun
  · exact hc

/-- Settles O11: the completion's code is E_NONE or one the rule reports. -/
theorem errorsAreTheListedOnes : Obligations.ErrorsAreTheListedOnes := by
  intro i s t ht
  refine ⟨?_, exec_err_ne_internal ht⟩
  obtain ⟨rule, he, hlisted⟩ := exec_eq_completion i s
  obtain ⟨s', _, rfl⟩ | ⟨c, hc, rfl⟩ := completion_cases (he.symm.trans ht)
  · exact .inl rfl
  · exact .inr (hlisted c hc)

/-! ### The engine's turn while BUSY -/

/-- While BUSY = 1 the engine's turn is the completion step, of the command's rule or with E_ILLEGAL (R181, R86). -/
theorem engineTurn_eq_completion {s : State} (hb : s.busy = true) : ∃ rule, engineTurn s = completion s rule := by
  cases hd : decodeCmd s.params.limbWidth s.cmd with
  | some i =>
    obtain ⟨rule, he, _⟩ := exec_eq_completion i s
    exact ⟨rule, (engineTurn_of_decodeCmd hb hd).trans he⟩
  | none => exact ⟨.error .illegal, engineTurn_of_illegal hb hd⟩

/-- Settles O10: a turn that ends in an error is the completion of a rule that answered the error, so no effect landed. -/
theorem errorCompletionIsPrecise : Obligations.ErrorCompletionIsPrecise := by
  intro s t hb ht herr
  obtain ⟨rule, he⟩ := engineTurn_eq_completion hb
  obtain ⟨s', _, rfl⟩ | ⟨c, _, rfl⟩ := completion_cases (he.symm.trans ht)
  · exact absurd rfl herr
  · exact failsWith_complete s c

/-! ### Races at a completion -/

/-- An effect changes nothing that a reset keeps. -/
theorem Effect.toReset_eq {i : Instr} {s s' : State} (he : Effect i s s') : s'.toReset = s.toReset := by
  cases he <;> rfl

/-- A reset after the engine's turn leaves the state a reset before it leaves (R185, R201). -/
theorem engineTurn_toReset {s t : State} (h : engineTurn s = .next t) : t.toReset = s.toReset := by
  obtain ⟨i, hi⟩ | rfl | rfl := engineTurn_cases h
  · obtain ⟨s', he, rfl⟩ | ⟨c, _, _, rfl⟩ := exec_effect hi
    · exact he.toReset_eq
    · rfl
  · rfl
  · rfl

/-- A CMD write while BUSY = 0 raises BUSY, whatever the word (R180). -/
theorem busy_portWrite_cmd_idle {s : State} (hb : s.busy = false) (c : Word) : (portWrite PortReg.cmd.index c s).busy = true := by
  rw [portWrite_eq, portReg_index_cmd, State.writeCmd, if_neg (Bool.eq_false_iff.1 hb)]
  rfl

/-- A read of STATUS returns the STATUS word, whether BUSY or not (R33, R206). -/
theorem portRead_status (s : State) : (portRead PortReg.status.index s).rdata = some s.statusWord :=
  portRead_rdata (portReg_index_status _) (.inr rfl)

/-- Settles O32: the completed state t is idle with DONE = 1, so each access is read off before it from s and after it from t, and
a soft reset keeps nothing the completion changed. -/
theorem racesAdmitBothOrders : Obligations.RacesAdmitBothOrders := by
  intro s c hb
  obtain ⟨rule, he⟩ := engineTurn_eq_completion hb
  obtain ⟨t, ht, hdone, hidle⟩ := completion_completes s rule
  have hturn : engineTurn s = .next t := he.trans ht
  obtain ⟨hbefore, _⟩ := s.statusWord_fields
  obtain ⟨hbusy, hafter, _⟩ := t.statusWord_fields
  refine ⟨t, hturn, portWrite_cmd_busy hb c, busy_portWrite_cmd_idle hidle c,
    ⟨_, portRead_status s, hbefore.trans hb⟩, ⟨_, portRead_status t, hbusy.trans hidle, hafter.trans hdone⟩, fun hc => ?_⟩
  rw [portWrite_ctrl, portWrite_ctrl, if_pos hc, if_pos hc, engineTurn_toReset hturn]

end Sys2Proof.Machine
end

section
/-! Proofs of the reset and hazards family: reads while BUSY = 1 (R206, R67), and the completion of an accepted command (R210). -/

namespace Sys2Proof.Machine

/-! ### Reads while BUSY -/

/-- The registers that read exactly at every time: all but R206's. -/
theorem PortReg.anyWhileBusy_eq_false_iff {t : PortReg} :
    t.anyWhileBusy = false ↔ t ∈ [.id, .ctrl, .status, .cmd, .arg, .reserved] := by
  cases t <;> simp [PortReg.anyWhileBusy]

/-- A read changes the data read, a W-bit word, and the count of draws alone (R67). -/
theorem portRead_eq_of_inv {s : State} (hs : s.Inv) (k : PortIndex) :
    ∃ v n, v.toNat < 2 ^ s.W ∧ portRead k s = { s with rdata := some v, draws := n } := by
  obtain ⟨v, n, hread⟩ := portRead_eq k s
  obtain ⟨_, _, _, _, _, hv, _⟩ := inv_portRead hs k
  rw [hread] at hv
  exact ⟨v, n, hv, hread⟩

/-- Settles O22: every read leaves a W-bit word, and one that R206 does not free is exact. -/
theorem readsAreExactUnlessBusy : Obligations.ReadsAreExactUnlessBusy :=
  fun _ k hs => ⟨portRead_eq_of_inv hs k, fun h => portRead_exact (h.imp_right PortReg.anyWhileBusy_eq_false_iff.2)⟩

/-! ### An event that keeps the command in flight -/

theorem engineTurn_inputs {s t : State} (h : engineTurn s = .next t) : t.inputs = s.inputs := by
  obtain ⟨i, hi⟩ | rfl | rfl := engineTurn_cases h
  · exact (exec_frame hi).inputs
  · rfl
  · rfl

/-- No event changes the host's accesses still to come (R70). -/
theorem turn_inputs {s t : State} {e : HostEvent} (h : turn e s = .next t) : t.inputs = s.inputs := by
  obtain ⟨k, rfl⟩ | ⟨k, v, rfl⟩ | h | rfl := turn_cases h
  · exact portRead_inputs k s
  · exact portWrite_inputs k v s
  · exact engineTurn_inputs h
  · rfl

/-- A bus access of a legal size and address reaches a word index (R62, R63, R65). -/
theorem busIndex_of_busLegal {p : Params} {addr size : Nat} (h : busLegal p addr size = true) :
    ∃ k, busIndex p addr size = .ok k := by
  simp only [busLegal, Bool.and_eq_true, beq_iff_eq, decide_eq_true_eq] at h
  obtain ⟨⟨⟨hsize, hbase⟩, halign⟩, hindex⟩ := h
  refine ⟨BitVec.ofNat 17 ((addr - p.baseAddr) / p.wordBytes), busIndex_eq_ok.2 ⟨hsize, ?_⟩⟩
  rw [BitVec.toNat_ofNat, Nat.mod_eq_of_lt hindex, Nat.div_mul_cancel (Nat.dvd_of_mod_eq_zero halign),
    Nat.add_sub_cancel' hbase]

theorem resetsBlock_of_keepsCommand {p : Params} {e : HostEvent} (h : keepsCommand p e = true) : resetsBlock p e = false := by
  obtain ⟨hreset, _⟩ := Bool.and_eq_true_iff.1 h
  exact Bool.not_eq_true' _ ▸ hreset

/-- A host access that keeps the command is answered: only a bus access of another size or address is refused (R63, R65). -/
theorem turn_next_of_keepsCommand {s : State} {e : HostEvent} (he : e ≠ .pause) (h : keepsCommand s.params e = true) :
    ∃ t, turn e s = .next t := by
  cases e with
  | read k => exact ⟨_, rfl⟩
  | write k v => exact ⟨_, rfl⟩
  | busRead addr size =>
    obtain ⟨k, hk⟩ := busIndex_of_busLegal (Bool.and_eq_true_iff.1 h).2
    exact ⟨_, busRead_of_ok hk⟩
  | busWrite addr bytes =>
    obtain ⟨k, hk⟩ := busIndex_of_busLegal (Bool.and_eq_true_iff.1 h).2
    exact ⟨_, busWrite_of_ok hk⟩
  | hardReset => exact ⟨_, rfl⟩
  | pause => exact absurd rfl he

/-- A step on such an access consumes it and leaves the command and its operands (R27, R205). -/
theorem step_of_keepsCommand {s : State} {e : HostEvent} {rest : List HostEvent} (hb : s.busy = true) (hin : s.inputs = e :: rest)
    (he : e ≠ .pause) (hk : keepsCommand s.params e = true) :
    ∃ t, step s = .next t ∧ t.inputs = rest ∧ SameOperands s t := by
  obtain ⟨t, ht⟩ := turn_next_of_keepsCommand (s := { s with inputs := rest }) he hk
  obtain ⟨_, hsame⟩ := operandsStandWhileBusy { s with inputs := rest } t e hb he ht
  exact ⟨t, (step_of_input hin).trans ht, turn_inputs ht, hsame (resetsBlock_of_keepsCommand hk)⟩

/-! ### Completion after finitely many steps -/

/-- While BUSY = 1 the engine's turn completes the command (R181). -/
theorem engineTurn_completes {s : State} (hb : s.busy = true) : ∃ t, engineTurn s = .next t ∧ t.busy = false ∧ t.done = true := by
  obtain ⟨rule, he⟩ := engineTurn_eq_completion hb
  obtain ⟨t, ht, hdone, hidle⟩ := completion_completes s rule
  exact ⟨t, he.trans ht, hidle, hdone⟩

/-- With no access left, or with the turn left to the engine, the next step is the completion (R181, R210). -/
theorem step_completes {s : State} (hb : s.busy = true) (hin : s.inputs = [] ∨ ∃ rest, s.inputs = .pause :: rest) :
    ∃ t, step s = .next t ∧ t.busy = false ∧ t.done = true := by
  obtain hnil | ⟨rest, hpause⟩ := hin
  · rw [step_of_no_input hnil]
    exact engineTurn_completes hb
  · rw [step_of_input hpause]
    exact engineTurn_completes (s := { s with inputs := rest }) hb

theorem run_succ_of_step {s t : State} (h : step s = .next t) (k : Nat) : Host.Core.run core (k + 1) s = Host.Core.run core k t := by
  have hcore : core.step s = .next t := h
  simp only [Host.Core.run, hcore]

theorem SameOperands.refl {s : State} (hb : s.busy = true) : SameOperands s s := ⟨rfl, rfl, rfl, hb, rfl⟩

theorem SameOperands.busy {s t : State} (h : SameOperands s t) : t.busy = true := by
  obtain ⟨_, _, _, hbusy, _⟩ := h
  exact hbusy

theorem SameOperands.trans {s t u : State} (hst : SameOperands s t) (htu : SameOperands t u) : SameOperands s u := by
  obtain ⟨hregs, harg, hcmd, _, hvalues⟩ := hst
  obtain ⟨hregs', harg', hcmd', hbusy, hvalues'⟩ := htu
  exact ⟨hregs'.trans hregs, harg'.trans harg, hcmd'.trans hcmd, hbusy, hvalues'.trans hvalues⟩

/-- The step that completes the command in flight comes after no more steps than the host has accesses left: it falls on the first
turn the host leaves to the engine, and each access before it leaves the command and its operands (R210). -/
theorem run_reaches_completion {s : State} (hb : s.busy = true) (hk : ∀ e ∈ s.inputs, keepsCommand s.params e = true) :
    ∃ k t, k ≤ s.inputs.length ∧ Host.Core.run core k s = .next t ∧ SameOperands s t
      ∧ ∃ t', step t = .next t' ∧ t'.busy = false ∧ t'.done = true := by
  induction hin : s.inputs generalizing s with
  | nil => exact ⟨0, s, Nat.zero_le _, rfl, .refl hb, step_completes hb (.inl hin)⟩
  | cons e rest ih =>
    rw [hin] at hk
    obtain ⟨hke, hrest⟩ := List.forall_mem_cons.1 hk
    by_cases he : e = .pause
    · subst he
      exact ⟨0, s, Nat.zero_le _, rfl, .refl hb, step_completes hb (.inr ⟨rest, hin⟩)⟩
    · obtain ⟨t, hstep, hleft, hsame⟩ := step_of_keepsCommand hb hin he hke
      obtain ⟨k, u, hle, hrun, hsame', hdone⟩ := ih hsame.busy (by rwa [hleft, step_params hstep]) hleft
      exact ⟨k + 1, u, Nat.succ_le_succ hle, (run_succ_of_step hstep k).trans hrun, hsame.trans hsame', hdone⟩

/-- Settles O31, by induction on the host's accesses to come (`run_reaches_completion`). -/
theorem acceptedCommandCompletesUnlessReset : Obligations.AcceptedCommandCompletesUnlessReset := by
  intro s hb hk
  obtain ⟨k, t, hle, hrun, ⟨hregs, harg, hcmd, hbusy, _⟩, hdone⟩ := run_reaches_completion hb hk
  exact ⟨k, t, hle, hrun, hbusy, hcmd, hregs, harg, hdone⟩

end Sys2Proof.Machine
end
